-- ==== Sys2Proof/Word.lean ====
section
/-! DEFINITION. The widths of the Huffman codec core's values (spec/00_scope.md R7, R9): every number of the block is
unsigned. A code is a finite list of bits (R10), first bit emitted first. -/

namespace Sys2Proof

/-- A 32-bit word: a CSR's contents, a command word, a host temporary (R7 "CSR width", R111). -/
abbrev Word := BitVec 32

/-- A byte: a stream byte, and a symbol of the 256-symbol alphabet (R7, R8). -/
abbrev Byte := BitVec 8

/-- A 64-bit quantity: a frequency count, a node weight, IN_PTR, OUT_CNT, INFO (R7 `COUNT_W`, R38 to R41). -/
abbrev Count := BitVec 64

/-- A 9-bit arena index, which is also a sequence id (R7 `SEQ_W`, R59). -/
abbrev NodeIdx := BitVec 9

/-- A bit string (R10): `true` is 1, `false` is 0, and the head is the first bit emitted. -/
abbrev Bits := List Bool

end Sys2Proof
end

