-- ==== Sys2Proof/Config.lean ====
section
/-! DEFINITION. The parameters of spec/00_scope.md R7, the constant ID register (R33), and the FREE VALUES: the values
the spec leaves open, as constants without a body, so that no proof can see what they are. -/

namespace Sys2Proof.Config

/-- `ALPHABET`: 256 symbols, the byte values (R7). -/
abbrev alphabet : Nat := 256

/-- `HDR_WORD_BYTES`: 8 bytes a header count (R7). -/
def headerWordBytes : Nat := 8

/-- `HDR_BYTES`: the header is 2048 bytes (R7, R133). -/
def headerBytes : Nat := 2048

/-- `MAX_NODES`: 511 arena nodes (R7). -/
def maxNodes : Nat := 511

/-- `MAX_CODE_LEN`: 255 bits (R7). -/
def maxCodeLen : Nat := 255

/-- `MAX_IN_LEN`: an input has at most 2^64 - 1 bytes (R7, R246). -/
def maxInLen : Nat := 2 ^ 64 - 1

/-- The CSR window: 256 bytes (R7, R82). -/
def csrWindow : Nat := 256

/-- ID reads this constant, ASCII "HUFF" (R33). -/
def identification : Word := 0x48554646#32

/-- FREE VALUE (R65, R241; log 6, safe): the `n`-th unspecified 32-bit value that a CSR read returns while BUSY = 1. -/
opaque freeWord : Nat → Word

/-- FREE VALUE (R248; log 6, safe): the `n`-th unspecified byte string that the host gets when it reads OUT while BUSY = 1. -/
opaque freeBytes : Nat → List Byte

/-- FREE VALUE (R302; log 3, safe): how many turns of the host come before the core's turn in the `n`-th round of turns
that is drawn. It is finite and unbounded, and nothing else is known of it: fairness and no more. -/
opaque latency : Nat → Nat

/-- `OPEN: HUFF_BASE` (R93): the system address of CSR offset 0. No rule uses it (log 15, safe). -/
opaque huffBase : Nat

/-- `OPEN: HUFF_IRQ_ROUTE` (R268): the interrupt line that `irq` drives. No rule uses it (log 15, safe). -/
opaque huffIrqRoute : Nat

end Sys2Proof.Config
end

