-- ==== Sys2Proof/Machine/State.lean ====
section
/-! DEFINITION. The whole state of the Huffman codec core and of the two agents that act on it (spec/10_state.md R31 to
R67, spec/00_scope.md R6, R7), as plain data, with its reset value (R66). BUSY is no field: it is `pending ≠ none`
(R62), and IN_LEN is the length of the bound input (R61). -/

namespace Sys2Proof.Machine

/-- CTRL.DEC_MODE, the decoder reading (R34): it holds 0, 1 or 2, never 3. -/
inductive DecMode where
  | exact
  | legacyByte
  | legacyBit
  deriving DecidableEq, Repr

/-- STATUS.CODE (R262); the reserved values 4..15 are never produced. -/
inductive StatusCode where
  | ok
  | invalidArguments
  | illegalCommand
  | sequenceError
  deriving DecidableEq, Repr

/-- STATUS.CAUSE (R263); the reserved values 12..255 are never produced. -/
inductive Cause where
  /-- NONE (0). -/
  | noCause
  | inUnusable
  | outUnusable
  | hdrShort
  | weightOverflow
  | noCode
  | truncated
  | trailing
  | noTree
  | noCodeTable
  | badOpcode
  | reservedBits
  deriving DecidableEq, Repr

/-- A node record of the arena (R59). -/
inductive Node where
  | leaf (sym : Byte) (weight : Count) (seq : NodeIdx)
  | internal (weight : Count) (seq left right : NodeIdx)
  deriving DecidableEq, Repr

/-- The frequency table: 256 64-bit counts indexed by byte value (R58). -/
abbrev FreqTable := Vector Count Config.alphabet

/-- The code table: 256 bit lists indexed by byte value, the empty list for "no code" (R60). -/
abbrev CodeTable := Vector Bits Config.alphabet

/-- The two agents (R6). -/
inductive Agent where
  | host
  | core
  deriving DecidableEq, Repr

/-- One step of the host (R95, R118), with the access width of R241 and R242 written out, the OUT read of R248 and the
hardware reset of R291 beside the forms of R118. A label is the index of its step in the program (DESIGN CHOICE, log 10, safe). -/
inductive HostStep where
  /-- `wr REG, v`: a CSR write of `width` bytes at byte offset `off` (R242). -/
  | wr (off width : Nat) (v : Word)
  /-- `rd REG -> t`: a CSR read of `width` bytes at byte offset `off` into temporary `t` (R241). -/
  | rd (off width : Nat) (t : Nat)
  /-- `bind_in bytes` (R246). -/
  | bindIn (bytes : List Byte)
  /-- `bind_out` (R246). -/
  | bindOut
  /-- `usable in=x, out=y` (R247). -/
  | usable (inUsable outUsable : Bool)
  /-- Read every byte of OUT (R248). -/
  | readOut
  /-- `beq t, m, v, L` (R118). -/
  | beq (t : Nat) (m v : Word) (target : Nat)
  /-- `bne t, m, v, L` (R118). -/
  | bne (t : Nat) (m v : Word) (target : Nat)
  /-- `halt`: the end of the host program (R118, R304). -/
  | halt
  /-- The hardware reset line is pulsed (R291). DESIGN CHOICE (log 5): a step of the host program. -/
  | hardReset
  deriving DecidableEq, Repr

/-- The host agent: its program, its place in it, its temporaries and the bytes its last OUT read gave. -/
structure HostAgent where
  /-- The host program (R118). -/
  prog : List HostStep
  /-- The index of the host's next step. -/
  pc : Nat
  /-- The host temporaries (R118): pairs of number and value, numbers rising, no zero value listed.
  DESIGN CHOICE (log 4, unsafe): an unlisted temporary reads 0. -/
  temps : List (Nat × Word)
  /-- What the host's last read of OUT returned (R248). DESIGN CHOICE (log 10, safe). -/
  outView : List Byte
  deriving DecidableEq, Repr

/-- The state of the block, of its streams and of the host. There is no byte-addressed memory (R81; DEDUCED, log 14,
safe): the tables and streams are the spaces of R81, as data. -/
structure State where
  /-- CTRL[0] IRQ_EN (R34). -/
  irqEn : Bool
  /-- CTRL[2:1] DEC_MODE (R34). -/
  decMode : DecMode
  /-- CTRL[3] HDR_BE (R34). -/
  hdrBe : Bool
  /-- STATUS[1] DONE (R36). -/
  done : Bool
  /-- STATUS[2] OVERRUN (R36). -/
  overrun : Bool
  /-- STATUS[7:4] CODE (R36). -/
  statusCode : StatusCode
  /-- STATUS[15:8] CAUSE (R36). -/
  statusCause : Cause
  /-- STATUS[16] TREE_VALID (R36, R37). -/
  treeValid : Bool
  /-- STATUS[17] CODE_VALID (R36, R37). -/
  codeValid : Bool
  /-- INFO (R38). -/
  info : Count
  /-- IN_PTR (R39). -/
  inPtr : Count
  /-- OUT_CNT (R41). -/
  outCnt : Count
  /-- FREQ (R58). -/
  freq : FreqTable
  /-- ARENA (R59). -/
  arena : List Node
  /-- CODE (R60). -/
  codes : CodeTable
  /-- FREQ_IDX (R45). -/
  freqIdx : Byte
  /-- NODE_IDX (R47). -/
  nodeIdx : NodeIdx
  /-- CODE_IDX (R53). -/
  codeIdx : Byte
  /-- CODE_WSEL (R55). -/
  codeWsel : BitVec 3
  /-- PENDING: none, or the accepted command word (R62). -/
  pending : Option Word
  /-- L.DEC_MODE, latched at acceptance (R62). -/
  lDecMode : DecMode
  /-- L.HDR_BE, latched at acceptance (R62). -/
  lHdrBe : Bool
  /-- IN, the bound input buffer (R61). -/
  input : List Byte
  /-- OUT, the bound output sink (R61). -/
  output : List Byte
  /-- IN_USABLE, the host's signal (R61). -/
  inUsable : Bool
  /-- OUT_USABLE, the host's signal (R61). -/
  outUsable : Bool
  /-- The host agent (R6, R118). -/
  host : HostAgent
  /-- Which agent moves at the coming steps at which both can (R95): the interleaving, one entry a step. When it is used
  up, a round of turns is drawn (R302). DESIGN CHOICE (log 3): unsafe for a claim about one list only. -/
  turns : List Agent
  /-- How many rounds of turns have been drawn (the model's own field; DESIGN CHOICE, log 3, safe). -/
  rounds : Nat
  /-- How many free values have been drawn (the model's own field; DESIGN CHOICE, log 6, safe). -/
  draws : Nat
  deriving DecidableEq, Repr

/-- Why the machine stops. No command of the block faults: every error is a completion status (R261). -/
inductive Fault where
  /-- Neither agent has a step: the host is at `halt` or past its program's end, and no command is pending (R249, R304).
  Raised by `step`. DESIGN CHOICE (log 8, safe): the run has ended and nothing is claimed after it. -/
  | runEnded
  deriving DecidableEq, Repr

/-- Why the model gives a step no meaning. The spec refuses these host moves (spec/93_implementation_defined.md §2;
DESIGN CHOICE, log 9, safe). -/
inductive Refusal where
  /-- An instruction whose meaning is not written; raised by `exec`'s rejected arms. Safe. -/
  | notModelled (mnemonic : String)
  /-- A CSR access that is not 4 bytes wide (R88); raised by the host's `rd` and `wr`. Safe. -/
  | csrWidth
  /-- A CSR access whose offset is no multiple of 4 (R88); raised by the host's `rd` and `wr`. Safe. -/
  | csrMisaligned
  /-- An access outside the 256-byte window (R82, R241, R242); raised by the host's `rd` and `wr`. Safe. -/
  | csrOutsideWindow
  /-- A bind or a usable-signal change while BUSY = 1, which is no host move (R246, R247, R297). Safe. -/
  | streamMoveWhileBusy
  /-- A bind of an input longer than 2^64 - 1 bytes, which is no host move (R246). Safe. -/
  | inputTooLong
  deriving DecidableEq, Repr

/-- A host with no program: it has no move. -/
def HostAgent.idle : HostAgent := ⟨[], 0, [], []⟩

/-- The machine right after hardware reset (R66, R291), with nothing bound, nothing usable and no host program: the
host's streams are launch parameters (R66), and an unbound input reads IN_LEN = 0 (R40).
DESIGN CHOICE (log 2, unsafe): IN and OUT are empty and both usable signals are 0 here. -/
def State.reset : State where
  irqEn := false
  decMode := .exact
  hdrBe := false
  done := false
  overrun := false
  statusCode := .ok
  statusCause := .noCause
  treeValid := false
  codeValid := false
  info := 0#64
  inPtr := 0#64
  outCnt := 0#64
  freq := Vector.replicate Config.alphabet 0#64
  arena := []
  codes := Vector.replicate Config.alphabet []
  freqIdx := 0#8
  nodeIdx := 0#9
  codeIdx := 0#8
  codeWsel := 0#3
  pending := none
  lDecMode := .exact
  lHdrBe := false
  input := []
  output := []
  inUsable := false
  outUsable := false
  host := .idle
  turns := []
  rounds := 0
  draws := 0

/-- The machine after reset with the launch parameters of R66: the bound input and output, the two usable signals, and
the host program that will drive it. -/
def State.launch (input output : List Byte) (inUsable outUsable : Bool) (prog : List HostStep) : State :=
  { State.reset with input, output, inUsable, outUsable, host := { HostAgent.idle with prog } }

end Sys2Proof.Machine
end

