-- ==== Sys2Proof/Syntax.lean ====
section
/-! DEFINITION. The thirteen commands of HUFF-CMD revision 1 (spec/30_encoding.md R113, spec/opcode_table.json), one
constructor a row. Commands have no operand fields and no immediates (R112): a command's operands are block state. -/

namespace Sys2Proof

/-- One constructor per row of the opcode table (R113). -/
inductive Instr where
  /-- NOP, OPC 0x00 (R236). -/
  | nop
  /-- SOFT_RESET, OPC 0x01 (R237). -/
  | softReset
  /-- IN_REWIND, OPC 0x02 (R238). -/
  | inRewind
  /-- HIST_CLEAR, OPC 0x10 (R134). -/
  | histClear
  /-- HIST_ACCUM, OPC 0x11 (R135). -/
  | histAccum
  /-- HDR_EMIT, OPC 0x12 (R136). -/
  | hdrEmit
  /-- HDR_LOAD, OPC 0x13 (R137). -/
  | hdrLoad
  /-- TREE_BUILD, OPC 0x20 (R153). -/
  | treeBuild
  /-- CODE_GEN, OPC 0x30 (R171). -/
  | codeGen
  /-- PACK, OPC 0x40 (R187). -/
  | pack
  /-- UNPACK, OPC 0x41 (R190). -/
  | unpack
  /-- COMPRESS, OPC 0x80 (R216). -/
  | compress
  /-- DECOMPRESS, OPC 0x81 (R218). -/
  | decompress
  deriving DecidableEq, Repr

end Sys2Proof
end

