-- ==== Sys2Proof/WellFormed.lean ====
section
/-! DEFINITION. What makes the terms of this hardware well formed. A command has no operand field (spec/30_encoding.md
R112), so every `Instr` is; the checks with content are those on a command word's reserved bits (R111), on a host CSR
access (spec/20_memory.md R88) and on an input buffer (spec/45_control.md R246). -/

namespace Sys2Proof

/-- Every command is well formed: it has no operand that could be out of range (R112). -/
def Instr.wellFormed : Instr → Bool
  | .nop | .softReset | .inRewind => true
  | .histClear | .histAccum | .hdrEmit | .hdrLoad => true
  | .treeBuild | .codeGen => true
  | .pack | .unpack | .compress | .decompress => true

/-- The reserved bits RSV = [31:8] of a command word are 0 (R111). -/
def reservedClear (w : Word) : Bool := w >>> 8 == 0#32

/-- A CSR access is 4 bytes wide (R88). -/
def csrWidthOk (width : Nat) : Bool := width == 4

/-- A CSR access is at a multiple of 4 (R88). -/
def csrAligned (off : Nat) : Bool := off % 4 == 0

/-- A CSR access is inside the 256-byte window (R82, R241, R242). -/
def csrInWindow (off : Nat) : Bool := decide (off < Config.csrWindow)

/-- A host CSR access that has a meaning (R88, R241, R242). -/
def csrAccessOk (off width : Nat) : Bool := csrWidthOk width && csrAligned off && csrInWindow off

/-- An input buffer the host can bind: at most 2^64 - 1 bytes (R246). -/
def inputFits (bytes : List Byte) : Bool := decide (bytes.length ≤ Config.maxInLen)

end Sys2Proof
end

