-- ==== Sys2Proof/Machine/Ops.lean ====
section
/-! DEFINITION. The named operations the commands share: the stream primitives InRead, InAtEnd and OutWrite
(spec/20_memory.md R90, R91), the stage-valid updates (spec/10_state.md R37), the issue (spec/45_control.md R239, R240)
and the completion `finish` (spec/60_exceptions.md R262 to R266), which is the block's counterpart of taking an
exception. There is no return from one (R270): the host acknowledges a completion. The host's temporaries stand here
too. -/

namespace Sys2Proof.Machine

/-- What a command's pseudocode ends in, before completion (R13): success, or a `raise` with its cause and with the
effects made so far. -/
abbrev Body := Except (Cause × State) State

/-! ## Input and output streams -/

/-- IN_LEN = |IN|, a 64-bit value (R40, R61). -/
def State.inLen (s : State) : Count := BitVec.ofNat 64 s.input.length

/-- The bytes not read yet: IN[IN_PTR ..]. -/
def State.remaining (s : State) : List Byte := s.input.drop s.inPtr.toNat

/-- InAtEnd (R90). -/
def State.inAtEnd (s : State) : Bool := s.inPtr.toNat == s.input.length

/-- The pointer advance of InRead (R90). -/
def State.consume (s : State) : State := { s with inPtr := s.inPtr + 1#64 }

/-- IN_PTR <- 0 (R238, R216, R218). -/
def State.rewind (s : State) : State := { s with inPtr := 0#64 }

/-- OutWrite (R91): append one byte and count it modulo 2^64. -/
def State.outWrite (s : State) (b : Byte) : State :=
  { s with output := s.output ++ [b], outCnt := s.outCnt + 1#64 }

/-- OutWrite of each byte of a list, in order (R91). -/
def State.outWriteAll (s : State) (bs : List Byte) : State :=
  { s with output := s.output ++ bs, outCnt := s.outCnt + BitVec.ofNat 64 bs.length }

/-! ## Stage-valid bits -/

/-- A FREQ change clears both stage-valid bits (R37). -/
def State.invalidateStages (s : State) : State := { s with treeValid := false, codeValid := false }

/-! ## Issue -/

/-- BUSY = 1 exactly when PENDING is not none (R62). -/
def State.busy (s : State) : Bool := s.pending.isSome

/-- An accepted issue (R239): PENDING and the latched CTRL fields are written, BUSY becomes 1 and DONE 0. -/
def State.accept (s : State) (w : Word) : State :=
  { s with pending := some w, lDecMode := s.decMode, lHdrBe := s.hdrBe, done := false }

/-- A write to CMD: accepted when BUSY = 0 (R239), dropped with OVERRUN set when BUSY = 1 (R240). -/
def State.issue (s : State) (w : Word) : State :=
  if s.busy then { s with overrun := true } else s.accept w

/-! ## Completion -/

/-- The status code that goes with each cause (R263). -/
def Cause.code : Cause → StatusCode
  | .noCause => .ok
  | .inUnusable | .outUnusable | .hdrShort | .weightOverflow | .noCode | .truncated | .trailing => .invalidArguments
  | .noTree | .noCodeTable => .sequenceError
  | .badOpcode | .reservedBits => .illegalCommand

/-- The command word that is running: PENDING (R62), read only while a command is pending. DEDUCED
(log 13, safe): it is 0 when none is pending, which no step reads. -/
def State.commandWord (s : State) : Word := s.pending.getD 0#32

/-- The value INFO takes at completion (R265). -/
def State.infoFor (s : State) : StatusCode → Count
  | .ok => 0#64
  | .invalidArguments => s.inPtr
  | .illegalCommand => s.commandWord.setWidth 64
  | .sequenceError => s.commandWord.setWidth 64

/-- `finish(code, cause)`, the completion of the running command (R266). -/
def State.finish (s : State) (code : StatusCode) (cause : Cause) : State :=
  { s with statusCode := code, statusCause := cause, info := s.infoFor code, pending := none, done := true }

/-- Complete a command's body: `finish(OK, NONE)` on success, and on a `raise` the cause with its code; the effects made
before it are kept (R266). -/
def finishBody : Body → State
  | .ok s => s.finish .ok .noCause
  | .error (cause, s) => s.finish cause.code cause

/-- A command always completes: the outcome of its core step is the completed state (R249, R261). -/
def complete (b : Body) : Host.Outcome State Fault Refusal := .next (finishBody b)

/-! ## Host temporaries -/

/-- The value of a host temporary; one that nothing has written reads 0. -/
def tempGet : List (Nat × Word) → Nat → Word
  | [], _ => 0#32
  | (k, v) :: rest, t => if k = t then v else tempGet rest t

/-- Put a pair in its place in front of a rising list, unless its value is 0, which is what an unlisted one reads as. -/
def tempCons (t : Nat) (v : Word) (rest : List (Nat × Word)) : List (Nat × Word) :=
  if v = 0#32 then rest else (t, v) :: rest

/-- Write a host temporary, keeping the canonical form. -/
def tempSet : List (Nat × Word) → Nat → Word → List (Nat × Word)
  | [], t, v => tempCons t v []
  | (k, w) :: rest, t, v =>
    if t < k then tempCons t v ((k, w) :: rest)
    else if t = k then tempCons t v rest
    else (k, w) :: tempSet rest t v

/-- The canonical form of the temporaries: numbers strictly rising, no listed value 0. -/
def tempsWf : List (Nat × Word) → Bool
  | [] => true
  | (k, v) :: rest => v != 0#32 && rest.all (fun p => decide (k < p.1)) && tempsWf rest

end Sys2Proof.Machine
end

