-- ==== Sys2Proof/Machine/Operands.lean ====
section
/-! DEFINITION. The operand forms. Commands have no operand fields (spec/30_encoding.md R112): their operands are the
tables, the streams and the latched CTRL fields. Here: reading and updating the tables, the summary values of FREQ
(spec/40_histogram.md R132), the byte order of a header count (spec/20_memory.md R85) and the bits of a payload byte
(R86). -/

namespace Sys2Proof.Machine

/-! ## The frequency table -/

/-- FREQ[s] (R58). -/
def freqAt (f : FreqTable) (s : Byte) : Count := f[s.toNat]'(s.isLt)

/-- FREQ with one entry written. -/
def freqSet (f : FreqTable) (s : Byte) (v : Count) : FreqTable := f.set s.toNat v s.isLt

/-- FREQ[b] <- (FREQ[b] + 1) mod 2^64 (R135). -/
def countByte (f : FreqTable) (b : Byte) : FreqTable := freqSet f b (freqAt f b + 1#64)

/-- All 256 counts 0. -/
def freqZero : FreqTable := Vector.replicate Config.alphabet 0#64

/-- `total`: the exact sum of the counts (R132). -/
def totalCount (f : FreqTable) : Nat := (f.toList.map BitVec.toNat).sum

/-- `distinct`: the number of nonzero counts (R132). -/
def distinctCount (f : FreqTable) : Nat := f.toList.countP (fun c => c != 0#64)

/-! ## The arena -/

/-- A node's weight. -/
def Node.weight : Node → Count
  | .leaf _ w _ => w
  | .internal w _ _ _ => w

/-- A node's sequence id. -/
def Node.seq : Node → NodeIdx
  | .leaf _ _ q => q
  | .internal _ q _ _ => q

/-- A leaf's symbol; 0 for an internal node (R48). -/
def Node.sym : Node → Byte
  | .leaf s _ _ => s
  | .internal _ _ _ _ => 0#8

/-- The left ("true") child; 0 for a leaf (R50). -/
def Node.left : Node → NodeIdx
  | .leaf _ _ _ => 0#9
  | .internal _ _ l _ => l

/-- The right ("false") child; 0 for a leaf (R51). -/
def Node.right : Node → NodeIdx
  | .leaf _ _ _ => 0#9
  | .internal _ _ _ r => r

/-- Whether the node is an internal node (R48). -/
def Node.isInternal : Node → Bool
  | .leaf _ _ _ => false
  | .internal _ _ _ _ => true

/-- Whether the node is a leaf. -/
def Node.isLeaf (n : Node) : Bool := !n.isInternal

/-- ARENA[i]. The rules read only indices below NODES (R83); an index beyond reads a leaf of zeros
(DEDUCED, log 11, safe). -/
def nodeAt (arena : List Node) (i : Nat) : Node := arena.getD i (.leaf 0#8 0#64 0#9)

/-- The index of the root, the last node: NODES - 1, or 0 in an empty arena (R44, R156). -/
def rootIdx (arena : List Node) : Nat := arena.length - 1

/-- One step of the walk: bit 1 goes to the left child, bit 0 to the right child (R172, R191). -/
def childOf (arena : List Node) (i : Nat) (bit : Bool) : Nat :=
  if bit then (nodeAt arena i).left.toNat else (nodeAt arena i).right.toNat

/-! ## The code table -/

/-- CODE[s] (R60). -/
def codeAt (tbl : CodeTable) (s : Byte) : Bits := tbl[s.toNat]'(s.isLt)

/-- CODE with one entry written. -/
def codeSet (tbl : CodeTable) (s : Byte) (v : Bits) : CodeTable := tbl.set s.toNat v s.isLt

/-- All 256 codes `[]`. -/
def codesEmpty : CodeTable := Vector.replicate Config.alphabet []

/-! ## Header bytes -/

/-- The lowest bit of the field of a count that header byte `k` holds: `8k` little-endian, `56 - 8k` big-endian (R85). -/
def headerBytePos (be : Bool) (k : Nat) : Nat := if be then 56 - 8 * k else 8 * k

/-- The 8 header bytes of a count (R85, R136). -/
def countBytes (be : Bool) (v : Count) : List Byte :=
  (List.range Config.headerWordBytes).map fun k => v.extractLsb' (headerBytePos be k) 8

/-- The count that 8 header bytes give (R85, R137): each byte is put at its place in a word of zeros. -/
def countOfBytes (be : Bool) (bs : List Byte) : Count :=
  (List.range Config.headerWordBytes).foldl
    (fun v k => v ||| ((bs.getD k 0#8).setWidth 64 <<< headerBytePos be k)) 0#64

/-- The 2048-byte header of a frequency table, counts in byte-value order (R133). -/
def headerOf (be : Bool) (f : FreqTable) : List Byte := f.toList.flatMap (countBytes be)

/-- The frequency table that a header gives (R133, R137). -/
def freqOfHeader (be : Bool) (bs : List Byte) : FreqTable :=
  Vector.ofFn fun s => countOfBytes be ((bs.drop (Config.headerWordBytes * s.val)).take Config.headerWordBytes)

/-! ## Payload bits -/

/-- The bits of a byte, most significant first (R8, R86). -/
def bitsOfByte (b : Byte) : Bits :=
  [b.getLsbD 7, b.getLsbD 6, b.getLsbD 5, b.getLsbD 4, b.getLsbD 3, b.getLsbD 2, b.getLsbD 1, b.getLsbD 0]

end Sys2Proof.Machine
end

