-- ==== Sys2Proof/Machine/Flags.lean ====
section
/-! DEFINITION. The flags and the status words computed from State: TOTAL_OVF (spec/40_histogram.md R132), the interrupt
output (spec/60_exceptions.md R268) and the fields of CTRL and STATUS (spec/10_state.md R34, R36). There are no arithmetic
condition codes (R64). -/

namespace Sys2Proof.Machine

/-- TOTAL_OVF: the exact sum of the counts is 2^64 or more (R132). -/
def totalOvf (f : FreqTable) : Bool := decide (2 ^ 64 ≤ totalCount f)

/-- The interrupt output: DONE ∧ IRQ_EN (R268). -/
def State.irq (s : State) : Bool := s.done && s.irqEn

/-- A one-bit field at a bit position of a 32-bit register. -/
def flagAt (pos : Nat) (b : Bool) : Word := (BitVec.ofBool b).setWidth 32 <<< pos

/-- The value of DEC_MODE (R34). -/
def DecMode.toField : DecMode → BitVec 2
  | .exact => 0#2
  | .legacyByte => 1#2
  | .legacyBit => 2#2

/-- DEC_MODE as a write stores it: 3 stores 0 (R34, R245). -/
def DecMode.ofField (v : BitVec 2) : DecMode :=
  if v = 1#2 then .legacyByte else if v = 2#2 then .legacyBit else .exact

/-- The value of STATUS.CODE (R262). -/
def StatusCode.toField : StatusCode → BitVec 4
  | .ok => 0#4
  | .invalidArguments => 1#4
  | .illegalCommand => 2#4
  | .sequenceError => 3#4

/-- The value of STATUS.CAUSE (R263). -/
def Cause.toField : Cause → BitVec 8
  | .noCause => 0#8
  | .inUnusable => 1#8
  | .outUnusable => 2#8
  | .hdrShort => 3#8
  | .weightOverflow => 4#8
  | .noCode => 5#8
  | .truncated => 6#8
  | .trailing => 7#8
  | .noTree => 8#8
  | .noCodeTable => 9#8
  | .badOpcode => 10#8
  | .reservedBits => 11#8

/-- CTRL as it reads (R34). -/
def State.ctrlWord (s : State) : Word :=
  flagAt 0 s.irqEn ||| (s.decMode.toField.setWidth 32 <<< 1) ||| flagAt 3 s.hdrBe

/-- STATUS as it reads while BUSY = 0 (R36). -/
def State.statusWord (s : State) : Word :=
  flagAt 0 s.busy ||| flagAt 1 s.done ||| flagAt 2 s.overrun
    ||| (s.statusCode.toField.setWidth 32 <<< 4) ||| (s.statusCause.toField.setWidth 32 <<< 8)
    ||| flagAt 16 s.treeValid ||| flagAt 17 s.codeValid
    ||| flagAt 18 s.inUsable ||| flagAt 19 s.outUsable ||| flagAt 20 s.irq

/-- The bits of STATUS that read as unspecified while BUSY = 1: CODE, CAUSE, TREE_VALID and CODE_VALID (R65). -/
def statusFreeMask : Word := 0x0003FFF0#32

/-- HIST_INFO: DISTINCT in [8:0] and TOTAL_OVF in [16] (R43). -/
def histInfoWord (f : FreqTable) : Word := BitVec.ofNat 32 (distinctCount f) ||| flagAt 16 (totalOvf f)

/-- TREE_INFO: NODES in [9:0] and ROOT in [24:16] (R44). -/
def treeInfoWord (arena : List Node) : Word :=
  BitVec.ofNat 32 arena.length ||| (BitVec.ofNat 32 (rootIdx arena) <<< 16)

end Sys2Proof.Machine
end

