-- ==== Sys2Proof/Machine/Bitpack.lean ====
section
/-! DEFINITION. The bitstream packer and unpacker (spec/43_bitpack.md): PACK and UNPACK, with the bodies that COMPRESS and
DECOMPRESS run too. The packer's accumulator and the decoder's cursor live inside one command (spec/10_state.md R63). -/

namespace Sys2Proof.Machine

/-! ## The packer -/

/-- The packer's accumulator and fill count (R186). -/
structure Packer where
  acc : Byte
  fill : Nat
  deriving DecidableEq, Repr

/-- The packer at the start of PACK and after every flush (R186). -/
def Packer.empty : Packer := ⟨0#8, 0⟩

/-- The accumulator with one more bit shifted in (R186). -/
def shiftIn (acc : Byte) (c : Bool) : Byte := (acc <<< 1) ||| (BitVec.ofBool c).setWidth 8

/-- PushBit (R186): eight bits make an output byte. -/
def pushBit (p : Packer) (s : State) (c : Bool) : Packer × State :=
  if p.fill + 1 = 8 then (.empty, s.outWrite (shiftIn p.acc c)) else (⟨shiftIn p.acc c, p.fill + 1⟩, s)

/-- PushBit of each bit of a code, first bit first (R187). -/
def pushBits : Packer → State → Bits → Packer × State
  | p, s, [] => (p, s)
  | p, s, c :: rest => pushBits (pushBit p s c).1 (pushBit p s c).2 rest

/-- FlushPartial (R186): the unused low bits of the last byte are 0 (R188). -/
def flushPartial (p : Packer) (s : State) : State :=
  if 0 < p.fill then s.outWrite (p.acc <<< (8 - p.fill)) else s

/-- The encoding loop over the bytes still to read (R187): a byte without a code ends it, with IN_PTR at that byte, the
whole bytes written kept and the accumulator dropped. -/
def packBytes : List Byte → Packer → State → Body
  | [], p, s => .ok (flushPartial p s)
  | b :: rest, p, s =>
    if codeAt s.codes b = [] then .error (.noCode, s)
    else packBytes rest (pushBits p s.consume (codeAt s.codes b)).1 (pushBits p s.consume (codeAt s.codes b)).2

/-- The body of PACK after its checks (R187). -/
def packRemaining (s : State) : Body := packBytes s.remaining .empty s

/-- PACK (R187): handle checks, then the sequencing check, then the data (R267). -/
def execPack (s : State) : Host.Outcome State Fault Refusal :=
  complete (
    if !s.inUsable then .error (.inUnusable, s)
    else if !s.outUsable then .error (.outUnusable, s)
    else if !s.codeValid then .error (.noCodeTable, s)
    else packRemaining s)

/-! ## The unpacker -/

/-- The decoder's cursor, an arena index, and the number of symbols still to decode (R191, R192). -/
structure Cursor where
  cur : Nat
  rem : Nat
  deriving DecidableEq, Repr

/-- How the decoder leaves one payload byte: it goes on, or the command ends. -/
inductive Walk where
  | more (c : Cursor) (s : State)
  | ended (b : Body)

/-- Write the symbol of node `i` (R191, R192). -/
def State.emitSymbol (s : State) (i : Nat) : State := s.outWrite (nodeAt s.arena i).sym

/-- One bit of UnpackExact (R191): with one symbol every bit is that symbol, else the cursor moves and a leaf reached is
emitted at once. -/
def exactBit (one : Bool) (bit : Bool) (c : Cursor) (s : State) : Cursor × State :=
  if one then (⟨c.cur, c.rem - 1⟩, s.emitSymbol (rootIdx s.arena))
  else if (nodeAt s.arena (childOf s.arena c.cur bit)).isLeaf then
    (⟨rootIdx s.arena, c.rem - 1⟩, s.emitSymbol (childOf s.arena c.cur bit))
  else (⟨childOf s.arena c.cur bit, c.rem⟩, s)

/-- The bits of one payload byte under UnpackExact (R191); `last` says that no payload byte follows. -/
def exactByte (one last : Bool) : Bits → Cursor → State → Walk
  | [], c, s => .more c s
  | bit :: bits, c, s =>
    if (exactBit one bit c s).1.rem = 0 then
      .ended (if last then .ok (exactBit one bit c s).2 else .error (.trailing, (exactBit one bit c s).2))
    else exactByte one last bits (exactBit one bit c s).1 (exactBit one bit c s).2

/-- The payload bytes under UnpackExact (R191): the payload ends before the last symbol in TRUNCATED. -/
def exactBytes (one : Bool) : List Byte → Cursor → State → Body
  | [], _, s => .error (.truncated, s)
  | b :: rest, c, s =>
    match exactByte one rest.isEmpty (bitsOfByte b) c s.consume with
    | .more c' s' => exactBytes one rest c' s'
    | .ended body => body

/-- UnpackExact (R191). DEDUCED (log 7, unsafe): the rule, not vector V-DEC-7's OUT, is followed. -/
def unpackExact (total distinct : Nat) (s : State) : Body :=
  if distinct = 0 then
    if s.remaining.isEmpty then .ok s else .error (.trailing, s)
  else if s.remaining.isEmpty then .error (.truncated, s)
  else exactBytes (distinct == 1) s.remaining ⟨rootIdx s.arena, total⟩ s

/-- The end condition of the legacy decoders: within the last byte, or at its very last bit (R192). -/
inductive Tail where
  | byte
  | bit
  deriving DecidableEq, Repr

/-- Whether `total` reached at this bit position ends in success (R192); `lastBit` says that p = 0. -/
def Tail.accepts (tail : Tail) (last lastBit : Bool) : Bool :=
  match tail with
  | .byte => last
  | .bit => last && lastBit

/-- The bits of one payload byte under UnpackLegacy (R192): the leaf test comes before the bit is used; after a leaf the
same bit is used from the root when there are several symbols, and is consumed when there is one (DEDUCED, log 11:
with several symbols the root is no leaf, so the repeated pass uses the bit). -/
def legacyByte (one last : Bool) (tail : Tail) : Bits → Cursor → State → Walk
  | [], c, s => .more c s
  | bit :: bits, c, s =>
    if (nodeAt s.arena c.cur).isLeaf then
      if c.rem - 1 = 0 then
        .ended (if tail.accepts last bits.isEmpty then .ok (s.emitSymbol c.cur)
                else .error (.trailing, s.emitSymbol c.cur))
      else if one then
        legacyByte one last tail bits ⟨rootIdx s.arena, c.rem - 1⟩ (s.emitSymbol c.cur)
      else
        legacyByte one last tail bits ⟨childOf s.arena (rootIdx s.arena) bit, c.rem - 1⟩ (s.emitSymbol c.cur)
    else legacyByte one last tail bits ⟨childOf s.arena c.cur bit, c.rem⟩ s

/-- The payload bytes under UnpackLegacy (R192). -/
def legacyBytes (one : Bool) (tail : Tail) : List Byte → Cursor → State → Body
  | [], _, s => .error (.truncated, s)
  | b :: rest, c, s =>
    match legacyByte one rest.isEmpty tail (bitsOfByte b) c s.consume with
    | .more c' s' => legacyBytes one tail rest c' s'
    | .ended body => body

/-- UnpackLegacy (R192). -/
def unpackLegacy (tail : Tail) (total distinct : Nat) (s : State) : Body :=
  if s.remaining.isEmpty then .ok s
  else if distinct = 0 then .error (.trailing, s)
  else legacyBytes (distinct == 1) tail s.remaining ⟨rootIdx s.arena, total⟩ s

/-- The body of UNPACK after its checks: the decoder that L.DEC_MODE selects, on the remaining input (R190). -/
def unpackRemaining (s : State) : Body :=
  match s.lDecMode with
  | .exact => unpackExact (totalCount s.freq) (distinctCount s.freq) s
  | .legacyByte => unpackLegacy .byte (totalCount s.freq) (distinctCount s.freq) s
  | .legacyBit => unpackLegacy .bit (totalCount s.freq) (distinctCount s.freq) s

/-- UNPACK (R190): handle checks, then the sequencing check, then the decoder (R267). -/
def execUnpack (s : State) : Host.Outcome State Fault Refusal :=
  complete (
    if !s.inUsable then .error (.inUnusable, s)
    else if !s.outUsable then .error (.outUnusable, s)
    else if !s.treeValid then .error (.noTree, s)
    else unpackRemaining s)

end Sys2Proof.Machine
end

