-- ==== Sys2Proof/Machine/CodeGen.lean ====
section
/-! DEFINITION. The code table generator (spec/42_codegen.md): CODE_GEN, and the body that COMPRESS runs too. -/

namespace Sys2Proof.Machine

/-- The depth-first traversal (R171 `visit`): the left child appends bit 1, the right child bit 0 (R172), and a leaf
records the buffer as its symbol's code. The number bounds the depth; a path visits each arena index at most once
(DEDUCED, log 11). -/
def visit (arena : List Node) : Nat → Nat → Bits → CodeTable → CodeTable
  | 0, _, _, codes => codes
  | fuel + 1, i, buf, codes =>
    match nodeAt arena i with
    | .leaf sym _ _ => codeSet codes sym buf
    | .internal _ _ l r =>
      visit arena fuel r.toNat (buf ++ [false]) (visit arena fuel l.toNat (buf ++ [true]) codes)

/-- The code table of an arena: no codes when it is empty, the one-bit code `0` when it is one leaf, else the paths from
the root (R171, R173). -/
def codesOf (arena : List Node) : CodeTable :=
  if arena.length = 0 then codesEmpty
  else if arena.length = 1 then codeSet codesEmpty (nodeAt arena 0).sym [false]
  else visit arena arena.length (rootIdx arena) [] codesEmpty

/-- The body of CODE_GEN (R171): without a valid tree nothing changes. -/
def genCodes (s : State) : Body :=
  if s.treeValid then .ok { s with codes := codesOf s.arena, codeValid := true }
  else .error (.noTree, s)

/-- CODE_GEN (R171). -/
def execCodeGen (s : State) : Host.Outcome State Fault Refusal := complete (genCodes s)

end Sys2Proof.Machine
end

