-- ==== Sys2Proof/Machine/Histogram.lean ====
section
/-! DEFINITION. The frequency histogram and the header (spec/40_histogram.md): HIST_CLEAR, HIST_ACCUM, HDR_EMIT and
HDR_LOAD, with the bodies that COMPRESS and DECOMPRESS run too. -/

namespace Sys2Proof.Machine

/-- All counts 0, both stage-valid bits cleared: the body of HIST_CLEAR (R134). -/
def clearHistogram (s : State) : State := { s with freq := freqZero }.invalidateStages

/-- The counting loop over the bytes still to read (R135): InRead, then count. -/
def accumBytes : List Byte → State → State
  | [], s => s
  | b :: rest, s => accumBytes rest { s.consume with freq := countByte s.freq b }

/-- The body of HIST_ACCUM after its handle check: count every remaining byte, clear the stage-valid bits (R135). -/
def accumHistogram (s : State) : State := (accumBytes s.remaining s).invalidateStages

/-- The body of HDR_EMIT after its handle check: 2048 OutWrites (R136). -/
def emitHeader (s : State) : State := s.outWriteAll (headerOf s.lHdrBe s.freq)

/-- The body of HDR_LOAD after its handle check (R137): a short remainder is consumed and reported. -/
def loadHeader (s : State) : Body :=
  if s.input.length - s.inPtr.toNat < Config.headerBytes then
    .error (.hdrShort, { s with inPtr := s.inLen })
  else
    .ok { s with freq := freqOfHeader s.lHdrBe s.remaining
                 inPtr := s.inPtr + BitVec.ofNat 64 Config.headerBytes }.invalidateStages

/-- HIST_CLEAR (R134). -/
def execHistClear (s : State) : Host.Outcome State Fault Refusal := complete (.ok (clearHistogram s))

/-- HIST_ACCUM (R135). -/
def execHistAccum (s : State) : Host.Outcome State Fault Refusal :=
  complete (if s.inUsable then .ok (accumHistogram s) else .error (.inUnusable, s))

/-- HDR_EMIT (R136). -/
def execHdrEmit (s : State) : Host.Outcome State Fault Refusal :=
  complete (if s.outUsable then .ok (emitHeader s) else .error (.outUnusable, s))

/-- HDR_LOAD (R137). -/
def execHdrLoad (s : State) : Host.Outcome State Fault Refusal :=
  complete (if s.inUsable then loadHeader s else .error (.inUnusable, s))

end Sys2Proof.Machine
end

