-- ==== Sys2Proof/Machine/Tree.lean ====
section
/-! DEFINITION. The tree builder with its tie-break arbiter (spec/41_tree.md): TREE_BUILD, and the body that COMPRESS and
DECOMPRESS run too. -/

namespace Sys2Proof.Machine

/-- The arbiter's order on nodes: (weight, sequence id), lexicographic, ascending (R152). -/
def keyLt (a b : Node) : Bool :=
  decide (a.weight < b.weight) || (a.weight == b.weight && decide (a.seq < b.seq))

/-- Append the leaf of symbol `s` if its count is nonzero; its sequence id is its arena index (R151). -/
def addLeaf (f : FreqTable) (arena : List Node) (s : Nat) : List Node :=
  let c := freqAt f (BitVec.ofNat 8 s)
  if c = 0#64 then arena
  else arena ++ [.leaf (BitVec.ofNat 8 s) c (BitVec.ofNat 9 arena.length)]

/-- The leaves, in ascending symbol order (R151). -/
def leavesOf (f : FreqTable) : List Node := (List.range Config.alphabet).foldl (addLeaf f) []

/-- The arbiter: the index with the least key among `i` and those of `q` (R152). -/
def arbiterMin (arena : List Node) : Nat → List Nat → Nat
  | i, [] => i
  | i, j :: q => arbiterMin arena (if keyLt (nodeAt arena j) (nodeAt arena i) then j else i) q

/-- The least index of a set and the set without it; none for the empty set (R153 "removed first", "removed second"). -/
def arbiterTake (arena : List Node) : List Nat → Option (Nat × List Nat)
  | [] => none
  | i :: q => some (arbiterMin arena i q, (i :: q).erase (arbiterMin arena i q))

/-- The internal node that joins `a`, removed first and so the left child, and `b` (R153, R154). -/
def joinNode (arena : List Node) (a b : Nat) : Node :=
  .internal ((nodeAt arena a).weight + (nodeAt arena b).weight) (BitVec.ofNat 9 arena.length)
    (BitVec.ofNat 9 a) (BitVec.ofNat 9 b)

/-- The merge loop (R153): while the set holds two indices, join the two least and put the new node in. The number is a
bound on the merges; each one makes the set smaller by one (DEDUCED, log 11). -/
def mergeLoop : Nat → List Node → List Nat → List Node
  | 0, arena, _ => arena
  | fuel + 1, arena, q =>
    match arbiterTake arena q with
    | none => arena
    | some (a, q1) =>
      match arbiterTake arena q1 with
      | none => arena
      | some (b, q2) => mergeLoop fuel (arena ++ [joinNode arena a b]) (q2 ++ [arena.length])

/-- The arena that TREE_BUILD makes from a frequency table: a function of FREQ alone (R153, R158). -/
def buildArena (f : FreqTable) : List Node :=
  mergeLoop (leavesOf f).length (leavesOf f) (List.range (leavesOf f).length)

/-- The body of TREE_BUILD (R153). -/
def buildTree (s : State) : Body :=
  if totalOvf s.freq then
    .error (.weightOverflow, { s with arena := [], treeValid := false, codeValid := false })
  else
    .ok { s with arena := buildArena s.freq, treeValid := true, codeValid := false }

/-- TREE_BUILD (R153). -/
def execTreeBuild (s : State) : Host.Outcome State Fault Refusal := complete (buildTree s)

end Sys2Proof.Machine
end

