-- ==== Sys2Proof/Machine/Codec.lean ====
section
/-! DEFINITION. The two composite commands COMPRESS and DECOMPRESS (spec/44_codec.md): the bodies of the primitive
commands in the document's order (DEDUCED, log 12, safe: with their checks). -/

namespace Sys2Proof.Machine

/-- The last part of COMPRESS (R216): an empty alphabet ends it, else rewind and pack. -/
def packFromStart (s : State) : Body :=
  if s.arena.length = 0 then .ok s else packRemaining s.rewind

/-- The body of COMPRESS after its handle checks (R216): count from offset 0, write the header, build the tree and the
codes, pack. -/
def compressBody (s : State) : Body :=
  ((buildTree (emitHeader (accumHistogram (clearHistogram s.rewind)))).bind genCodes).bind packFromStart

/-- COMPRESS (R216). -/
def execCompress (s : State) : Host.Outcome State Fault Refusal :=
  complete (
    if !s.inUsable then .error (.inUnusable, s)
    else if !s.outUsable then .error (.outUnusable, s)
    else compressBody s)

/-- The body of DECOMPRESS after its handle checks (R218): load the header from offset 0, build the tree, decode. -/
def decompressBody (s : State) : Body := ((loadHeader s.rewind).bind buildTree).bind unpackRemaining

/-- DECOMPRESS (R218). -/
def execDecompress (s : State) : Host.Outcome State Fault Refusal :=
  complete (
    if !s.inUsable then .error (.inUnusable, s)
    else if !s.outUsable then .error (.outUnusable, s)
    else decompressBody s)

end Sys2Proof.Machine
end

