-- ==== Sys2Proof/Machine/Control.lean ====
section
/-! DEFINITION. The control commands NOP, SOFT_RESET and IN_REWIND (spec/45_control.md), and hardware reset
(spec/70_reset_and_hazards.md R291, R293). -/

namespace Sys2Proof.Machine

/-- NOP (R236). -/
def execNop (s : State) : Host.Outcome State Fault Refusal := complete (.ok s)

/-- The body of SOFT_RESET (R237): the block's data state; CTRL, the index registers and the host's bindings stay. -/
def softResetBody (s : State) : State :=
  { s with freq := freqZero, codes := codesEmpty, arena := [], treeValid := false, codeValid := false
           overrun := false, inPtr := 0#64, outCnt := 0#64 }

/-- SOFT_RESET (R237). -/
def execSoftReset (s : State) : Host.Outcome State Fault Refusal := complete (.ok (softResetBody s))

/-- IN_REWIND (R238). -/
def execInRewind (s : State) : Host.Outcome State Fault Refusal :=
  complete (if s.inUsable then .ok s.rewind else .error (.inUnusable, s))

/-- Hardware reset (R291): every element of block state takes its value of R66, a pending command is abandoned, and the
host's streams, signals and program stay. -/
def State.hardReset (s : State) : State :=
  { State.reset with input := s.input, output := s.output, inUsable := s.inUsable, outUsable := s.outUsable
                     host := s.host, turns := s.turns, rounds := s.rounds, draws := s.draws }

end Sys2Proof.Machine
end

