-- ==== Sys2Proof/Machine/Dispatch.lean ====
section
/-! DEFINITION. One arm per command (spec/30_encoding.md R113): its meaning, by name. -/

namespace Sys2Proof.Machine

-- The core runs a command's pseudocode from its first line to its completion, in one atomic step (R249).
def exec (i : Instr) (s : State) : Host.Outcome State Fault Refusal :=
  match i with
  | .nop => Sys2Proof.Machine.execNop s
  | .softReset => Sys2Proof.Machine.execSoftReset s
  | .inRewind => Sys2Proof.Machine.execInRewind s
  | .histClear => Sys2Proof.Machine.execHistClear s
  | .histAccum => Sys2Proof.Machine.execHistAccum s
  | .hdrEmit => Sys2Proof.Machine.execHdrEmit s
  | .hdrLoad => Sys2Proof.Machine.execHdrLoad s
  | .treeBuild => Sys2Proof.Machine.execTreeBuild s
  | .codeGen => Sys2Proof.Machine.execCodeGen s
  | .pack => Sys2Proof.Machine.execPack s
  | .unpack => Sys2Proof.Machine.execUnpack s
  | .compress => Sys2Proof.Machine.execCompress s
  | .decompress => Sys2Proof.Machine.execDecompress s

end Sys2Proof.Machine
end

