-- ==== Sys2Proof/Decode.lean ====
section
/-! DEFINITION. Decoding and encoding of the command word `CMDW` (spec/30_encoding.md R111 to R117): decoding is total on
32-bit words, and every word that is no command is rejected by the name of its illegal outcome. -/

namespace Sys2Proof

/-- The two illegal outcomes of decoding (R116). -/
inductive Illegal where
  /-- RSV ≠ 0, checked first (R114). -/
  | reservedBits
  /-- RSV = 0 and an OPC outside the opcode map (R115). -/
  | badOpcode
  deriving DecidableEq, Repr

/-- The opcode field OPC = [7:0] of a command word (R111). -/
def opcodeField (w : Word) : Byte := w.extractLsb' 0 8

/-- The opcode map, read from opcode to command (R113). An unlisted opcode is reserved (R115). -/
def commandOf (opc : Byte) : Option Instr :=
  match opc.toNat with
  | 0x00 => some .nop
  | 0x01 => some .softReset
  | 0x02 => some .inRewind
  | 0x10 => some .histClear
  | 0x11 => some .histAccum
  | 0x12 => some .hdrEmit
  | 0x13 => some .hdrLoad
  | 0x20 => some .treeBuild
  | 0x30 => some .codeGen
  | 0x40 => some .pack
  | 0x41 => some .unpack
  | 0x80 => some .compress
  | 0x81 => some .decompress
  | _ => none

/-- The total decoder (R116): the reserved-bits check comes before the opcode check (R114). -/
def decode (w : Word) : Except Illegal Instr :=
  if reservedClear w then
    match commandOf (opcodeField w) with
    | some i => .ok i
    | none => .error .badOpcode
  else .error .reservedBits

/-- The opcode of each command (R113). -/
def Instr.opcode : Instr → Byte
  | .nop => 0x00#8
  | .softReset => 0x01#8
  | .inRewind => 0x02#8
  | .histClear => 0x10#8
  | .histAccum => 0x11#8
  | .hdrEmit => 0x12#8
  | .hdrLoad => 0x13#8
  | .treeBuild => 0x20#8
  | .codeGen => 0x30#8
  | .pack => 0x40#8
  | .unpack => 0x41#8
  | .compress => 0x80#8
  | .decompress => 0x81#8

/-- The command word of a command: `zext_32` of its opcode, RSV = 0 (R111, R113, R119). -/
def encode (i : Instr) : Word := i.opcode.setWidth 32

/-- The instruction the decoder reads from a table word of `nbits` bits (bit 0 least significant); every bit above
`nbits` is 0. A command has one length, 32 bits (R111). -/
def decodeTableWord (nbits w : Nat) : Option Instr :=
  match decode (BitVec.ofNat 32 (w % 2 ^ nbits)) with
  | .ok i => some i
  | .error _ => none

end Sys2Proof
end

