-- ==== Sys2Proof/Machine/HostAccess.lean ====
section
/-! DEFINITION. The host's steps: CSR reads and writes (spec/45_control.md R241 to R245, the register map
spec/10_state.md R32 to R57), stream actions (R246 to R248), the host program's own control flow and its pseudo forms
(spec/30_encoding.md R118 to R120). -/

namespace Sys2Proof.Machine

/-! ## The register map -/

/-- The registers of the CSR window, in offset order (R32). -/
inductive Csr where
  | id | ctrl | cmd | status
  | infoLo | infoHi | inPtrLo | inPtrHi
  | inLenLo | inLenHi | outCntLo | outCntHi
  | totalLo | totalHi | histInfo | treeInfo
  | freqIdx | freqLo | freqHi
  | nodeIdx | nodeKind | nodeSeq | nodeLeft
  | nodeRight | nodeWLo | nodeWHi
  | codeIdx | codeLen | codeWsel | codeBits
  deriving DecidableEq, Repr

/-- The register at a byte offset; none for the unmapped offsets 0x4C, 0x6C and 0x80..0xFC (R32, R57). -/
def csrAt (off : Nat) : Option Csr :=
  match off with
  | 0x00 => some .id
  | 0x04 => some .ctrl
  | 0x08 => some .cmd
  | 0x0C => some .status
  | 0x10 => some .infoLo
  | 0x14 => some .infoHi
  | 0x18 => some .inPtrLo
  | 0x1C => some .inPtrHi
  | 0x20 => some .inLenLo
  | 0x24 => some .inLenHi
  | 0x28 => some .outCntLo
  | 0x2C => some .outCntHi
  | 0x30 => some .totalLo
  | 0x34 => some .totalHi
  | 0x38 => some .histInfo
  | 0x3C => some .treeInfo
  | 0x40 => some .freqIdx
  | 0x44 => some .freqLo
  | 0x48 => some .freqHi
  | 0x50 => some .nodeIdx
  | 0x54 => some .nodeKind
  | 0x58 => some .nodeSeq
  | 0x5C => some .nodeLeft
  | 0x60 => some .nodeRight
  | 0x64 => some .nodeWLo
  | 0x68 => some .nodeWHi
  | 0x70 => some .codeIdx
  | 0x74 => some .codeLen
  | 0x78 => some .codeWsel
  | 0x7C => some .codeBits
  | _ => none

/-- Bits [31:0] of a 64-bit quantity (R84). -/
def loHalf (v : Count) : Word := v.extractLsb' 0 32

/-- Bits [63:32] of a 64-bit quantity (R84). -/
def hiHalf (v : Count) : Word := v.extractLsb' 32 32

/-- TOTAL: the sum of the counts modulo 2^64 (R42). -/
def totalWord (f : FreqTable) : Count := BitVec.ofNat 64 (totalCount f)

/-- The node that NODE_IDX selects, when `NODE_IDX < NODES` (R47). -/
def State.selectedNode (s : State) : Option Node := s.arena[s.nodeIdx.toNat]?

/-- NODE_KIND: INTERNAL in [0], SYM in [15:8], PRESENT in [31] (R48). -/
def nodeKindWord : Option Node → Word
  | none => 0#32
  | some n => flagAt 0 n.isInternal ||| (n.sym.setWidth 32 <<< 8) ||| flagAt 31 true

/-- A field of the selected node, 0 when there is none (R47). -/
def nodeField (n : Option Node) (g : Node → Word) : Word :=
  match n with
  | none => 0#32
  | some n => g n

/-- CODE_BITS: for j in 0..31, bit 31 - j is `c[32w + j]`, and 0 beyond the code's end (R56). -/
def codeBitsWord (c : Bits) (w : Nat) : Word :=
  (List.range 32).foldl (fun v j => v ||| flagAt (31 - j) (c.getD (32 * w + j) false)) 0#32

/-- What a register reads while BUSY = 0 (R33 to R56). -/
def State.csrValue (s : State) : Csr → Word
  | .id => Config.identification
  | .ctrl => s.ctrlWord
  | .cmd => 0#32
  | .status => s.statusWord
  | .infoLo => loHalf s.info
  | .infoHi => hiHalf s.info
  | .inPtrLo => loHalf s.inPtr
  | .inPtrHi => hiHalf s.inPtr
  | .inLenLo => loHalf s.inLen
  | .inLenHi => hiHalf s.inLen
  | .outCntLo => loHalf s.outCnt
  | .outCntHi => hiHalf s.outCnt
  | .totalLo => loHalf (totalWord s.freq)
  | .totalHi => hiHalf (totalWord s.freq)
  | .histInfo => histInfoWord s.freq
  | .treeInfo => treeInfoWord s.arena
  | .freqIdx => s.freqIdx.setWidth 32
  | .freqLo => loHalf (freqAt s.freq s.freqIdx)
  | .freqHi => hiHalf (freqAt s.freq s.freqIdx)
  | .nodeIdx => s.nodeIdx.setWidth 32
  | .nodeKind => nodeKindWord s.selectedNode
  | .nodeSeq => nodeField s.selectedNode fun n => n.seq.setWidth 32
  | .nodeLeft => nodeField s.selectedNode fun n => n.left.setWidth 32
  | .nodeRight => nodeField s.selectedNode fun n => n.right.setWidth 32
  | .nodeWLo => nodeField s.selectedNode fun n => loHalf n.weight
  | .nodeWHi => nodeField s.selectedNode fun n => hiHalf n.weight
  | .codeIdx => s.codeIdx.setWidth 32
  | .codeLen => BitVec.ofNat 32 (codeAt s.codes s.codeIdx).length
  | .codeWsel => s.codeWsel.setWidth 32
  | .codeBits => codeBitsWord (codeAt s.codes s.codeIdx) s.codeWsel.toNat

/-- The bits of a register that read as unspecified while BUSY = 1 (R65). -/
def Csr.freeMask : Csr → Word
  | .infoLo | .infoHi | .inPtrLo | .inPtrHi | .outCntLo | .outCntHi => 0xFFFFFFFF#32
  | .totalLo | .totalHi | .histInfo | .treeInfo => 0xFFFFFFFF#32
  | .freqLo | .freqHi => 0xFFFFFFFF#32
  | .nodeKind | .nodeSeq | .nodeLeft | .nodeRight | .nodeWLo | .nodeWHi => 0xFFFFFFFF#32
  | .codeLen | .codeBits => 0xFFFFFFFF#32
  | .status => statusFreeMask
  | .id | .ctrl | .cmd | .inLenLo | .inLenHi => 0#32
  | .freqIdx | .nodeIdx | .codeIdx | .codeWsel => 0#32

/-- A value whose bits under a mask are those of a free draw. -/
def mixFree (mask v free : Word) : Word := (v &&& ~~~mask) ||| (free &&& mask)

/-- A CSR read of a register (R241): its value, and while BUSY = 1 a free draw under its mask. The draw counter is the
model's own; no other state changes (R57). -/
def State.csrRead (s : State) (r : Csr) : Word × State :=
  if s.busy && r.freeMask != 0#32 then
    (mixFree r.freeMask (s.csrValue r) (Config.freeWord s.draws), { s with draws := s.draws + 1 })
  else (s.csrValue r, s)

/-- A 32-bit read at an aligned offset of the window: an unmapped offset reads 0 (R57, R241). -/
def State.readOffset (s : State) (off : Nat) : Word × State :=
  match csrAt off with
  | some r => s.csrRead r
  | none => (0#32, s)

/-- A CSR write of a register (R242): CTRL (R245), CMD (R239, R240), STATUS (R243), the four index registers (R244); a
write to any other register is ignored. -/
def State.csrWrite (s : State) (r : Csr) (v : Word) : State :=
  match r with
  | .ctrl => { s with irqEn := v.getLsbD 0, decMode := DecMode.ofField (v.extractLsb' 1 2), hdrBe := v.getLsbD 3 }
  | .cmd => s.issue v
  | .status => { s with done := s.done && !v.getLsbD 1, overrun := s.overrun && !v.getLsbD 2 }
  | .freqIdx => { s with freqIdx := v.extractLsb' 0 8 }
  | .nodeIdx => { s with nodeIdx := v.extractLsb' 0 9 }
  | .codeIdx => { s with codeIdx := v.extractLsb' 0 8 }
  | .codeWsel => { s with codeWsel := v.extractLsb' 0 3 }
  | .id | .infoLo | .infoHi | .inPtrLo | .inPtrHi | .inLenLo | .inLenHi | .outCntLo | .outCntHi => s
  | .totalLo | .totalHi | .histInfo | .treeInfo | .freqLo | .freqHi => s
  | .nodeKind | .nodeSeq | .nodeLeft | .nodeRight | .nodeWLo | .nodeWHi | .codeLen | .codeBits => s

/-- A 32-bit write at an aligned offset of the window: an unmapped offset is ignored (R57, R242). -/
def State.writeOffset (s : State) (off : Nat) (v : Word) : State :=
  match csrAt off with
  | some r => s.csrWrite r v
  | none => s

/-! ## The host's steps -/

/-- The refusal of a CSR access that has no meaning (R88, R241, R242), or none. -/
def csrRefusal (off width : Nat) : Option Refusal :=
  if !csrWidthOk width then some .csrWidth
  else if !csrAligned off then some .csrMisaligned
  else if !csrInWindow off then some .csrOutsideWindow
  else none

/-- The host goes on to its next step (R95 "host program order"). -/
def State.hostNext (s : State) : State := { s with host := { s.host with pc := s.host.pc + 1 } }

/-- The host goes on at a label (R118). -/
def State.hostJump (s : State) (target : Nat) : State := { s with host := { s.host with pc := target } }

/-- The host keeps a word in a temporary (R118). -/
def State.setTemp (s : State) (t : Nat) (v : Word) : State :=
  { s with host := { s.host with temps := tempSet s.host.temps t v } }

/-- The test of `beq` and `bne`: (t AND m) = v (R118). -/
def State.tempTest (s : State) (t : Nat) (m v : Word) : Bool := (tempGet s.host.temps t &&& m) == v

/-- Bind an input (R246): IN is replaced and IN_PTR is 0. -/
def State.bindInput (s : State) (bytes : List Byte) : State := { s with input := bytes, inPtr := 0#64 }

/-- Bind a fresh, empty output sink (R246): OUT_CNT is 0. -/
def State.bindOutput (s : State) : State := { s with output := [], outCnt := 0#64 }

/-- Read OUT (R248): its bytes while BUSY = 0, a free draw while BUSY = 1. -/
def State.readOutput (s : State) : State :=
  if s.busy then
    { s with host := { s.host with outView := Config.freeBytes s.draws }, draws := s.draws + 1 }
  else { s with host := { s.host with outView := s.output } }

/-- `wr REG, v` (R242). -/
def hostWrite (off width : Nat) (v : Word) (s : State) : Host.Outcome State Fault Refusal :=
  match csrRefusal off width with
  | some r => .refused r
  | none => .next (s.writeOffset off v).hostNext

/-- `rd REG -> t` (R241). -/
def hostRead (off width t : Nat) (s : State) : Host.Outcome State Fault Refusal :=
  match csrRefusal off width with
  | some r => .refused r
  | none => .next ((s.readOffset off).2.setTemp t (s.readOffset off).1).hostNext

/-- `bind_in` (R246): only while BUSY = 0, and only a buffer that fits. -/
def hostBindIn (bytes : List Byte) (s : State) : Host.Outcome State Fault Refusal :=
  if s.busy then .refused .streamMoveWhileBusy
  else if inputFits bytes then .next (s.bindInput bytes).hostNext
  else .refused .inputTooLong

/-- `bind_out` (R246): only while BUSY = 0. -/
def hostBindOut (s : State) : Host.Outcome State Fault Refusal :=
  if s.busy then .refused .streamMoveWhileBusy else .next s.bindOutput.hostNext

/-- `usable in=x, out=y` (R247): only while BUSY = 0. -/
def hostUsable (x y : Bool) (s : State) : Host.Outcome State Fault Refusal :=
  if s.busy then .refused .streamMoveWhileBusy
  else .next { s with inUsable := x, outUsable := y }.hostNext

/-- The host's branch (R118): to the label when it is taken, else on. -/
def hostBranch (taken : Bool) (target : Nat) (s : State) : Host.Outcome State Fault Refusal :=
  .next (if taken then s.hostJump target else s.hostNext)

/-- One step of the host (R95, R118). `halt` is no step: the machine never runs it (R304). -/
def execHost (h : HostStep) (s : State) : Host.Outcome State Fault Refusal :=
  match h with
  | .wr off width v => hostWrite off width v s
  | .rd off width t => hostRead off width t s
  | .bindIn bytes => hostBindIn bytes s
  | .bindOut => hostBindOut s
  | .usable x y => hostUsable x y s
  | .readOut => .next s.readOutput.hostNext
  | .beq t m v target => hostBranch (s.tempTest t m v) target s
  | .bne t m v target => hostBranch (!s.tempTest t m v) target s
  | .halt => .fault .runEnded
  | .hardReset => .next s.hardReset.hostNext

/-! ## Pseudo forms and encoding of host programs -/

/-- `issue OP` (R119). -/
def pseudoIssue (i : Instr) : List HostStep := [.wr 0x08 4 (encode i)]

/-- `wait`, its first step at index `at_` of the program: poll STATUS until BUSY = 0 (R119). -/
def pseudoWait (at_ t : Nat) : List HostStep := [.rd 0x0C 4 t, .bne t 0x1#32 0x0#32 at_]

/-- `run OP` (R119), its first step at index `at_`. -/
def pseudoRun (at_ t : Nat) (i : Instr) : List HostStep := pseudoIssue i ++ pseudoWait (at_ + 1) t

/-- `ack`: clear DONE and OVERRUN (R119). -/
def pseudoAck : List HostStep := [.wr 0x0C 4 0x6#32]

/-- `rd64 REG -> t`: the low and the high register of a pair into two temporaries (R119). -/
def pseudoRd64 (off tLo tHi : Nat) : List HostStep := [.rd off 4 tLo, .rd (off + 4) 4 tHi]

/-- A record of a host program's encoding (R120): a CSR access or a host action. -/
inductive ProgramRecord where
  /-- `W offset data`: a CSR write (R118). -/
  | w (off : Nat) (data : Word)
  /-- `R offset`: a CSR read (R118). -/
  | r (off : Nat)
  /-- The host action `bind_in` (R118). -/
  | bindIn (bytes : List Byte)
  /-- The host action `bind_out` (R118). -/
  | bindOut
  /-- The host action `usable in=x, out=y` (R118). -/
  | usable (inUsable outUsable : Bool)
  /-- The host action of reading OUT (R95, R248; DESIGN CHOICE, log 10). -/
  | readOut
  /-- The hardware reset line pulsed by the host (R291; DESIGN CHOICE, log 5). -/
  | hardReset
  deriving DecidableEq, Repr

/-- The record of a host step: none for host control flow, which is no part of the encoding (R118, R120). -/
def HostStep.record : HostStep → Option ProgramRecord
  | .wr off _ v => some (.w off v)
  | .rd off _ _ => some (.r off)
  | .bindIn bytes => some (.bindIn bytes)
  | .bindOut => some .bindOut
  | .usable x y => some (.usable x y)
  | .readOut => some .readOut
  | .hardReset => some .hardReset
  | .beq _ _ _ _ | .bne _ _ _ _ | .halt => none

/-- A host program's encoding (R120): its CSR accesses and host actions, in program order. -/
def encodeProgram (prog : List HostStep) : List ProgramRecord := prog.filterMap HostStep.record

end Sys2Proof.Machine
end

