-- ==== Sys2Proof/Machine/Sequencer.lean ====
section
/-! DEFINITION. The core step (spec/45_control.md R249) and the choice of the agent that moves next
(spec/20_memory.md R95). -/

namespace Sys2Proof.Machine

/-- The cause of each illegal outcome of decoding (R114, R115). -/
def causeOfIllegal : Illegal → Cause
  | .reservedBits => .reservedBits
  | .badOpcode => .badOpcode

/-- The core step on the pending word (R249): decode it; an illegal word completes with ILLEGAL_COMMAND and changes
nothing else; a command runs to its completion. -/
def coreStep (w : Word) (s : State) : Host.Outcome State Fault Refusal :=
  match decode w with
  | .ok i => exec i s
  | .error e => complete (.error (causeOfIllegal e, s))

/-- The host's next step: none at `halt` and past the program's end (R304). -/
def State.hostMove (s : State) : Option HostStep :=
  match s.host.prog[s.host.pc]? with
  | none => none
  | some .halt => none
  | some h => some h

/-- A round of turns, drawn: a free number of turns of the host, then one of the core. So a pending command's core step is
put off by any finite number of host steps and is eventually taken (R302; DESIGN CHOICE, log 3, safe). -/
def drawnRound (n : Nat) : List Agent := List.replicate (Config.latency n) .host ++ [.core]

/-- The coming turns: those listed; when none is left, the next round that is drawn. -/
def State.coming (s : State) : List Agent :=
  match s.turns with
  | [] => drawnRound s.rounds
  | a :: rest => a :: rest

/-- The agent whose turn it is when both have a step: the first of the coming turns. -/
def State.turn (s : State) : Agent := s.coming.headD .core

/-- The turn just taken is over; a round begun is counted. -/
def State.nextTurn (s : State) : State :=
  { s with turns := s.coming.tail, rounds := if s.turns.isEmpty then s.rounds + 1 else s.rounds }

/-- One step of the machine (R95): the only agent with a step moves; when both have one, the one whose turn it is; when
neither has one, the run has ended (R304). -/
def stepAgents (s : State) : Host.Outcome State Fault Refusal :=
  match s.pending, s.hostMove with
  | none, none => .fault .runEnded
  | none, some h => execHost h s.nextTurn
  | some w, none => coreStep w s.nextTurn
  | some w, some h =>
    match s.turn with
    | .core => coreStep w s.nextTurn
    | .host => execHost h s.nextTurn

/-- The host step that the machine's next step runs: none when the core moves or the run has ended. -/
def State.hostMoving (s : State) : Option HostStep :=
  match s.pending, s.turn with
  | some _, .core => none
  | _, _ => s.hostMove

/-- The records of the host's accesses and actions in the next steps of the machine, in the order they are made: a
program's encoding with its control flow followed, as in the example of R120. The number is how many steps are
followed. -/
def performedRecords : Nat → State → List ProgramRecord
  | 0, _ => []
  | n + 1, s =>
    match stepAgents s with
    | .next t => (s.hostMoving.bind HostStep.record).toList ++ performedRecords n t
    | .fault _ => []
    | .refused _ => []

/-- The word is issued, as R239 gives, and the next turn is the core's. -/
def issueNow (s : State) (w : Word) : State :=
  { s.accept w with turns := .core :: s.turns }

end Sys2Proof.Machine
end

