-- ==== Sys2Proof/Machine/Step.lean ====
section
/-! DEFINITION. The step of the machine: one step of the total order of spec/20_memory.md R95. -/

namespace Sys2Proof.Machine

/-- One step: a host step or the core step of the pending command (R95, R249). -/
def step (s : State) : Host.Outcome State Fault Refusal := stepAgents s

/-- The state in which the command word `w` has just been issued (R239) and the core moves next: nothing is fetched from
memory (R99), and the accepted word PENDING is what the next core step decodes (DEDUCED, log 1, safe). -/
def State.withFetchWord (s : State) (nbits w : Nat) : State := issueNow s (BitVec.ofNat 32 (w % 2 ^ nbits))

end Sys2Proof.Machine
end

