-- ==== Sys2Proof/Safety.lean ====
section
/-! DEFINITION. What counts as a safe state and a safe run, and the vocabulary of the claims: the invariants of
spec/10_state.md R67, the completion of a command as claims write it (spec/60_exceptions.md R265, R266), and the
bit-level reading of the payload (spec/20_memory.md R86). -/

namespace Sys2Proof.Machine

/-! ## Invariants -/

/-- The invariants of R67, item by item, with the bound on IN_LEN of R40. -/
structure State.Inv (s : State) : Prop where
  /-- Item 1: NODES is 0 or 2n - 1 for n in 1..256. -/
  nodeCount : s.arena.length = 0 ∨ ∃ n, 1 ≤ n ∧ n ≤ 256 ∧ s.arena.length = 2 * n - 1
  /-- Item 2: ARENA[i].seq = i. -/
  seqIsIndex : ∀ i, i < s.arena.length → (nodeAt s.arena i).seq.toNat = i
  /-- Item 3: an internal node's children have smaller indices. -/
  childrenBelow : ∀ i, i < s.arena.length → (nodeAt s.arena i).isInternal = true →
    (nodeAt s.arena i).left.toNat < i ∧ (nodeAt s.arena i).right.toNat < i
  /-- Item 4: BUSY = 1 exactly when PENDING is not none. -/
  busyIsPending : s.busy = true ↔ s.pending ≠ none
  /-- Item 5: IN_PTR ≤ IN_LEN. -/
  ptrInRange : s.inPtr.toNat ≤ s.input.length
  /-- IN_LEN ≤ 2^64 - 1 (R40). -/
  inputFits : s.input.length ≤ 2 ^ 64 - 1
  /-- Item 6: a valid tree is the one TREE_BUILD computes from FREQ, and TOTAL_OVF = 0. -/
  treeIsBuilt : s.treeValid = true → s.arena = buildArena s.freq ∧ totalOvf s.freq = false
  /-- Item 7: a valid code table goes with a valid tree and is the one CODE_GEN computes from ARENA. -/
  codesAreGenerated : s.codeValid = true → s.treeValid = true ∧ s.codes = codesOf s.arena

/-- The form of the model's own data: the temporaries are canonical, and a pending command has DONE = 0 (R239, R243). -/
structure State.HostForm (s : State) : Prop where
  tempsCanonical : tempsWf s.host.temps = true
  pendingNotDone : s.pending ≠ none → s.done = false

/-! ## Runs -/

/-- The states a run from `s` reaches. -/
inductive Reaches (s : State) : State → Prop where
  | here : Reaches s s
  | next {t u : State} : Reaches s t → step t = .next u → Reaches s u

/-! ## Completion, as claims write it -/

/-- The state with a completion recorded: CODE, CAUSE and INFO as given, PENDING none, DONE 1 (R266). -/
def State.completed (s : State) (code : StatusCode) (cause : Cause) (info : Count) : State :=
  { s with statusCode := code, statusCause := cause, info := info, pending := none, done := true }

/-- Completion with OK / NONE and INFO = 0 (R265, R266). -/
def State.completedOk (s : State) : State := s.completed .ok .noCause 0#64

/-- Completion with INVALID_ARGUMENTS and a cause, INFO being IN_PTR (R265, R266). -/
def State.completedInvalid (s : State) (cause : Cause) : State := s.completed .invalidArguments cause s.inPtr

/-- The causes each command can raise (R264), NONE for success. -/
def causesOf : Instr → List Cause
  | .nop | .softReset | .histClear => [.noCause]
  | .inRewind | .histAccum => [.noCause, .inUnusable]
  | .hdrEmit => [.noCause, .outUnusable]
  | .hdrLoad => [.noCause, .inUnusable, .hdrShort]
  | .treeBuild => [.noCause, .weightOverflow]
  | .codeGen => [.noCause, .noTree]
  | .pack => [.noCause, .inUnusable, .outUnusable, .noCodeTable, .noCode]
  | .unpack => [.noCause, .inUnusable, .outUnusable, .noTree, .truncated, .trailing]
  | .compress => [.noCause, .inUnusable, .outUnusable]
  | .decompress => [.noCause, .inUnusable, .outUnusable, .hdrShort, .weightOverflow, .truncated, .trailing]

/-! ## Host accesses, as claims write them -/

/-- The host's CSR read at `off` gives `v`: it goes to temporary `t`, the host moves on, and nothing else changes. -/
def ReadsAs (s : State) (off t : Nat) (v : Word) : Prop :=
  execHost (.rd off 4 t) s =
    .next { s with host := { s.host with pc := s.host.pc + 1, temps := tempSet s.host.temps t v } }

/-- The host's CSR read at `off` draws a free value: `v` goes to temporary `t`, the host moves on, the draw is counted,
and nothing else changes. -/
def DrawsAs (s : State) (off t : Nat) (v : Word) : Prop :=
  execHost (.rd off 4 t) s =
    .next { s with host := { s.host with pc := s.host.pc + 1, temps := tempSet s.host.temps t v }
                   draws := s.draws + 1 }

/-- The host's CSR write of `v` at `off` leaves the block in `u`, and the host moves on. -/
def WritesAs (s : State) (off : Nat) (v : Word) (u : State) : Prop :=
  execHost (.wr off 4 v) s = .next { u with host := { s.host with pc := s.host.pc + 1 } }

/-! ## Tables -/

/-- The frequency table counts the bytes of `xs`: FREQ[b] is the number of occurrences of b (R131). -/
def CountsOf (f : FreqTable) (xs : List Byte) : Prop := ∀ b : Byte, (freqAt f b).toNat = xs.count b

/-- The symbols with a nonzero count, ascending (R151). -/
def symbolsOf (f : FreqTable) : List Byte :=
  ((List.range 256).map (BitVec.ofNat 8)).filter fun b => freqAt f b != 0#64

/-- The indices that internal nodes of an arena name as children, each as often as it is named. -/
def childSlots (arena : List Node) : List Nat :=
  arena.flatMap fun n => if n.isInternal then [n.left.toNat, n.right.toNat] else []

/-- The arbiter's set Q when the arena holds exactly these nodes: an index no internal node has taken (R153). -/
def Available (arena : List Node) (i : Nat) : Prop := i < arena.length ∧ i ∉ childSlots arena

/-- The arbiter's key order on exact values (R152). -/
def KeyBelow (arena : List Node) (i j : Nat) : Prop :=
  (nodeAt arena i).weight.toNat < (nodeAt arena j).weight.toNat ∨
    ((nodeAt arena i).weight.toNat = (nodeAt arena j).weight.toNat ∧
      (nodeAt arena i).seq.toNat < (nodeAt arena j).seq.toNat)

/-- `PathTo arena i p j`: the steps `p` lead from node `i` to node `j`, each step out of an internal node: bit 1 to its
left child, bit 0 to its right child (R172). -/
inductive PathTo (arena : List Node) : Nat → Bits → Nat → Prop where
  | here (i : Nat) : PathTo arena i [] i
  | step {i j : Nat} {bit : Bool} {p : Bits} :
      (nodeAt arena i).isInternal = true →
      PathTo arena (if bit then (nodeAt arena i).left.toNat else (nodeAt arena i).right.toNat) p j →
      PathTo arena i (bit :: p) j

/-! ## The payload as bits -/

/-- The bits of payload bytes: bit n is bit 7 - (n mod 8) of byte n / 8 (R86). -/
def payloadBits (bs : List Byte) : Bits := bs.flatMap bitsOfByte

/-- The code bits of an input, in order (R187, R189). -/
def codeBits (codes : CodeTable) (xs : List Byte) : Bits := xs.flatMap (codeAt codes)

/-- `p` is a packed payload of the bits `bits`: those bits, then fewer than 8 pad bits of any value (R86, R188). -/
def PayloadOf (p : List Byte) (bits : Bits) : Prop := ∃ pad : Bits, pad.length < 8 ∧ payloadBits p = bits ++ pad

end Sys2Proof.Machine
end

