-- ==== Sys2Proof/Certificates/Slice0/Obligations.lean ====
section
/-! DEFINITION. The statements about the Huffman codec core, from the numbered rules of spec/. `completedOk`,
`completedInvalid` and `completed` write CODE, CAUSE, INFO, PENDING and DONE and nothing else, so an equation of an
outcome with `next (… s with …).completedOk` is the command's result and its whole frame. -/

open Sys2Proof Sys2Proof.Machine

/-! ## Encoding -/

/-- R113: the thirteen command words, written out from the opcode map, decode to their commands. -/
def Obligations.OpcodeMapDecodes : Prop :=
  decode 0x00000000#32 = .ok .nop ∧ decode 0x00000001#32 = .ok .softReset ∧ decode 0x00000002#32 = .ok .inRewind ∧
  decode 0x00000010#32 = .ok .histClear ∧ decode 0x00000011#32 = .ok .histAccum ∧
  decode 0x00000012#32 = .ok .hdrEmit ∧ decode 0x00000013#32 = .ok .hdrLoad ∧
  decode 0x00000020#32 = .ok .treeBuild ∧ decode 0x00000030#32 = .ok .codeGen ∧
  decode 0x00000040#32 = .ok .pack ∧ decode 0x00000041#32 = .ok .unpack ∧
  decode 0x00000080#32 = .ok .compress ∧ decode 0x00000081#32 = .ok .decompress

/-- R116, which the spec derives from R111 and R113 to R115: every word decodes to one of the thirteen commands or to
one of the two illegal outcomes, the reserved bits being checked first (R114), then the opcode (R115); and decoding
and encoding agree in both directions. -/
def Obligations.DecodingIsTotal : Prop :=
  (∀ i : Instr, decode (encode i) = .ok i) ∧
  ∀ w : Word,
    (w.extractLsb' 8 24 ≠ 0#24 → decode w = .error .reservedBits) ∧
    (w.extractLsb' 8 24 = 0#24 →
      (∃ i, decode w = .ok i ∧ encode i = w) ∨ (decode w = .error .badOpcode ∧ ∀ i, encode i ≠ w))

/-! ## Reset and invariants -/

/-- R66: what hardware reset gives every element of block state. -/
def Obligations.ResetValues : Prop :=
  State.reset.irqEn = false ∧ State.reset.decMode = .exact ∧ State.reset.hdrBe = false ∧
  State.reset.busy = false ∧ State.reset.done = false ∧ State.reset.overrun = false ∧
  State.reset.statusCode = .ok ∧ State.reset.statusCause = .noCause ∧
  State.reset.treeValid = false ∧ State.reset.codeValid = false ∧ State.reset.irq = false ∧
  State.reset.info = 0#64 ∧ State.reset.inPtr = 0#64 ∧ State.reset.outCnt = 0#64 ∧
  (∀ b, freqAt State.reset.freq b = 0#64) ∧ State.reset.arena = [] ∧ (∀ b, codeAt State.reset.codes b = []) ∧
  State.reset.freqIdx = 0#8 ∧ State.reset.nodeIdx = 0#9 ∧ State.reset.codeIdx = 0#8 ∧ State.reset.codeWsel = 0#3 ∧
  State.reset.pending = none ∧ State.reset.lDecMode = .exact ∧ State.reset.lHdrBe = false ∧
  State.reset.csrValue .id = 0x48554646#32

/-- R291: hardware reset from any state: block state takes its reset values, a pending command is abandoned, and the
host's streams, signals and program stay. That reset is a step of the host's program is the model's choice (log 5). -/
def Obligations.HardResetFromAnyState : Prop :=
  ∀ s : State, execHost .hardReset s =
    .next { State.reset with
      input := s.input, output := s.output, inUsable := s.inUsable, outUsable := s.outUsable
      host := { s.host with pc := s.host.pc + 1 }, turns := s.turns, rounds := s.rounds, draws := s.draws }

/-- The invariants of R67, which the spec derives, and R66: after reset, whatever the launch parameters of R66 are,
the invariants hold, and so does the form of the model's own data, the canonical temporaries being the model's choice
(log 4). -/
def Obligations.LaunchMeetsInvariants : Prop :=
  ∀ (input output : List Byte) (x y : Bool) (prog : List HostStep), input.length ≤ 2 ^ 64 - 1 →
    (State.launch input output x y prog).Inv ∧ (State.launch input output x y prog).HostForm

/-- R67, which the spec derives from R37, R59, R62, R153 and R156: every step of the machine, of the core or of the
host, keeps the invariants; so they hold in every state that a run reaches, whatever the launch parameters, the host
program and the interleaving are. -/
def Obligations.StepKeepsInvariants : Prop :=
  (∀ s t : State, s.Inv → step s = .next t → t.Inv) ∧
  ∀ (input output : List Byte) (x y : Bool) (prog : List HostStep) (turns : List Agent) (t : State),
    input.length ≤ 2 ^ 64 - 1 → Reaches { State.launch input output x y prog with turns := turns } t → t.Inv

/-- Every step keeps the form of the model's own data: the temporaries are canonical (the model's choice, log 4), and
a pending command has DONE = 0 (R239, R243). -/
def Obligations.StepKeepsHostForm : Prop :=
  ∀ s t : State, s.HostForm → step s = .next t → t.HostForm

/-! ## The step -/

/-- R249, R95: when the pending word decodes to a command and it is the core's turn, the step is that command's
execution; the step has moved past the turn it took (`nextTurn`; the turns are the model's choice, log 3). -/
def Obligations.StepRunsPendingCommand : Prop :=
  ∀ (s : State) (w : Word) (i : Instr),
    s.pending = some w → decode w = .ok i → i.wellFormed = true → (s.hostMove = none ∨ s.turn = .core) →
    step s = exec i s.nextTurn

/-- R114, R115, with R249 and R95: an illegal word completes with ILLEGAL_COMMAND, its cause and the word in INFO, and
no other state changes but the turn taken (`nextTurn`; the turns are the model's choice, log 3). -/
def Obligations.IllegalWordsComplete : Prop :=
  ∀ (s : State) (w : Word), s.pending = some w → (s.hostMove = none ∨ s.turn = .core) →
    (w.extractLsb' 8 24 ≠ 0#24 →
      step s = .next (s.nextTurn.completed .illegalCommand .reservedBits (w.setWidth 64))) ∧
    (w.extractLsb' 8 24 = 0#24 → (∀ i, encode i ≠ w) →
      step s = .next (s.nextTurn.completed .illegalCommand .badOpcode (w.setWidth 64)))

/-- R95: when the host has a step and no command is pending, or it is the host's turn, the step is the host's. Turns
are taken in the order they are listed, and the list may be any; when none is listed, a free number of turns of the
host and then one of the core are drawn (Config.latency at the counter of rounds). R302, fairness: a pending command
stays pending up to a state in which the core moves, unless the host resets the block or makes a move that is refused
before. The turns and how they are drawn are the model's choice (log 3), reset as a host step too (log 5). -/
def Obligations.HostMovesInTurn : Prop :=
  (∀ (s : State) (h : HostStep), s.hostMove = some h → (s.pending = none ∨ s.turn = .host) →
    step s = execHost h s.nextTurn) ∧
  (∀ (s : State) (a : Agent) (rest : List Agent), s.turns = a :: rest →
    s.turn = a ∧ s.nextTurn = { s with turns := rest }) ∧
  (∀ s : State, s.turns = [] →
    s.turn = (if Config.latency s.rounds = 0 then .core else .host) ∧
    s.nextTurn = { s with
      turns := (List.replicate (Config.latency s.rounds) Agent.host ++ [Agent.core]).tail, rounds := s.rounds + 1 }) ∧
  ∀ (s : State) (w : Word), s.pending = some w →
    ∃ u, Reaches s u ∧ u.pending = some w ∧
      (u.hostMove = none ∨ u.turn = .core ∨ u.hostMove = some .hardReset ∨ ∃ r, step u = .refused r)

/-- R304, R249: the machine stops exactly when no command is pending and the host is at `halt` or past its program;
that this stop is a named fault is the model's choice (log 8). -/
def Obligations.RunEndsWhenIdle : Prop :=
  ∀ s : State, (∃ r, step s = .fault r) ↔
    (s.pending = none ∧ (s.host.prog[s.host.pc]? = none ∨ s.host.prog[s.host.pc]? = some .halt))

/-- R88, R246, R297: exactly these host moves are refused: a CSR access that is not 4 bytes wide, aligned and in the
window; a stream move while BUSY = 1; a bind of an input that is longer than 2^64 - 1 bytes. Each of them is refused,
and a step is refused only when the host moves and its step is one of them. That these moves, which the spec puts
outside the model, end in a refusal is the model's choice (log 9). -/
def Obligations.OnlyMeaninglessMovesRefused : Prop :=
  (∀ (s : State) (off width t : Nat) (v : Word), ¬ (width = 4 ∧ off % 4 = 0 ∧ off < 256) →
    (∃ r, execHost (.rd off width t) s = .refused r) ∧ (∃ r, execHost (.wr off width v) s = .refused r)) ∧
  (∀ (s : State) (bytes : List Byte) (x y : Bool), s.pending ≠ none →
    (∃ r, execHost (.bindIn bytes) s = .refused r) ∧ (∃ r, execHost .bindOut s = .refused r) ∧
    (∃ r, execHost (.usable x y) s = .refused r)) ∧
  (∀ (s : State) (bytes : List Byte), 2 ^ 64 - 1 < bytes.length → ∃ r, execHost (.bindIn bytes) s = .refused r) ∧
  ∀ (s : State) (r : Refusal), step s = .refused r →
    ∃ h, s.hostMove = some h ∧ (s.pending = none ∨ s.turn = .host) ∧
      ((∃ off width v, h = .wr off width v ∧ ¬ (width = 4 ∧ off % 4 = 0 ∧ off < 256)) ∨
       (∃ off width t, h = .rd off width t ∧ ¬ (width = 4 ∧ off % 4 = 0 ∧ off < 256)) ∨
       (s.pending ≠ none ∧ ((∃ bytes, h = .bindIn bytes) ∨ h = .bindOut ∨ ∃ x y, h = .usable x y)) ∨
       (∃ bytes, h = .bindIn bytes ∧ 2 ^ 64 - 1 < bytes.length))

/-! ## Completion -/

/-- R265, R266: every command completes, in every state: PENDING none, DONE 1, and INFO as the code says. -/
def Obligations.EveryCommandCompletes : Prop :=
  ∀ (i : Instr) (s : State) (w : Word), s.pending = some w →
    ∃ t, exec i s = .next t ∧ t.pending = none ∧ t.busy = false ∧ t.done = true ∧
      (t.statusCode = .ok → t.statusCause = .noCause ∧ t.info = 0#64) ∧
      (t.statusCode = .invalidArguments → t.info = t.inPtr) ∧
      t.statusCode ≠ .illegalCommand ∧
      (t.statusCode = .sequenceError → t.info = w.setWidth 64)

/-- R264, which the spec derives from the pseudocode: the causes each command can raise. -/
def Obligations.CausesOfEachCommand : Prop :=
  ∀ (i : Instr) (s t : State), s.input.length ≤ 2 ^ 64 - 1 → exec i s = .next t → t.statusCause ∈ causesOf i

/-- R237, R91, R99, R64, R195: what commands leave alone. No command changes CTRL and its latched copies, the index
registers, the bound input and the usable signals, the host and its turns; OVERRUN changes in SOFT_RESET only; OUT
only grows. FREQ, ARENA, CODE, the stage-valid bits, IN_PTR, OUT and OUT_CNT change only in the commands listed for
each; so UNPACK, completing or failing, on any payload and in any mode, leaves FREQ, ARENA, CODE and the stage-valid
bits as they were. -/
def Obligations.CommandFrame : Prop :=
  ∀ (i : Instr) (s t : State), exec i s = .next t →
    t.irqEn = s.irqEn ∧ t.decMode = s.decMode ∧ t.hdrBe = s.hdrBe ∧
    t.lDecMode = s.lDecMode ∧ t.lHdrBe = s.lHdrBe ∧
    t.freqIdx = s.freqIdx ∧ t.nodeIdx = s.nodeIdx ∧ t.codeIdx = s.codeIdx ∧ t.codeWsel = s.codeWsel ∧
    t.input = s.input ∧ t.inUsable = s.inUsable ∧ t.outUsable = s.outUsable ∧
    t.host = s.host ∧ t.turns = s.turns ∧ t.rounds = s.rounds ∧ t.draws = s.draws ∧
    (i ≠ .softReset → t.overrun = s.overrun) ∧ (∃ bs, t.output = s.output ++ bs) ∧
    (i ∉ [Instr.softReset, .histClear, .histAccum, .hdrLoad, .compress, .decompress] → t.freq = s.freq) ∧
    (i ∉ [Instr.softReset, .treeBuild, .compress, .decompress] → t.arena = s.arena) ∧
    (i ∉ [Instr.softReset, .codeGen, .compress] → t.codes = s.codes) ∧
    (i ∉ [Instr.softReset, .histClear, .histAccum, .hdrLoad, .treeBuild, .compress, .decompress] →
      t.treeValid = s.treeValid) ∧
    (i ∉ [Instr.softReset, .histClear, .histAccum, .hdrLoad, .treeBuild, .codeGen, .compress, .decompress] →
      t.codeValid = s.codeValid) ∧
    (i ∉ [Instr.softReset, .inRewind, .histAccum, .hdrLoad, .pack, .unpack, .compress, .decompress] →
      t.inPtr = s.inPtr) ∧
    (i ∉ [Instr.hdrEmit, .pack, .unpack, .compress, .decompress] → t.output = s.output) ∧
    (i ∉ [Instr.softReset, .hdrEmit, .pack, .unpack, .compress, .decompress] → t.outCnt = s.outCnt)

/-- R37, R291: the stage-valid bits change only in a core step of a command that R37 names or at hardware reset, and
what each of those sets them to. Which agent moves is said by the turns (the model's choice, log 3), and hardware
reset is a step of the host's program (the model's choice, log 5). -/
def Obligations.StageBitsChangeOnlyAsListed : Prop :=
  (∀ s t : State, step s = .next t → (t.treeValid ≠ s.treeValid ∨ t.codeValid ≠ s.codeValid) →
    (∃ w i, s.pending = some w ∧ (s.hostMove = none ∨ s.turn = .core) ∧ decode w = .ok i ∧
      i ∈ [Instr.histClear, .histAccum, .hdrLoad, .softReset, .treeBuild, .codeGen, .compress, .decompress]) ∨
    (s.hostMove = some .hardReset ∧ (s.pending = none ∨ s.turn = .host))) ∧
  (∀ (i : Instr) (s t : State), exec i s = .next t →
    (i = .histClear ∨ i = .softReset → t.treeValid = false ∧ t.codeValid = false) ∧
    (i = .histAccum ∨ i = .hdrLoad →
      (t.statusCode = .ok → t.treeValid = false ∧ t.codeValid = false) ∧
      (t.statusCode ≠ .ok → t.treeValid = s.treeValid ∧ t.codeValid = s.codeValid)) ∧
    (i = .treeBuild → t.codeValid = false ∧ (t.treeValid = true ↔ t.statusCode = .ok)) ∧
    (i = .codeGen → (t.statusCode = .ok ↔ s.treeValid = true) ∧ t.treeValid = s.treeValid ∧
      t.codeValid = (s.treeValid || s.codeValid)) ∧
    (i = .compress → s.input.length ≤ 2 ^ 64 - 1 →
      (t.statusCode = .ok → t.treeValid = true ∧ t.codeValid = true) ∧
      (t.statusCode ≠ .ok → t.treeValid = s.treeValid ∧ t.codeValid = s.codeValid)) ∧
    (i = .decompress →
      (t.statusCause ∈ [Cause.inUnusable, .outUnusable, .hdrShort] →
        t.treeValid = s.treeValid ∧ t.codeValid = s.codeValid) ∧
      (t.statusCause ∉ [Cause.inUnusable, .outUnusable, .hdrShort] →
        t.codeValid = false ∧ (t.treeValid = true ↔ t.statusCause ≠ .weightOverflow)))) ∧
  (∀ s t : State, execHost .hardReset s = .next t → t.treeValid = false ∧ t.codeValid = false)

/-- R99, R240, R298, and R96, which the spec derives: while a command is pending, no step but its core step or
hardware reset ends it, and every other step leaves the word, the latched fields, the streams, the signals and the
tables as they were. The core moves when the host has no step or the turn is the core's (the model's choice, log 3),
and hardware reset is a step of the host's program (the model's choice, log 5). -/
def Obligations.PendingCommandIsStable : Prop :=
  ∀ (s t : State) (w : Word), s.pending = some w → step s = .next t →
    (t.pending = some w ∧ t.lDecMode = s.lDecMode ∧ t.lHdrBe = s.lHdrBe ∧
      t.input = s.input ∧ t.inPtr = s.inPtr ∧ t.output = s.output ∧ t.outCnt = s.outCnt ∧
      t.inUsable = s.inUsable ∧ t.outUsable = s.outUsable ∧
      t.freq = s.freq ∧ t.arena = s.arena ∧ t.codes = s.codes) ∨
    (t.pending = none ∧ t.done = true ∧ (s.hostMove = none ∨ s.turn = .core)) ∨
    (t.pending = none ∧ t.done = false ∧ s.hostMove = some .hardReset ∧ s.turn = .host)

/-- R89, R39, and R83, which the spec derives: no host step but hardware reset (a host step by the model's choice, log
5) changes a table, a stage-valid bit or the recorded status, and only a bind moves IN_PTR or empties OUT. -/
def Obligations.HostStepsLeaveTables : Prop :=
  ∀ (h : HostStep) (s t : State), h ≠ .hardReset → execHost h s = .next t →
    t.freq = s.freq ∧ t.arena = s.arena ∧ t.codes = s.codes ∧
    t.treeValid = s.treeValid ∧ t.codeValid = s.codeValid ∧
    t.statusCode = s.statusCode ∧ t.statusCause = s.statusCause ∧ t.info = s.info ∧
    ((∀ bytes, h ≠ .bindIn bytes) → t.inPtr = s.inPtr ∧ t.input = s.input) ∧
    (h ≠ .bindOut → t.output = s.output ∧ t.outCnt = s.outCnt)

/-! ## Control commands -/

/-- R236, R237, R238: NOP, SOFT_RESET and IN_REWIND, and everything they change. -/
def Obligations.ControlCommandsComplete : Prop :=
  ∀ s : State,
    exec .nop s = .next s.completedOk ∧
    (∃ f c, (∀ b, freqAt f b = 0#64) ∧ (∀ b, codeAt c b = []) ∧
      exec .softReset s = .next ({ s with
        freq := f, codes := c, arena := [], treeValid := false, codeValid := false, overrun := false
        inPtr := 0#64, outCnt := 0#64 } : State).completedOk) ∧
    (s.inUsable = true → exec .inRewind s = .next ({ s with inPtr := 0#64 } : State).completedOk) ∧
    (s.inUsable = false → exec .inRewind s = .next (s.completedInvalid .inUnusable))

/-! ## Histogram and header -/

/-- R134: HIST_CLEAR completes OK with every count 0 and both stage-valid bits 0, and changes nothing else. -/
def Obligations.HistClearCompletes : Prop :=
  ∀ s : State, ∃ f, (∀ b, freqAt f b = 0#64) ∧
    exec .histClear s = .next ({ s with freq := f, treeValid := false, codeValid := false } : State).completedOk

/-- R135: each count grows by the occurrences of its byte in the remaining input, modulo 2^64. -/
def Obligations.HistAccumCounts : Prop :=
  ∀ s : State,
    (s.inUsable = false → exec .histAccum s = .next (s.completedInvalid .inUnusable)) ∧
    (s.inUsable = true → s.inPtr.toNat ≤ s.input.length → s.input.length ≤ 2 ^ 64 - 1 →
      ∃ f, (∀ b, (freqAt f b).toNat =
              ((freqAt s.freq b).toNat + (s.input.drop s.inPtr.toNat).count b) % 2 ^ 64) ∧
        exec .histAccum s = .next ({ s with
          freq := f, inPtr := BitVec.ofNat 64 s.input.length, treeValid := false, codeValid := false }
          : State).completedOk)

/-- R131, which the spec derives from R134 and R135: from a cleared table, one HIST_ACCUM over an input of n < 2^64
bytes leaves Σ FREQ = n and FREQ[s] equal to the number of occurrences of s. -/
def Obligations.HistogramOfAnInput : Prop :=
  ∀ s : State, s.inUsable = true → s.inPtr = 0#64 → s.input.length < 2 ^ 64 → (∀ b, freqAt s.freq b = 0#64) →
    ∃ t, exec .histAccum s = .next t ∧ totalCount t.freq = s.input.length ∧ CountsOf t.freq s.input

/-- R136, R85, R133: byte k of count b is at offset 8b + k of the 2048 bytes appended, low byte first or high byte
first as the latched HDR_BE says. -/
def Obligations.HdrEmitWritesHeader : Prop :=
  ∀ s : State,
    (s.outUsable = false → exec .hdrEmit s = .next (s.completedInvalid .outUnusable)) ∧
    (s.outUsable = true →
      ∃ hdr : List Byte, hdr.length = 2048 ∧
        (∀ (b : Byte) (k : Nat), k < 8 → hdr[8 * b.toNat + k]? =
          some ((freqAt s.freq b).extractLsb' (if s.lHdrBe then 56 - 8 * k else 8 * k) 8)) ∧
        exec .hdrEmit s = .next ({ s with
          output := s.output ++ hdr, outCnt := s.outCnt + 2048#64 } : State).completedOk)

/-- R137, R85, R133: FREQ takes the 256 counts of the next 2048 bytes; a shorter remainder is consumed and reported.
-/
def Obligations.HdrLoadReadsHeader : Prop :=
  ∀ s : State,
    (s.inUsable = false → exec .hdrLoad s = .next (s.completedInvalid .inUnusable)) ∧
    (s.inUsable = true → s.input.length - s.inPtr.toNat < 2048 →
      exec .hdrLoad s =
        .next (({ s with inPtr := BitVec.ofNat 64 s.input.length } : State).completedInvalid .hdrShort)) ∧
    (s.inUsable = true → 2048 ≤ s.input.length - s.inPtr.toNat →
      ∃ f, (∀ (b : Byte) (k : Nat), k < 8 → s.input[s.inPtr.toNat + 8 * b.toNat + k]? =
              some ((freqAt f b).extractLsb' (if s.lHdrBe then 56 - 8 * k else 8 * k) 8)) ∧
        exec .hdrLoad s = .next ({ s with
          freq := f, inPtr := s.inPtr + 2048#64, treeValid := false, codeValid := false } : State).completedOk)

/-- R133, R136, R137: HDR_LOAD of the header that HDR_EMIT writes for a table, in the same byte order, gives the table
back. -/
def Obligations.HeaderLoadsBack : Prop :=
  ∀ (s u t : State) (rest : List Byte),
    u.outUsable = true → u.output = [] → exec .hdrEmit u = .next t →
    s.inUsable = true → s.lHdrBe = u.lHdrBe → s.input.drop s.inPtr.toNat = t.output ++ rest →
    exec .hdrLoad s = .next ({ s with
      freq := u.freq, inPtr := s.inPtr + 2048#64, treeValid := false, codeValid := false } : State).completedOk

/-! ## Tree builder -/

/-- R153: TREE_BUILD makes the arena of FREQ, or fails with WEIGHT_OVERFLOW when Σ FREQ reaches 2^64. -/
def Obligations.TreeBuildCompletes : Prop :=
  ∀ s : State,
    (2 ^ 64 ≤ totalCount s.freq → exec .treeBuild s = .next (({ s with
      arena := [], treeValid := false, codeValid := false } : State).completedInvalid .weightOverflow)) ∧
    (totalCount s.freq < 2 ^ 64 → exec .treeBuild s = .next ({ s with
      arena := buildArena s.freq, treeValid := true, codeValid := false } : State).completedOk)

/-- R151: the symbols of a table are the byte values with a nonzero count, in ascending order, and leaf j of its arena
is the j-th of them, with its count as weight and j as sequence id. -/
def Obligations.LeavesInSymbolOrder : Prop :=
  ∀ f : FreqTable,
    (∀ b, b ∈ symbolsOf f ↔ freqAt f b ≠ 0#64) ∧
    (∀ (i j : Nat) (a b : Byte), i < j → (symbolsOf f)[i]? = some a → (symbolsOf f)[j]? = some b → a < b) ∧
    ∀ (j : Nat) (b : Byte), (symbolsOf f)[j]? = some b →
      (buildArena f)[j]? = some (.leaf b (freqAt f b) (BitVec.ofNat 9 j))

/-- R155, and R156, which the spec derives: with n symbols the arena is empty for n = 0 and has 2n - 1 nodes for n ≥
1, leaves first, then internal nodes, and the sequence id of each node is its index. -/
def Obligations.ArenaShape : Prop :=
  ∀ f : FreqTable,
    ((symbolsOf f).length = 0 → buildArena f = []) ∧
    (1 ≤ (symbolsOf f).length → (buildArena f).length = 2 * (symbolsOf f).length - 1) ∧
    (∀ i, i < (buildArena f).length →
      (nodeAt (buildArena f) i).seq.toNat = i ∧
      ((nodeAt (buildArena f) i).isInternal = true ↔ (symbolsOf f).length ≤ i))

/-- R152, R153, R154: each internal node joins the node of least key still available, as its left child, and the node
of next least key, as its right child; its weight is the exact sum of theirs. -/
def Obligations.MergesTakeLeastKeys : Prop :=
  ∀ f : FreqTable, totalCount f < 2 ^ 64 →
    ∀ k, (symbolsOf f).length ≤ k → k < (buildArena f).length →
      ∃ a b, (nodeAt (buildArena f) k).left.toNat = a ∧ (nodeAt (buildArena f) k).right.toNat = b ∧ a ≠ b ∧
        Available ((buildArena f).take k) a ∧ Available ((buildArena f).take k) b ∧
        (∀ c, Available ((buildArena f).take k) c → c ≠ a → KeyBelow (buildArena f) a c) ∧
        (∀ c, Available ((buildArena f).take k) c → c ≠ a → c ≠ b → KeyBelow (buildArena f) b c) ∧
        (nodeAt (buildArena f) k).weight.toNat =
          (nodeAt (buildArena f) a).weight.toNat + (nodeAt (buildArena f) b).weight.toNat

/-- R157, which the spec derives from R151 to R156: the properties of a tree with n ≥ 2 leaves: full binary tree,
exact weights, root weight Σ FREQ, no overflow, depth at most n - 1 ≤ 255, children in key order, leaves before
internal nodes and smaller symbols first on equal weights. -/
def Obligations.TreeProperties : Prop :=
  ∀ f : FreqTable, totalCount f < 2 ^ 64 → 2 ≤ (symbolsOf f).length →
    (childSlots (buildArena f)).Perm (List.range (rootIdx (buildArena f))) ∧
    (∀ i, i < (buildArena f).length → (nodeAt (buildArena f) i).isInternal = true →
      (nodeAt (buildArena f) i).left ≠ (nodeAt (buildArena f) i).right ∧
      (nodeAt (buildArena f) i).weight.toNat =
        (nodeAt (buildArena f) (nodeAt (buildArena f) i).left.toNat).weight.toNat +
        (nodeAt (buildArena f) (nodeAt (buildArena f) i).right.toNat).weight.toNat ∧
      KeyBelow (buildArena f) (nodeAt (buildArena f) i).left.toNat (nodeAt (buildArena f) i).right.toNat) ∧
    (nodeAt (buildArena f) (rootIdx (buildArena f))).weight.toNat = totalCount f ∧
    (∀ i, i < (buildArena f).length → (nodeAt (buildArena f) i).weight.toNat ≤ totalCount f) ∧
    (∀ p j, PathTo (buildArena f) (rootIdx (buildArena f)) p j → p.length ≤ (symbolsOf f).length - 1) ∧
    (symbolsOf f).length - 1 ≤ 255 ∧
    (∀ i k, i < (symbolsOf f).length → (symbolsOf f).length ≤ k → k < (buildArena f).length →
      (nodeAt (buildArena f) i).seq < (nodeAt (buildArena f) k).seq ∧
      ((nodeAt (buildArena f) i).weight = (nodeAt (buildArena f) k).weight → KeyBelow (buildArena f) i k)) ∧
    (∀ i j, i < j → j < (symbolsOf f).length →
      (nodeAt (buildArena f) i).sym < (nodeAt (buildArena f) j).sym ∧
      ((nodeAt (buildArena f) i).weight = (nodeAt (buildArena f) j).weight → KeyBelow (buildArena f) i j))

/-! ## Code table generator -/

/-- R171: CODE_GEN makes the code table of ARENA; without a valid tree it fails and changes nothing. -/
def Obligations.CodeGenCompletes : Prop :=
  ∀ s : State,
    (s.treeValid = true → exec .codeGen s = .next ({ s with
      codes := codesOf s.arena, codeValid := true } : State).completedOk) ∧
    (∀ w, s.treeValid = false → s.pending = some w →
      exec .codeGen s = .next (s.completed .sequenceError .noTree (w.setWidth 64)))

/-- R172: with two symbols or more, a symbol's code is the path from the root to its leaf. -/
def Obligations.CodesArePaths : Prop :=
  ∀ (f : FreqTable) (b : Byte), 2 ≤ (symbolsOf f).length → freqAt f b ≠ 0#64 →
    ∃ j w q, PathTo (buildArena f) (rootIdx (buildArena f)) (codeAt (codesOf (buildArena f)) b) j ∧
      (buildArena f)[j]? = some (.leaf b w q)

/-- R173: no codes for the empty alphabet, the one-bit code `0` for a single symbol. -/
def Obligations.DegenerateCodes : Prop :=
  ∀ f : FreqTable,
    ((symbolsOf f).length = 0 → ∀ b, codeAt (codesOf (buildArena f)) b = []) ∧
    (∀ b, symbolsOf f = [b] → codeAt (codesOf (buildArena f)) b = [false] ∧
      ∀ c, c ≠ b → codeAt (codesOf (buildArena f)) c = [])

/-- R174, which the spec derives from R171, R172 and R157: the table covers exactly the symbols with nonzero
frequency; with two symbols or more it is prefix-free, every length is 1..255 and the Kraft equality holds. -/
def Obligations.CodeTableProperties : Prop :=
  ∀ f : FreqTable,
    (∀ b, codeAt (codesOf (buildArena f)) b ≠ [] ↔ freqAt f b ≠ 0#64) ∧
    ((symbolsOf f).length = 1 → ∀ b ∈ symbolsOf f, codeAt (codesOf (buildArena f)) b = [false]) ∧
    (2 ≤ (symbolsOf f).length →
      (∀ a ∈ symbolsOf f, ∀ b ∈ symbolsOf f, a ≠ b →
        ¬ codeAt (codesOf (buildArena f)) a <+: codeAt (codesOf (buildArena f)) b) ∧
      (∀ b ∈ symbolsOf f, 1 ≤ (codeAt (codesOf (buildArena f)) b).length ∧
        (codeAt (codesOf (buildArena f)) b).length ≤ 255) ∧
      ((symbolsOf f).map fun b => 2 ^ (255 - (codeAt (codesOf (buildArena f)) b).length)).sum = 2 ^ 255)

/-! ## Packer -/

/-- R187, R190, R267: the checks of PACK and UNPACK, in their order; a command that fails one changes nothing but its
status. -/
def Obligations.PackAndUnpackChecksInOrder : Prop :=
  ∀ (s : State) (w : Word), s.pending = some w →
    (∀ i, i = .pack ∨ i = .unpack →
      (s.inUsable = false → exec i s = .next (s.completedInvalid .inUnusable)) ∧
      (s.inUsable = true → s.outUsable = false → exec i s = .next (s.completedInvalid .outUnusable))) ∧
    (s.inUsable = true → s.outUsable = true →
      (s.codeValid = false → exec .pack s = .next (s.completed .sequenceError .noCodeTable (w.setWidth 64))) ∧
      (s.treeValid = false → exec .unpack s = .next (s.completed .sequenceError .noTree (w.setWidth 64))))

/-- R187, R186, R188, and R189, which the spec derives: PACK of a remaining input whose bytes all have codes writes
exactly the code bits, most significant bit first, padded with zeros to ⌈L/8⌉ bytes. -/
def Obligations.PackWritesPayload : Prop :=
  ∀ s : State, s.inUsable = true → s.outUsable = true → s.codeValid = true →
    s.inPtr.toNat ≤ s.input.length → s.input.length ≤ 2 ^ 64 - 1 →
    (∀ b ∈ s.input.drop s.inPtr.toNat, codeAt s.codes b ≠ []) →
    ∃ p k, k < 8 ∧
      payloadBits p = codeBits s.codes (s.input.drop s.inPtr.toNat) ++ List.replicate k false ∧
      p.length = ((codeBits s.codes (s.input.drop s.inPtr.toNat)).length + 7) / 8 ∧
      exec .pack s = .next ({ s with
        inPtr := BitVec.ofNat 64 s.input.length, output := s.output ++ p
        outCnt := s.outCnt + BitVec.ofNat 64 p.length } : State).completedOk

/-- R187: PACK stops at the first byte without a code: IN_PTR and INFO are its offset, the whole bytes already packed
stay in OUT, and the partial accumulator is dropped. -/
def Obligations.PackStopsAtUncodedByte : Prop :=
  ∀ (s : State) (xs ys : List Byte) (b : Byte), s.inUsable = true → s.outUsable = true → s.codeValid = true →
    s.input.drop s.inPtr.toNat = xs ++ b :: ys → (∀ x ∈ xs, codeAt s.codes x ≠ []) → codeAt s.codes b = [] →
    ∃ p, p.length = (codeBits s.codes xs).length / 8 ∧ payloadBits p <+: codeBits s.codes xs ∧
      exec .pack s = .next (({ s with
        inPtr := s.inPtr + BitVec.ofNat 64 xs.length, output := s.output ++ p
        outCnt := s.outCnt + BitVec.ofNat 64 p.length } : State).completedInvalid .noCode)

/-! ## Unpacker -/

/-- R191, R188: EXACT decodes a payload of `total` symbols, whatever its pad bits, and completes OK. -/
def Obligations.ExactDecodesPayload : Prop :=
  ∀ (s : State) (xs : List Byte), s.inUsable = true → s.outUsable = true → s.treeValid = true →
    s.lDecMode = .exact → s.arena = buildArena s.freq →
    s.inPtr.toNat ≤ s.input.length → s.input.length ≤ 2 ^ 64 - 1 →
    xs.length = totalCount s.freq → (∀ b ∈ xs, freqAt s.freq b ≠ 0#64) →
    PayloadOf (s.input.drop s.inPtr.toNat) (codeBits (codesOf s.arena) xs) →
    exec .unpack s = .next ({ s with
      inPtr := BitVec.ofNat 64 s.input.length, output := s.output ++ xs
      outCnt := s.outCnt + BitVec.ofNat 64 xs.length } : State).completedOk

/-- R191: a payload that ends before `total` symbols, perhaps inside a code, fails with TRUNCATED after writing the
symbols it holds, with IN_PTR = IN_LEN. When the payload's last bit ends a symbol, that symbol is written, as the rule
says; one vector's OUT column says one byte less (DEDUCED, log 7). -/
def Obligations.ExactReportsTruncation : Prop :=
  ∀ (s : State) (ys : List Byte) (part rest : Bits) (b : Byte),
    s.inUsable = true → s.outUsable = true → s.treeValid = true →
    s.lDecMode = .exact → s.arena = buildArena s.freq →
    s.inPtr.toNat ≤ s.input.length → s.input.length ≤ 2 ^ 64 - 1 →
    ys.length < totalCount s.freq → (∀ y ∈ ys, freqAt s.freq y ≠ 0#64) →
    freqAt s.freq b ≠ 0#64 → codeAt (codesOf s.arena) b = part ++ rest → rest ≠ [] →
    payloadBits (s.input.drop s.inPtr.toNat) = codeBits (codesOf s.arena) ys ++ part →
    exec .unpack s = .next (({ s with
      inPtr := BitVec.ofNat 64 s.input.length, output := s.output ++ ys
      outCnt := s.outCnt + BitVec.ofNat 64 ys.length } : State).completedInvalid .truncated)

/-- R191: whole bytes after the byte in which `total` was reached fail with TRAILING, IN_PTR being the first of them.
-/
def Obligations.ExactReportsTrailing : Prop :=
  ∀ (s : State) (xs p q : List Byte), s.inUsable = true → s.outUsable = true → s.treeValid = true →
    s.lDecMode = .exact → s.arena = buildArena s.freq →
    xs.length = totalCount s.freq → (∀ b ∈ xs, freqAt s.freq b ≠ 0#64) → xs ≠ [] → q ≠ [] →
    s.input.drop s.inPtr.toNat = p ++ q → PayloadOf p (codeBits (codesOf s.arena) xs) →
    exec .unpack s = .next (({ s with
      inPtr := s.inPtr + BitVec.ofNat 64 p.length, output := s.output ++ xs
      outCnt := s.outCnt + BitVec.ofNat 64 xs.length } : State).completedInvalid .trailing)

/-- R191, R192, and R194, which the spec derives: the degenerate alphabets. With no symbol, every mode completes OK on
an empty payload and fails with TRAILING, reading nothing, on any other. With one symbol, every bit is one occurrence
of it, whatever its value. Fewer bits than `total`: TRUNCATED after one symbol a bit, with the payload consumed (an
empty payload is OK in the legacy modes, R192). `total` reached in the last byte: EXACT and LEGACY_BYTE accept it,
LEGACY_BIT only at its last bit. Whole bytes left: TRAILING, IN_PTR being the first of them. -/
def Obligations.DegenerateDecoding : Prop :=
  ∀ s : State, s.inUsable = true → s.outUsable = true → s.treeValid = true → s.arena = buildArena s.freq →
    (symbolsOf s.freq = [] → s.input.drop s.inPtr.toNat = [] → exec .unpack s = .next s.completedOk) ∧
    (symbolsOf s.freq = [] → s.input.drop s.inPtr.toNat ≠ [] →
      exec .unpack s = .next (s.completedInvalid .trailing)) ∧
    (∀ b, symbolsOf s.freq = [b] → 8 * (s.input.drop s.inPtr.toNat).length < totalCount s.freq →
      s.lDecMode = .exact ∨ s.input.drop s.inPtr.toNat ≠ [] →
      exec .unpack s = .next (({ s with
        inPtr := s.inPtr + BitVec.ofNat 64 (s.input.drop s.inPtr.toNat).length
        output := s.output ++ List.replicate (8 * (s.input.drop s.inPtr.toNat).length) b
        outCnt := s.outCnt + BitVec.ofNat 64 (8 * (s.input.drop s.inPtr.toNat).length) }
        : State).completedInvalid .truncated)) ∧
    (∀ b, symbolsOf s.freq = [b] → totalCount s.freq + 8 ≤ 8 * (s.input.drop s.inPtr.toNat).length →
      exec .unpack s = .next (({ s with
        inPtr := s.inPtr + BitVec.ofNat 64 ((totalCount s.freq + 7) / 8)
        output := s.output ++ List.replicate (totalCount s.freq) b
        outCnt := s.outCnt + BitVec.ofNat 64 (totalCount s.freq) } : State).completedInvalid .trailing)) ∧
    (∀ b, symbolsOf s.freq = [b] →
      8 * (s.input.drop s.inPtr.toNat).length < totalCount s.freq + 8 →
      totalCount s.freq ≤ 8 * (s.input.drop s.inPtr.toNat).length →
      (s.lDecMode ≠ .legacyBit ∨ totalCount s.freq = 8 * (s.input.drop s.inPtr.toNat).length →
        exec .unpack s = .next ({ s with
          inPtr := s.inPtr + BitVec.ofNat 64 (s.input.drop s.inPtr.toNat).length
          output := s.output ++ List.replicate (totalCount s.freq) b
          outCnt := s.outCnt + BitVec.ofNat 64 (totalCount s.freq) } : State).completedOk) ∧
      (s.lDecMode = .legacyBit → totalCount s.freq ≠ 8 * (s.input.drop s.inPtr.toNat).length →
        exec .unpack s = .next (({ s with
          inPtr := s.inPtr + BitVec.ofNat 64 (s.input.drop s.inPtr.toNat).length
          output := s.output ++ List.replicate (totalCount s.freq) b
          outCnt := s.outCnt + BitVec.ofNat 64 (totalCount s.freq) } : State).completedInvalid .trailing)))

/-- R192, and R196, which the spec derives, for LEGACY_BYTE. An empty payload completes OK, whatever the counts. A
payload of all the symbols the table counts, of L code bits, is decoded if there is at most one symbol or L mod 8 ≠ 0;
else it fails with TRUNCATED after all symbols but the last. With several symbols: a payload cut short fails with
TRUNCATED, the last whole symbol being written only if a bit follows it; whole bytes after a payload fail with
TRAILING, but for one such byte when L mod 8 = 0, at whose first bit the last symbol is recognised. -/
def Obligations.LegacyByteOutcomes : Prop :=
  ∀ s : State, s.inUsable = true → s.outUsable = true → s.treeValid = true →
    s.lDecMode = .legacyByte → s.arena = buildArena s.freq → s.inPtr.toNat ≤ s.input.length → s.input.length ≤ 2 ^ 64 - 1 →
    (s.input.drop s.inPtr.toNat = [] → exec .unpack s = .next s.completedOk) ∧
    (∀ xs, xs.length = totalCount s.freq → (∀ b ∈ xs, freqAt s.freq b ≠ 0#64) →
      PayloadOf (s.input.drop s.inPtr.toNat) (codeBits (codesOf s.arena) xs) →
      ((symbolsOf s.freq).length ≤ 1 ∨ (codeBits (codesOf s.arena) xs).length % 8 ≠ 0 →
        exec .unpack s = .next ({ s with
          inPtr := BitVec.ofNat 64 s.input.length, output := s.output ++ xs
          outCnt := s.outCnt + BitVec.ofNat 64 xs.length } : State).completedOk) ∧
      (2 ≤ (symbolsOf s.freq).length → (codeBits (codesOf s.arena) xs).length % 8 = 0 →
        exec .unpack s = .next (({ s with
          inPtr := BitVec.ofNat 64 s.input.length, output := s.output ++ xs.dropLast
          outCnt := s.outCnt + BitVec.ofNat 64 xs.dropLast.length } : State).completedInvalid .truncated))) ∧
    (∀ (ys : List Byte) (part rest : Bits) (b : Byte), 2 ≤ (symbolsOf s.freq).length →
      s.input.drop s.inPtr.toNat ≠ [] → ys.length < totalCount s.freq → (∀ y ∈ ys, freqAt s.freq y ≠ 0#64) →
      freqAt s.freq b ≠ 0#64 → codeAt (codesOf s.arena) b = part ++ rest → rest ≠ [] →
      payloadBits (s.input.drop s.inPtr.toNat) = codeBits (codesOf s.arena) ys ++ part →
      exec .unpack s = .next (({ s with
        inPtr := BitVec.ofNat 64 s.input.length, output := s.output ++ (if part = [] then ys.dropLast else ys)
        outCnt := s.outCnt + BitVec.ofNat 64 (if part = [] then ys.dropLast else ys).length }
        : State).completedInvalid .truncated)) ∧
    (∀ xs p q, 2 ≤ (symbolsOf s.freq).length → xs.length = totalCount s.freq → (∀ b ∈ xs, freqAt s.freq b ≠ 0#64) →
      q ≠ [] → s.input.drop s.inPtr.toNat = p ++ q → PayloadOf p (codeBits (codesOf s.arena) xs) →
      ((codeBits (codesOf s.arena) xs).length % 8 ≠ 0 →
        exec .unpack s = .next (({ s with
          inPtr := s.inPtr + BitVec.ofNat 64 p.length, output := s.output ++ xs
          outCnt := s.outCnt + BitVec.ofNat 64 xs.length } : State).completedInvalid .trailing)) ∧
      ((codeBits (codesOf s.arena) xs).length % 8 = 0 → q.length = 1 →
        exec .unpack s = .next ({ s with
          inPtr := BitVec.ofNat 64 s.input.length, output := s.output ++ xs
          outCnt := s.outCnt + BitVec.ofNat 64 xs.length } : State).completedOk) ∧
      ((codeBits (codesOf s.arena) xs).length % 8 = 0 → 2 ≤ q.length →
        exec .unpack s = .next (({ s with
          inPtr := s.inPtr + BitVec.ofNat 64 (p.length + 1), output := s.output ++ xs
          outCnt := s.outCnt + BitVec.ofNat 64 xs.length } : State).completedInvalid .trailing)))

/-- R192, and R196, which the spec derives, for LEGACY_BIT. An empty payload completes OK, whatever the counts. A
payload of all the symbols the table counts, of L code bits, is decoded only if the last symbol is recognised at the
very last bit; with L mod 8 = 0 and several symbols it fails with TRUNCATED after all symbols but the last, in every
other case with TRAILING. With several symbols: a payload cut short fails with TRUNCATED, the last whole symbol being
written only if a bit follows it; whole bytes after a payload fail with TRAILING, in the byte that recognises the last
symbol. -/
def Obligations.LegacyBitOutcomes : Prop :=
  ∀ s : State, s.inUsable = true → s.outUsable = true → s.treeValid = true →
    s.lDecMode = .legacyBit → s.arena = buildArena s.freq → s.inPtr.toNat ≤ s.input.length → s.input.length ≤ 2 ^ 64 - 1 →
    (s.input.drop s.inPtr.toNat = [] → exec .unpack s = .next s.completedOk) ∧
    (∀ xs, xs.length = totalCount s.freq → (∀ b ∈ xs, freqAt s.freq b ≠ 0#64) →
      PayloadOf (s.input.drop s.inPtr.toNat) (codeBits (codesOf s.arena) xs) →
      (xs = [] ∨ ((symbolsOf s.freq).length = 1 ∧ xs.length % 8 = 0) ∨
          (2 ≤ (symbolsOf s.freq).length ∧ (codeBits (codesOf s.arena) xs).length % 8 = 7) →
        exec .unpack s = .next ({ s with
          inPtr := BitVec.ofNat 64 s.input.length, output := s.output ++ xs
          outCnt := s.outCnt + BitVec.ofNat 64 xs.length } : State).completedOk) ∧
      (2 ≤ (symbolsOf s.freq).length → (codeBits (codesOf s.arena) xs).length % 8 = 0 →
        exec .unpack s = .next (({ s with
          inPtr := BitVec.ofNat 64 s.input.length, output := s.output ++ xs.dropLast
          outCnt := s.outCnt + BitVec.ofNat 64 xs.dropLast.length } : State).completedInvalid .truncated)) ∧
      (((symbolsOf s.freq).length = 1 ∧ xs.length % 8 ≠ 0) ∨
          (2 ≤ (symbolsOf s.freq).length ∧ (codeBits (codesOf s.arena) xs).length % 8 ≠ 0 ∧
            (codeBits (codesOf s.arena) xs).length % 8 ≠ 7) →
        exec .unpack s = .next (({ s with
          inPtr := BitVec.ofNat 64 s.input.length, output := s.output ++ xs
          outCnt := s.outCnt + BitVec.ofNat 64 xs.length } : State).completedInvalid .trailing))) ∧
    (∀ (ys : List Byte) (part rest : Bits) (b : Byte), 2 ≤ (symbolsOf s.freq).length →
      s.input.drop s.inPtr.toNat ≠ [] → ys.length < totalCount s.freq → (∀ y ∈ ys, freqAt s.freq y ≠ 0#64) →
      freqAt s.freq b ≠ 0#64 → codeAt (codesOf s.arena) b = part ++ rest → rest ≠ [] →
      payloadBits (s.input.drop s.inPtr.toNat) = codeBits (codesOf s.arena) ys ++ part →
      exec .unpack s = .next (({ s with
        inPtr := BitVec.ofNat 64 s.input.length, output := s.output ++ (if part = [] then ys.dropLast else ys)
        outCnt := s.outCnt + BitVec.ofNat 64 (if part = [] then ys.dropLast else ys).length }
        : State).completedInvalid .truncated)) ∧
    (∀ xs p q, 2 ≤ (symbolsOf s.freq).length → xs.length = totalCount s.freq → (∀ b ∈ xs, freqAt s.freq b ≠ 0#64) →
      q ≠ [] → s.input.drop s.inPtr.toNat = p ++ q → PayloadOf p (codeBits (codesOf s.arena) xs) →
      ((codeBits (codesOf s.arena) xs).length % 8 ≠ 0 →
        exec .unpack s = .next (({ s with
          inPtr := s.inPtr + BitVec.ofNat 64 p.length, output := s.output ++ xs
          outCnt := s.outCnt + BitVec.ofNat 64 xs.length } : State).completedInvalid .trailing)) ∧
      ((codeBits (codesOf s.arena) xs).length % 8 = 0 →
        exec .unpack s = .next (({ s with
          inPtr := s.inPtr + BitVec.ofNat 64 (p.length + 1), output := s.output ++ xs
          outCnt := s.outCnt + BitVec.ofNat 64 xs.length } : State).completedInvalid .trailing)))

/-! ## Compress and decompress -/

/-- R216: COMPRESS fails only on an unusable handle; else it compresses the whole input from its start: the histogram,
the header, the tree, the codes and the payload, and completes OK. That nothing but a handle can fail is R216's
derivation from R217; that its parts keep their own checks is the model's reading (DEDUCED, log 12). -/
def Obligations.CompressCompletes : Prop :=
  ∀ s : State,
    (s.inUsable = false → exec .compress s = .next (s.completedInvalid .inUnusable)) ∧
    (s.inUsable = true → s.outUsable = false → exec .compress s = .next (s.completedInvalid .outUnusable)) ∧
    (s.inUsable = true → s.outUsable = true → s.input.length ≤ 2 ^ 64 - 1 →
      ∃ f p k, CountsOf f s.input ∧ k < 8 ∧
        payloadBits p = codeBits (codesOf (buildArena f)) s.input ++ List.replicate k false ∧
        p.length = ((codeBits (codesOf (buildArena f)) s.input).length + 7) / 8 ∧
        exec .compress s = .next ({ s with
          freq := f, arena := buildArena f, codes := codesOf (buildArena f), treeValid := true, codeValid := true
          inPtr := BitVec.ofNat 64 s.input.length, output := s.output ++ headerOf s.lHdrBe f ++ p
          outCnt := s.outCnt + BitVec.ofNat 64 (2048 + p.length) } : State).completedOk)

/-- R220 items 2 and 3, which the spec derives: COMPRESS of an empty input writes 2048 zero bytes and no payload;
COMPRESS of N copies of one byte writes the header and ⌈N/8⌉ payload bytes of 0x00. -/
def Obligations.DegenerateCompression : Prop :=
  ∀ s : State, s.inUsable = true → s.outUsable = true →
    (s.input = [] → ∃ t, exec .compress s = .next t ∧ t.statusCode = .ok ∧ t.arena = [] ∧
      t.output = s.output ++ List.replicate 2048 0#8) ∧
    (∀ (N : Nat) (b : Byte), 1 ≤ N → N ≤ 2 ^ 64 - 1 → s.input = List.replicate N b →
      ∃ t hdr, exec .compress s = .next t ∧ t.statusCode = .ok ∧ hdr.length = 2048 ∧
        (∀ k, k < 8 → hdr[8 * b.toNat + k]? =
          some ((BitVec.ofNat 64 N).extractLsb' (if s.lHdrBe then 56 - 8 * k else 8 * k) 8)) ∧
        (∀ (c : Byte) (k : Nat), c ≠ b → k < 8 → hdr[8 * c.toNat + k]? = some 0#8) ∧
        t.output = s.output ++ hdr ++ List.replicate ((N + 7) / 8) 0#8)

/-- R218: DECOMPRESS's failures before the decoder, in their order. -/
def Obligations.DecompressFailures : Prop :=
  ∀ s : State,
    (s.inUsable = false → exec .decompress s = .next (s.completedInvalid .inUnusable)) ∧
    (s.inUsable = true → s.outUsable = false → exec .decompress s = .next (s.completedInvalid .outUnusable)) ∧
    (s.inUsable = true → s.outUsable = true → s.input.length < 2048 →
      exec .decompress s =
        .next (({ s with inPtr := BitVec.ofNat 64 s.input.length } : State).completedInvalid .hdrShort)) ∧
    (∀ f rest, s.inUsable = true → s.outUsable = true → s.input = headerOf s.lHdrBe f ++ rest →
      2 ^ 64 ≤ totalCount f →
      exec .decompress s = .next (({ s with
        freq := f, arena := [], treeValid := false, codeValid := false, inPtr := 2048#64 }
        : State).completedInvalid .weightOverflow))

/-- R218: DECOMPRESS of a header that loads, in all three modes, is UNPACK of the payload after it with FREQ, ARENA
and the valid bits the header's, TREE_VALID = 1 and CODE_VALID = 0. Whatever the payload, it completes OK or with
TRUNCATED or TRAILING, with those tables, the symbols decoded appended to OUT, IN_PTR after the bytes read (all of
them but in TRAILING), and no more symbols than the header counts. A payload of the symbols the header counts is
decoded under EXACT (R191), and an empty payload completes OK under the legacy modes (R192). -/
def Obligations.DecompressDecodes : Prop :=
  ∀ (s : State) (f : FreqTable) (p : List Byte), s.inUsable = true → s.outUsable = true →
    s.input = headerOf s.lHdrBe f ++ p → totalCount f < 2 ^ 64 →
    exec .decompress s = exec .unpack { s with
      freq := f, arena := buildArena f, treeValid := true, codeValid := false, inPtr := 2048#64 } ∧
    (∃ ys k c, c ∈ [Cause.noCause, .truncated, .trailing] ∧ k ≤ p.length ∧ (c ≠ .trailing → k = p.length) ∧
      ys.length ≤ totalCount f ∧
      exec .decompress s = .next (({ s with
        freq := f, arena := buildArena f, treeValid := true, codeValid := false
        inPtr := BitVec.ofNat 64 (2048 + k), output := s.output ++ ys
        outCnt := s.outCnt + BitVec.ofNat 64 ys.length } : State).completed c.code c
          (if c = .noCause then 0#64 else BitVec.ofNat 64 (2048 + k)))) ∧
    (∀ xs : List Byte, s.lDecMode = .exact → xs.length = totalCount f → (∀ b ∈ xs, freqAt f b ≠ 0#64) →
      PayloadOf p (codeBits (codesOf (buildArena f)) xs) →
      exec .decompress s = .next ({ s with
        freq := f, arena := buildArena f, treeValid := true, codeValid := false
        inPtr := BitVec.ofNat 64 s.input.length, output := s.output ++ xs
        outCnt := s.outCnt + BitVec.ofNat 64 xs.length } : State).completedOk) ∧
    (s.lDecMode ≠ .exact → p = [] →
      exec .decompress s = .next ({ s with
        freq := f, arena := buildArena f, treeValid := true, codeValid := false, inPtr := 2048#64 }
        : State).completedOk)

/-- R219, which the spec derives from R216 and R218: for every input, COMPRESS completes OK, and DECOMPRESS of its
output, with the same byte order and EXACT, completes OK and gives the input back. -/
def Obligations.CompressDecompressRoundTrip : Prop :=
  ∀ s : State, s.inUsable = true → s.outUsable = true → s.input.length ≤ 2 ^ 64 - 1 → s.output = [] →
    ∃ t, exec .compress s = .next t ∧ t.statusCode = .ok ∧
      ∀ u : State, u.inUsable = true → u.outUsable = true → u.input = t.output → u.output = [] →
        u.lHdrBe = s.lHdrBe → u.lDecMode = .exact →
        ∃ v, exec .decompress u = .next v ∧ v.statusCode = .ok ∧ v.output = s.input

/-- R220 items 4 and 5, which the spec derives: a COMPRESS output that has a payload, with its last byte removed,
fails in DECOMPRESS with TRUNCATED; with bytes appended, it fails with TRAILING (EXACT, same byte order). -/
def Obligations.DamagedFilesAreRejected : Prop :=
  ∀ s t : State, s.inUsable = true → s.outUsable = true → s.input.length ≤ 2 ^ 64 - 1 → s.output = [] →
    s.input ≠ [] → exec .compress s = .next t →
    ∀ u : State, u.inUsable = true → u.outUsable = true → u.lHdrBe = s.lHdrBe → u.lDecMode = .exact →
      (u.input = t.output.dropLast →
        ∃ v, exec .decompress u = .next v ∧ v.statusCode = .invalidArguments ∧ v.statusCause = .truncated) ∧
      (∀ extra, extra ≠ [] → u.input = t.output ++ extra →
        ∃ v, exec .decompress u = .next v ∧ v.statusCode = .invalidArguments ∧ v.statusCause = .trailing)

/-! ## CSR access -/

/-- R36, R34, R262, R263: the fields of STATUS and CTRL as the host reads them while BUSY = 0, and the numbers of the
status codes and causes. -/
def Obligations.StatusAndControlFields : Prop :=
  (StatusCode.ok.toField = 0#4 ∧ StatusCode.invalidArguments.toField = 1#4 ∧
    StatusCode.illegalCommand.toField = 2#4 ∧ StatusCode.sequenceError.toField = 3#4) ∧
  (Cause.noCause.toField = 0#8 ∧ Cause.inUnusable.toField = 1#8 ∧ Cause.outUnusable.toField = 2#8 ∧
    Cause.hdrShort.toField = 3#8 ∧ Cause.weightOverflow.toField = 4#8 ∧ Cause.noCode.toField = 5#8 ∧
    Cause.truncated.toField = 6#8 ∧ Cause.trailing.toField = 7#8 ∧ Cause.noTree.toField = 8#8 ∧
    Cause.noCodeTable.toField = 9#8 ∧ Cause.badOpcode.toField = 10#8 ∧ Cause.reservedBits.toField = 11#8) ∧
  ∀ (s : State) (t : Nat), s.pending = none →
    (∃ v, ReadsAs s 0x0C t v ∧ v.getLsbD 0 = false ∧ v.getLsbD 1 = s.done ∧ v.getLsbD 2 = s.overrun ∧
      v.getLsbD 3 = false ∧ v.extractLsb' 4 4 = s.statusCode.toField ∧ v.extractLsb' 8 8 = s.statusCause.toField ∧
      v.getLsbD 16 = s.treeValid ∧ v.getLsbD 17 = s.codeValid ∧ v.getLsbD 18 = s.inUsable ∧
      v.getLsbD 19 = s.outUsable ∧ v.getLsbD 20 = (s.done && s.irqEn) ∧ v.extractLsb' 21 11 = 0#11) ∧
    (∃ v, ReadsAs s 0x04 t v ∧ v.getLsbD 0 = s.irqEn ∧
      v.extractLsb' 1 2 = (match s.decMode with | .exact => 0#2 | .legacyByte => 1#2 | .legacyBit => 2#2) ∧
      v.getLsbD 3 = s.hdrBe ∧ v.extractLsb' 4 28 = 0#28)

/-- R33, R35, R38 to R41, R45, R46, R57, R84: the constant, pointer, count and index registers, and the unmapped
offsets, as the host reads them while BUSY = 0. -/
def Obligations.IdleRegisterReads : Prop :=
  ∀ (s : State) (t : Nat), s.pending = none →
    ReadsAs s 0x00 t 0x48554646#32 ∧ ReadsAs s 0x08 t 0#32 ∧
    ReadsAs s 0x10 t (s.info.extractLsb' 0 32) ∧ ReadsAs s 0x14 t (s.info.extractLsb' 32 32) ∧
    ReadsAs s 0x18 t (s.inPtr.extractLsb' 0 32) ∧ ReadsAs s 0x1C t (s.inPtr.extractLsb' 32 32) ∧
    ReadsAs s 0x20 t ((BitVec.ofNat 64 s.input.length).extractLsb' 0 32) ∧
    ReadsAs s 0x24 t ((BitVec.ofNat 64 s.input.length).extractLsb' 32 32) ∧
    ReadsAs s 0x28 t (s.outCnt.extractLsb' 0 32) ∧ ReadsAs s 0x2C t (s.outCnt.extractLsb' 32 32) ∧
    ReadsAs s 0x40 t (s.freqIdx.setWidth 32) ∧
    ReadsAs s 0x44 t ((freqAt s.freq s.freqIdx).extractLsb' 0 32) ∧
    ReadsAs s 0x48 t ((freqAt s.freq s.freqIdx).extractLsb' 32 32) ∧
    ReadsAs s 0x50 t (s.nodeIdx.setWidth 32) ∧ ReadsAs s 0x70 t (s.codeIdx.setWidth 32) ∧
    ReadsAs s 0x78 t (s.codeWsel.setWidth 32) ∧
    (∀ off, off = 0x4C ∨ off = 0x6C ∨ (0x80 ≤ off ∧ off < 0x100 ∧ off % 4 = 0) → ReadsAs s off t 0#32)

/-- R42, R43, R44, R132: TOTAL, HIST_INFO and TREE_INFO while BUSY = 0. -/
def Obligations.SummaryRegisterReads : Prop :=
  ∀ (s : State) (t : Nat), s.pending = none →
    ReadsAs s 0x30 t (BitVec.ofNat 32 (totalCount s.freq)) ∧
    ReadsAs s 0x34 t (BitVec.ofNat 32 (totalCount s.freq / 2 ^ 32)) ∧
    (∃ v, ReadsAs s 0x38 t v ∧ (v.extractLsb' 0 9).toNat = (symbolsOf s.freq).length ∧
      v.extractLsb' 9 7 = 0#7 ∧ (v.getLsbD 16 = true ↔ 2 ^ 64 ≤ totalCount s.freq) ∧ v.extractLsb' 17 15 = 0#15) ∧
    (s.arena.length ≤ 511 → ∃ v, ReadsAs s 0x3C t v ∧ (v.extractLsb' 0 10).toNat = s.arena.length ∧
      v.extractLsb' 10 6 = 0#6 ∧ (v.extractLsb' 16 9).toNat = s.arena.length - 1 ∧ v.extractLsb' 25 7 = 0#7)

/-- R47 to R52: the node window while BUSY = 0: a leaf, an internal node, and an index at or beyond NODES. -/
def Obligations.NodeWindowReads : Prop :=
  ∀ (s : State) (t : Nat), s.pending = none →
    (∀ a w q, s.arena[s.nodeIdx.toNat]? = some (.leaf a w q) →
      ReadsAs s 0x54 t (0x80000000#32 ||| (a.setWidth 32 <<< 8)) ∧ ReadsAs s 0x58 t (q.setWidth 32) ∧
      ReadsAs s 0x5C t 0#32 ∧ ReadsAs s 0x60 t 0#32 ∧
      ReadsAs s 0x64 t (w.extractLsb' 0 32) ∧ ReadsAs s 0x68 t (w.extractLsb' 32 32)) ∧
    (∀ w q l r, s.arena[s.nodeIdx.toNat]? = some (.internal w q l r) →
      ReadsAs s 0x54 t 0x80000001#32 ∧ ReadsAs s 0x58 t (q.setWidth 32) ∧
      ReadsAs s 0x5C t (l.setWidth 32) ∧ ReadsAs s 0x60 t (r.setWidth 32) ∧
      ReadsAs s 0x64 t (w.extractLsb' 0 32) ∧ ReadsAs s 0x68 t (w.extractLsb' 32 32)) ∧
    (s.arena.length ≤ s.nodeIdx.toNat →
      ReadsAs s 0x54 t 0#32 ∧ ReadsAs s 0x58 t 0#32 ∧ ReadsAs s 0x5C t 0#32 ∧ ReadsAs s 0x60 t 0#32 ∧
      ReadsAs s 0x64 t 0#32 ∧ ReadsAs s 0x68 t 0#32)

/-- R54, R56: CODE_LEN and CODE_BITS while BUSY = 0: bit 31 - j of word w is `c[32w + j]`, and 0 beyond the code. -/
def Obligations.CodeWindowReads : Prop :=
  ∀ (s : State) (t : Nat), s.pending = none →
    ReadsAs s 0x74 t (BitVec.ofNat 32 (codeAt s.codes s.codeIdx).length) ∧
    ∃ v, ReadsAs s 0x7C t v ∧ ∀ j, j < 32 →
      v.getLsbD (31 - j) = ((codeAt s.codes s.codeIdx)[32 * s.codeWsel.toNat + j]?).getD false

/-- R65, R241, R57: while BUSY = 1 the result registers read a free draw (Config.freeWord at the draw counter, log 6),
STATUS reads one in CODE, CAUSE, TREE_VALID and CODE_VALID only, ID, CTRL, CMD, IN_LEN and the index registers read
their values, and the unmapped offsets read 0. -/
def Obligations.BusyReads : Prop :=
  ∀ (s : State) (t : Nat), s.pending ≠ none →
    (∀ off ∈ [0x10, 0x14, 0x18, 0x1C, 0x28, 0x2C, 0x30, 0x34, 0x38, 0x3C, 0x44, 0x48,
              0x54, 0x58, 0x5C, 0x60, 0x64, 0x68, 0x74, 0x7C], DrawsAs s off t (Config.freeWord s.draws)) ∧
    (∃ v, DrawsAs s 0x0C t v ∧ v.getLsbD 0 = true ∧ v.getLsbD 1 = s.done ∧ v.getLsbD 2 = s.overrun ∧
      v.getLsbD 3 = false ∧ v.extractLsb' 4 14 = (Config.freeWord s.draws).extractLsb' 4 14 ∧
      v.getLsbD 18 = s.inUsable ∧ v.getLsbD 19 = s.outUsable ∧ v.getLsbD 20 = (s.done && s.irqEn) ∧
      v.extractLsb' 21 11 = 0#11) ∧
    ReadsAs s 0x00 t 0x48554646#32 ∧ ReadsAs s 0x04 t s.ctrlWord ∧ ReadsAs s 0x08 t 0#32 ∧
    ReadsAs s 0x20 t ((BitVec.ofNat 64 s.input.length).extractLsb' 0 32) ∧
    ReadsAs s 0x24 t ((BitVec.ofNat 64 s.input.length).extractLsb' 32 32) ∧
    ReadsAs s 0x40 t (s.freqIdx.setWidth 32) ∧ ReadsAs s 0x50 t (s.nodeIdx.setWidth 32) ∧
    ReadsAs s 0x70 t (s.codeIdx.setWidth 32) ∧ ReadsAs s 0x78 t (s.codeWsel.setWidth 32) ∧
    (∀ off, off = 0x4C ∨ off = 0x6C ∨ (0x80 ≤ off ∧ off < 0x100 ∧ off % 4 = 0) → ReadsAs s off t 0#32)

/-- R239, R240: a CMD write while BUSY = 0 is accepted, latching the word and the CTRL fields; while BUSY = 1 it is
dropped and sets OVERRUN. -/
def Obligations.IssueAndOverrun : Prop :=
  ∀ (s : State) (v : Word),
    (s.pending = none → WritesAs s 0x08 v { s with
      pending := some v, lDecMode := s.decMode, lHdrBe := s.hdrBe, done := false }) ∧
    (s.pending ≠ none → WritesAs s 0x08 v { s with overrun := true })

/-- R243, R244, R245, R242: what a write of any other register does. CTRL stores a DEC_MODE of 3 as 0; STATUS clears
DONE and OVERRUN by writing 1; the index registers keep their low bits; every other write is ignored. -/
def Obligations.RegisterWrites : Prop :=
  ∀ (s : State) (v : Word),
    WritesAs s 0x04 v { s with
      irqEn := v.getLsbD 0
      decMode := (if v.extractLsb' 1 2 = 1#2 then .legacyByte else if v.extractLsb' 1 2 = 2#2 then .legacyBit else .exact)
      hdrBe := v.getLsbD 3 } ∧
    WritesAs s 0x0C v { s with
      done := (if v.getLsbD 1 then false else s.done), overrun := (if v.getLsbD 2 then false else s.overrun) } ∧
    WritesAs s 0x40 v { s with freqIdx := v.extractLsb' 0 8 } ∧
    WritesAs s 0x50 v { s with nodeIdx := v.extractLsb' 0 9 } ∧
    WritesAs s 0x70 v { s with codeIdx := v.extractLsb' 0 8 } ∧
    WritesAs s 0x78 v { s with codeWsel := v.extractLsb' 0 3 } ∧
    (∀ off, off % 4 = 0 → off < 0x100 → off ∉ [0x04, 0x08, 0x0C, 0x40, 0x50, 0x70, 0x78] → WritesAs s off v s)

/-- R246, R247, R248, R297: binding, the usable signals and the OUT read while BUSY = 0; while BUSY = 1 the first two
are no host moves (refused, the model's choice, log 9), and the OUT read gives a free draw (log 6). -/
def Obligations.StreamActions : Prop :=
  ∀ (s : State) (bytes : List Byte) (x y : Bool),
    (s.pending = none → bytes.length ≤ 2 ^ 64 - 1 → execHost (.bindIn bytes) s =
      .next { s with input := bytes, inPtr := 0#64, host := { s.host with pc := s.host.pc + 1 } }) ∧
    (s.pending = none → execHost .bindOut s =
      .next { s with output := [], outCnt := 0#64, host := { s.host with pc := s.host.pc + 1 } }) ∧
    (s.pending = none → execHost (.usable x y) s =
      .next { s with inUsable := x, outUsable := y, host := { s.host with pc := s.host.pc + 1 } }) ∧
    (s.pending = none → execHost .readOut s =
      .next { s with host := { s.host with pc := s.host.pc + 1, outView := s.output } }) ∧
    (s.pending ≠ none → execHost (.bindIn bytes) s = .refused .streamMoveWhileBusy ∧
      execHost .bindOut s = .refused .streamMoveWhileBusy ∧
      execHost (.usable x y) s = .refused .streamMoveWhileBusy ∧
      execHost .readOut s = .next { s with
        host := { s.host with pc := s.host.pc + 1, outView := Config.freeBytes s.draws }, draws := s.draws + 1 })

/-- R118, R119, and R120, which the spec derives: the host's branches on a temporary, the expansions of the pseudo
forms, and the encoding of host programs: one record for each CSR access and each host action, in program order, none
for control flow; for `run COMPRESS`, the write of 0x80 to CMD and then reads of STATUS, as many as the host makes
until BUSY = 0, when it polls n times before the core moves. Labels as step indices, written-out access widths and the
record of an OUT read are the model's choice (log 10), so are the turns (log 3) and the record of a reset (log 5). -/
def Obligations.HostProgramForms : Prop :=
  (∀ (s : State) (t target : Nat) (m v : Word),
    execHost (.beq t m v target) s = .next { s with host := { s.host with
      pc := if tempGet s.host.temps t &&& m = v then target else s.host.pc + 1 } } ∧
    execHost (.bne t m v target) s = .next { s with host := { s.host with
      pc := if tempGet s.host.temps t &&& m = v then s.host.pc + 1 else target } }) ∧
  (∀ i, pseudoIssue i = [.wr 0x08 4 (encode i)]) ∧
  (∀ k t, pseudoWait k t = [.rd 0x0C 4 t, .bne t 0x1#32 0x0#32 k]) ∧
  (∀ k t i, pseudoRun k t i = [.wr 0x08 4 (encode i), .rd 0x0C 4 t, .bne t 0x1#32 0x0#32 (k + 1)]) ∧
  pseudoAck = [.wr 0x0C 4 0x6#32] ∧
  (∀ off a b, pseudoRd64 off a b = [.rd off 4 a, .rd (off + 4) 4 b]) ∧
  (∀ p q, encodeProgram (p ++ q) = encodeProgram p ++ encodeProgram q) ∧
  (∀ (off width t target : Nat) (m v : Word) (bytes : List Byte) (x y : Bool),
    encodeProgram [.wr off width v] = [.w off v] ∧ encodeProgram [.rd off width t] = [.r off] ∧
    encodeProgram [.bindIn bytes] = [.bindIn bytes] ∧ encodeProgram [.bindOut] = [.bindOut] ∧
    encodeProgram [.usable x y] = [.usable x y] ∧ encodeProgram [.readOut] = [.readOut] ∧
    encodeProgram [.hardReset] = [.hardReset] ∧ encodeProgram [.beq t m v target] = [] ∧
    encodeProgram [.bne t m v target] = [] ∧ encodeProgram [.halt] = []) ∧
  encodeProgram (pseudoRun 0 0 .compress) = [.w 0x08 0x00000080#32, .r 0x0C] ∧
  ∀ (n : Nat) (input output : List Byte) (x y : Bool),
    performedRecords (2 * n + 4) { State.launch input output x y (pseudoRun 0 0 .compress) with
      turns := List.replicate (2 * n + 1) .host ++ [.core] } =
      .w 0x08 0x00000080#32 :: List.replicate (n + 1) (.r 0x0C)

/-- R268: the interrupt output is DONE and IRQ_EN; a completion raises it when enabled, and a write of 1 to DONE, an
accepted issue or IRQ_EN = 0 clears it. -/
def Obligations.InterruptOutput : Prop :=
  (∀ s : State, s.irq = true ↔ s.done = true ∧ s.irqEn = true) ∧
  (∀ (i : Instr) (s t : State), exec i s = .next t → t.irq = s.irqEn) ∧
  (∀ (s t : State) (v : Word), execHost (.wr 0x0C 4 v) s = .next t → v.getLsbD 1 = true → t.irq = false) ∧
  (∀ (s t : State) (v : Word), s.pending = none → execHost (.wr 0x08 4 v) s = .next t → t.irq = false) ∧
  (∀ (s t : State) (v : Word), execHost (.wr 0x04 4 v) s = .next t → v.getLsbD 0 = false → t.irq = false)
end

