-- ==== Sys2Proof/Laws/State.lean ====
section
/-! SUPPORT. One lemma per field of State for each named update, each true by `rfl`: no later proof unfolds an update. -/

namespace Sys2Proof.Machine

/-! ### InRead advances IN_PTR and changes nothing else (R90). -/

@[simp] theorem State.consume_irqEn (s : State) : s.consume.irqEn = s.irqEn := rfl
@[simp] theorem State.consume_decMode (s : State) : s.consume.decMode = s.decMode := rfl
@[simp] theorem State.consume_hdrBe (s : State) : s.consume.hdrBe = s.hdrBe := rfl
@[simp] theorem State.consume_done (s : State) : s.consume.done = s.done := rfl
@[simp] theorem State.consume_overrun (s : State) : s.consume.overrun = s.overrun := rfl
@[simp] theorem State.consume_statusCode (s : State) : s.consume.statusCode = s.statusCode := rfl
@[simp] theorem State.consume_statusCause (s : State) : s.consume.statusCause = s.statusCause := rfl
@[simp] theorem State.consume_treeValid (s : State) : s.consume.treeValid = s.treeValid := rfl
@[simp] theorem State.consume_codeValid (s : State) : s.consume.codeValid = s.codeValid := rfl
@[simp] theorem State.consume_info (s : State) : s.consume.info = s.info := rfl
@[simp] theorem State.consume_inPtr (s : State) : s.consume.inPtr = s.inPtr + 1#64 := rfl
@[simp] theorem State.consume_outCnt (s : State) : s.consume.outCnt = s.outCnt := rfl
@[simp] theorem State.consume_freq (s : State) : s.consume.freq = s.freq := rfl
@[simp] theorem State.consume_arena (s : State) : s.consume.arena = s.arena := rfl
@[simp] theorem State.consume_codes (s : State) : s.consume.codes = s.codes := rfl
@[simp] theorem State.consume_freqIdx (s : State) : s.consume.freqIdx = s.freqIdx := rfl
@[simp] theorem State.consume_nodeIdx (s : State) : s.consume.nodeIdx = s.nodeIdx := rfl
@[simp] theorem State.consume_codeIdx (s : State) : s.consume.codeIdx = s.codeIdx := rfl
@[simp] theorem State.consume_codeWsel (s : State) : s.consume.codeWsel = s.codeWsel := rfl
@[simp] theorem State.consume_pending (s : State) : s.consume.pending = s.pending := rfl
@[simp] theorem State.consume_lDecMode (s : State) : s.consume.lDecMode = s.lDecMode := rfl
@[simp] theorem State.consume_lHdrBe (s : State) : s.consume.lHdrBe = s.lHdrBe := rfl
@[simp] theorem State.consume_input (s : State) : s.consume.input = s.input := rfl
@[simp] theorem State.consume_output (s : State) : s.consume.output = s.output := rfl
@[simp] theorem State.consume_inUsable (s : State) : s.consume.inUsable = s.inUsable := rfl
@[simp] theorem State.consume_outUsable (s : State) : s.consume.outUsable = s.outUsable := rfl
@[simp] theorem State.consume_host (s : State) : s.consume.host = s.host := rfl
@[simp] theorem State.consume_turns (s : State) : s.consume.turns = s.turns := rfl
@[simp] theorem State.consume_rounds (s : State) : s.consume.rounds = s.rounds := rfl
@[simp] theorem State.consume_draws (s : State) : s.consume.draws = s.draws := rfl

/-! ### A rewind writes IN_PTR only (R238). -/

@[simp] theorem State.rewind_irqEn (s : State) : s.rewind.irqEn = s.irqEn := rfl
@[simp] theorem State.rewind_decMode (s : State) : s.rewind.decMode = s.decMode := rfl
@[simp] theorem State.rewind_hdrBe (s : State) : s.rewind.hdrBe = s.hdrBe := rfl
@[simp] theorem State.rewind_done (s : State) : s.rewind.done = s.done := rfl
@[simp] theorem State.rewind_overrun (s : State) : s.rewind.overrun = s.overrun := rfl
@[simp] theorem State.rewind_statusCode (s : State) : s.rewind.statusCode = s.statusCode := rfl
@[simp] theorem State.rewind_statusCause (s : State) : s.rewind.statusCause = s.statusCause := rfl
@[simp] theorem State.rewind_treeValid (s : State) : s.rewind.treeValid = s.treeValid := rfl
@[simp] theorem State.rewind_codeValid (s : State) : s.rewind.codeValid = s.codeValid := rfl
@[simp] theorem State.rewind_info (s : State) : s.rewind.info = s.info := rfl
@[simp] theorem State.rewind_inPtr (s : State) : s.rewind.inPtr = 0#64 := rfl
@[simp] theorem State.rewind_outCnt (s : State) : s.rewind.outCnt = s.outCnt := rfl
@[simp] theorem State.rewind_freq (s : State) : s.rewind.freq = s.freq := rfl
@[simp] theorem State.rewind_arena (s : State) : s.rewind.arena = s.arena := rfl
@[simp] theorem State.rewind_codes (s : State) : s.rewind.codes = s.codes := rfl
@[simp] theorem State.rewind_freqIdx (s : State) : s.rewind.freqIdx = s.freqIdx := rfl
@[simp] theorem State.rewind_nodeIdx (s : State) : s.rewind.nodeIdx = s.nodeIdx := rfl
@[simp] theorem State.rewind_codeIdx (s : State) : s.rewind.codeIdx = s.codeIdx := rfl
@[simp] theorem State.rewind_codeWsel (s : State) : s.rewind.codeWsel = s.codeWsel := rfl
@[simp] theorem State.rewind_pending (s : State) : s.rewind.pending = s.pending := rfl
@[simp] theorem State.rewind_lDecMode (s : State) : s.rewind.lDecMode = s.lDecMode := rfl
@[simp] theorem State.rewind_lHdrBe (s : State) : s.rewind.lHdrBe = s.lHdrBe := rfl
@[simp] theorem State.rewind_input (s : State) : s.rewind.input = s.input := rfl
@[simp] theorem State.rewind_output (s : State) : s.rewind.output = s.output := rfl
@[simp] theorem State.rewind_inUsable (s : State) : s.rewind.inUsable = s.inUsable := rfl
@[simp] theorem State.rewind_outUsable (s : State) : s.rewind.outUsable = s.outUsable := rfl
@[simp] theorem State.rewind_host (s : State) : s.rewind.host = s.host := rfl
@[simp] theorem State.rewind_turns (s : State) : s.rewind.turns = s.turns := rfl
@[simp] theorem State.rewind_rounds (s : State) : s.rewind.rounds = s.rounds := rfl
@[simp] theorem State.rewind_draws (s : State) : s.rewind.draws = s.draws := rfl

/-! ### OutWrite appends to OUT and counts (R91). -/

@[simp] theorem State.outWrite_irqEn (s : State) (b : Byte) : (s.outWrite b).irqEn = s.irqEn := rfl
@[simp] theorem State.outWrite_decMode (s : State) (b : Byte) : (s.outWrite b).decMode = s.decMode := rfl
@[simp] theorem State.outWrite_hdrBe (s : State) (b : Byte) : (s.outWrite b).hdrBe = s.hdrBe := rfl
@[simp] theorem State.outWrite_done (s : State) (b : Byte) : (s.outWrite b).done = s.done := rfl
@[simp] theorem State.outWrite_overrun (s : State) (b : Byte) : (s.outWrite b).overrun = s.overrun := rfl
@[simp] theorem State.outWrite_statusCode (s : State) (b : Byte) : (s.outWrite b).statusCode = s.statusCode := rfl
@[simp] theorem State.outWrite_statusCause (s : State) (b : Byte) : (s.outWrite b).statusCause = s.statusCause := rfl
@[simp] theorem State.outWrite_treeValid (s : State) (b : Byte) : (s.outWrite b).treeValid = s.treeValid := rfl
@[simp] theorem State.outWrite_codeValid (s : State) (b : Byte) : (s.outWrite b).codeValid = s.codeValid := rfl
@[simp] theorem State.outWrite_info (s : State) (b : Byte) : (s.outWrite b).info = s.info := rfl
@[simp] theorem State.outWrite_inPtr (s : State) (b : Byte) : (s.outWrite b).inPtr = s.inPtr := rfl
@[simp] theorem State.outWrite_outCnt (s : State) (b : Byte) : (s.outWrite b).outCnt = s.outCnt + 1#64 := rfl
@[simp] theorem State.outWrite_freq (s : State) (b : Byte) : (s.outWrite b).freq = s.freq := rfl
@[simp] theorem State.outWrite_arena (s : State) (b : Byte) : (s.outWrite b).arena = s.arena := rfl
@[simp] theorem State.outWrite_codes (s : State) (b : Byte) : (s.outWrite b).codes = s.codes := rfl
@[simp] theorem State.outWrite_freqIdx (s : State) (b : Byte) : (s.outWrite b).freqIdx = s.freqIdx := rfl
@[simp] theorem State.outWrite_nodeIdx (s : State) (b : Byte) : (s.outWrite b).nodeIdx = s.nodeIdx := rfl
@[simp] theorem State.outWrite_codeIdx (s : State) (b : Byte) : (s.outWrite b).codeIdx = s.codeIdx := rfl
@[simp] theorem State.outWrite_codeWsel (s : State) (b : Byte) : (s.outWrite b).codeWsel = s.codeWsel := rfl
@[simp] theorem State.outWrite_pending (s : State) (b : Byte) : (s.outWrite b).pending = s.pending := rfl
@[simp] theorem State.outWrite_lDecMode (s : State) (b : Byte) : (s.outWrite b).lDecMode = s.lDecMode := rfl
@[simp] theorem State.outWrite_lHdrBe (s : State) (b : Byte) : (s.outWrite b).lHdrBe = s.lHdrBe := rfl
@[simp] theorem State.outWrite_input (s : State) (b : Byte) : (s.outWrite b).input = s.input := rfl
@[simp] theorem State.outWrite_output (s : State) (b : Byte) : (s.outWrite b).output = s.output ++ [b] := rfl
@[simp] theorem State.outWrite_inUsable (s : State) (b : Byte) : (s.outWrite b).inUsable = s.inUsable := rfl
@[simp] theorem State.outWrite_outUsable (s : State) (b : Byte) : (s.outWrite b).outUsable = s.outUsable := rfl
@[simp] theorem State.outWrite_host (s : State) (b : Byte) : (s.outWrite b).host = s.host := rfl
@[simp] theorem State.outWrite_turns (s : State) (b : Byte) : (s.outWrite b).turns = s.turns := rfl
@[simp] theorem State.outWrite_rounds (s : State) (b : Byte) : (s.outWrite b).rounds = s.rounds := rfl
@[simp] theorem State.outWrite_draws (s : State) (b : Byte) : (s.outWrite b).draws = s.draws := rfl

/-! ### OutWrite of a list (R91). -/

@[simp] theorem State.outWriteAll_irqEn (s : State) (bs : List Byte) : (s.outWriteAll bs).irqEn = s.irqEn := rfl
@[simp] theorem State.outWriteAll_decMode (s : State) (bs : List Byte) : (s.outWriteAll bs).decMode = s.decMode := rfl
@[simp] theorem State.outWriteAll_hdrBe (s : State) (bs : List Byte) : (s.outWriteAll bs).hdrBe = s.hdrBe := rfl
@[simp] theorem State.outWriteAll_done (s : State) (bs : List Byte) : (s.outWriteAll bs).done = s.done := rfl
@[simp] theorem State.outWriteAll_overrun (s : State) (bs : List Byte) : (s.outWriteAll bs).overrun = s.overrun := rfl
@[simp] theorem State.outWriteAll_statusCode (s : State) (bs : List Byte) : (s.outWriteAll bs).statusCode = s.statusCode := rfl
@[simp] theorem State.outWriteAll_statusCause (s : State) (bs : List Byte) : (s.outWriteAll bs).statusCause = s.statusCause := rfl
@[simp] theorem State.outWriteAll_treeValid (s : State) (bs : List Byte) : (s.outWriteAll bs).treeValid = s.treeValid := rfl
@[simp] theorem State.outWriteAll_codeValid (s : State) (bs : List Byte) : (s.outWriteAll bs).codeValid = s.codeValid := rfl
@[simp] theorem State.outWriteAll_info (s : State) (bs : List Byte) : (s.outWriteAll bs).info = s.info := rfl
@[simp] theorem State.outWriteAll_inPtr (s : State) (bs : List Byte) : (s.outWriteAll bs).inPtr = s.inPtr := rfl
@[simp] theorem State.outWriteAll_outCnt (s : State) (bs : List Byte) : (s.outWriteAll bs).outCnt = s.outCnt + BitVec.ofNat 64 bs.length := rfl
@[simp] theorem State.outWriteAll_freq (s : State) (bs : List Byte) : (s.outWriteAll bs).freq = s.freq := rfl
@[simp] theorem State.outWriteAll_arena (s : State) (bs : List Byte) : (s.outWriteAll bs).arena = s.arena := rfl
@[simp] theorem State.outWriteAll_codes (s : State) (bs : List Byte) : (s.outWriteAll bs).codes = s.codes := rfl
@[simp] theorem State.outWriteAll_freqIdx (s : State) (bs : List Byte) : (s.outWriteAll bs).freqIdx = s.freqIdx := rfl
@[simp] theorem State.outWriteAll_nodeIdx (s : State) (bs : List Byte) : (s.outWriteAll bs).nodeIdx = s.nodeIdx := rfl
@[simp] theorem State.outWriteAll_codeIdx (s : State) (bs : List Byte) : (s.outWriteAll bs).codeIdx = s.codeIdx := rfl
@[simp] theorem State.outWriteAll_codeWsel (s : State) (bs : List Byte) : (s.outWriteAll bs).codeWsel = s.codeWsel := rfl
@[simp] theorem State.outWriteAll_pending (s : State) (bs : List Byte) : (s.outWriteAll bs).pending = s.pending := rfl
@[simp] theorem State.outWriteAll_lDecMode (s : State) (bs : List Byte) : (s.outWriteAll bs).lDecMode = s.lDecMode := rfl
@[simp] theorem State.outWriteAll_lHdrBe (s : State) (bs : List Byte) : (s.outWriteAll bs).lHdrBe = s.lHdrBe := rfl
@[simp] theorem State.outWriteAll_input (s : State) (bs : List Byte) : (s.outWriteAll bs).input = s.input := rfl
@[simp] theorem State.outWriteAll_output (s : State) (bs : List Byte) : (s.outWriteAll bs).output = s.output ++ bs := rfl
@[simp] theorem State.outWriteAll_inUsable (s : State) (bs : List Byte) : (s.outWriteAll bs).inUsable = s.inUsable := rfl
@[simp] theorem State.outWriteAll_outUsable (s : State) (bs : List Byte) : (s.outWriteAll bs).outUsable = s.outUsable := rfl
@[simp] theorem State.outWriteAll_host (s : State) (bs : List Byte) : (s.outWriteAll bs).host = s.host := rfl
@[simp] theorem State.outWriteAll_turns (s : State) (bs : List Byte) : (s.outWriteAll bs).turns = s.turns := rfl
@[simp] theorem State.outWriteAll_rounds (s : State) (bs : List Byte) : (s.outWriteAll bs).rounds = s.rounds := rfl
@[simp] theorem State.outWriteAll_draws (s : State) (bs : List Byte) : (s.outWriteAll bs).draws = s.draws := rfl

/-! ### A FREQ change clears the stage-valid bits (R37). -/

@[simp] theorem State.invalidateStages_irqEn (s : State) : s.invalidateStages.irqEn = s.irqEn := rfl
@[simp] theorem State.invalidateStages_decMode (s : State) : s.invalidateStages.decMode = s.decMode := rfl
@[simp] theorem State.invalidateStages_hdrBe (s : State) : s.invalidateStages.hdrBe = s.hdrBe := rfl
@[simp] theorem State.invalidateStages_done (s : State) : s.invalidateStages.done = s.done := rfl
@[simp] theorem State.invalidateStages_overrun (s : State) : s.invalidateStages.overrun = s.overrun := rfl
@[simp] theorem State.invalidateStages_statusCode (s : State) : s.invalidateStages.statusCode = s.statusCode := rfl
@[simp] theorem State.invalidateStages_statusCause (s : State) : s.invalidateStages.statusCause = s.statusCause := rfl
@[simp] theorem State.invalidateStages_treeValid (s : State) : s.invalidateStages.treeValid = false := rfl
@[simp] theorem State.invalidateStages_codeValid (s : State) : s.invalidateStages.codeValid = false := rfl
@[simp] theorem State.invalidateStages_info (s : State) : s.invalidateStages.info = s.info := rfl
@[simp] theorem State.invalidateStages_inPtr (s : State) : s.invalidateStages.inPtr = s.inPtr := rfl
@[simp] theorem State.invalidateStages_outCnt (s : State) : s.invalidateStages.outCnt = s.outCnt := rfl
@[simp] theorem State.invalidateStages_freq (s : State) : s.invalidateStages.freq = s.freq := rfl
@[simp] theorem State.invalidateStages_arena (s : State) : s.invalidateStages.arena = s.arena := rfl
@[simp] theorem State.invalidateStages_codes (s : State) : s.invalidateStages.codes = s.codes := rfl
@[simp] theorem State.invalidateStages_freqIdx (s : State) : s.invalidateStages.freqIdx = s.freqIdx := rfl
@[simp] theorem State.invalidateStages_nodeIdx (s : State) : s.invalidateStages.nodeIdx = s.nodeIdx := rfl
@[simp] theorem State.invalidateStages_codeIdx (s : State) : s.invalidateStages.codeIdx = s.codeIdx := rfl
@[simp] theorem State.invalidateStages_codeWsel (s : State) : s.invalidateStages.codeWsel = s.codeWsel := rfl
@[simp] theorem State.invalidateStages_pending (s : State) : s.invalidateStages.pending = s.pending := rfl
@[simp] theorem State.invalidateStages_lDecMode (s : State) : s.invalidateStages.lDecMode = s.lDecMode := rfl
@[simp] theorem State.invalidateStages_lHdrBe (s : State) : s.invalidateStages.lHdrBe = s.lHdrBe := rfl
@[simp] theorem State.invalidateStages_input (s : State) : s.invalidateStages.input = s.input := rfl
@[simp] theorem State.invalidateStages_output (s : State) : s.invalidateStages.output = s.output := rfl
@[simp] theorem State.invalidateStages_inUsable (s : State) : s.invalidateStages.inUsable = s.inUsable := rfl
@[simp] theorem State.invalidateStages_outUsable (s : State) : s.invalidateStages.outUsable = s.outUsable := rfl
@[simp] theorem State.invalidateStages_host (s : State) : s.invalidateStages.host = s.host := rfl
@[simp] theorem State.invalidateStages_turns (s : State) : s.invalidateStages.turns = s.turns := rfl
@[simp] theorem State.invalidateStages_rounds (s : State) : s.invalidateStages.rounds = s.rounds := rfl
@[simp] theorem State.invalidateStages_draws (s : State) : s.invalidateStages.draws = s.draws := rfl

/-! ### An accepted issue (R239). -/

@[simp] theorem State.accept_irqEn (s : State) (w : Word) : (s.accept w).irqEn = s.irqEn := rfl
@[simp] theorem State.accept_decMode (s : State) (w : Word) : (s.accept w).decMode = s.decMode := rfl
@[simp] theorem State.accept_hdrBe (s : State) (w : Word) : (s.accept w).hdrBe = s.hdrBe := rfl
@[simp] theorem State.accept_done (s : State) (w : Word) : (s.accept w).done = false := rfl
@[simp] theorem State.accept_overrun (s : State) (w : Word) : (s.accept w).overrun = s.overrun := rfl
@[simp] theorem State.accept_statusCode (s : State) (w : Word) : (s.accept w).statusCode = s.statusCode := rfl
@[simp] theorem State.accept_statusCause (s : State) (w : Word) : (s.accept w).statusCause = s.statusCause := rfl
@[simp] theorem State.accept_treeValid (s : State) (w : Word) : (s.accept w).treeValid = s.treeValid := rfl
@[simp] theorem State.accept_codeValid (s : State) (w : Word) : (s.accept w).codeValid = s.codeValid := rfl
@[simp] theorem State.accept_info (s : State) (w : Word) : (s.accept w).info = s.info := rfl
@[simp] theorem State.accept_inPtr (s : State) (w : Word) : (s.accept w).inPtr = s.inPtr := rfl
@[simp] theorem State.accept_outCnt (s : State) (w : Word) : (s.accept w).outCnt = s.outCnt := rfl
@[simp] theorem State.accept_freq (s : State) (w : Word) : (s.accept w).freq = s.freq := rfl
@[simp] theorem State.accept_arena (s : State) (w : Word) : (s.accept w).arena = s.arena := rfl
@[simp] theorem State.accept_codes (s : State) (w : Word) : (s.accept w).codes = s.codes := rfl
@[simp] theorem State.accept_freqIdx (s : State) (w : Word) : (s.accept w).freqIdx = s.freqIdx := rfl
@[simp] theorem State.accept_nodeIdx (s : State) (w : Word) : (s.accept w).nodeIdx = s.nodeIdx := rfl
@[simp] theorem State.accept_codeIdx (s : State) (w : Word) : (s.accept w).codeIdx = s.codeIdx := rfl
@[simp] theorem State.accept_codeWsel (s : State) (w : Word) : (s.accept w).codeWsel = s.codeWsel := rfl
@[simp] theorem State.accept_pending (s : State) (w : Word) : (s.accept w).pending = some w := rfl
@[simp] theorem State.accept_lDecMode (s : State) (w : Word) : (s.accept w).lDecMode = s.decMode := rfl
@[simp] theorem State.accept_lHdrBe (s : State) (w : Word) : (s.accept w).lHdrBe = s.hdrBe := rfl
@[simp] theorem State.accept_input (s : State) (w : Word) : (s.accept w).input = s.input := rfl
@[simp] theorem State.accept_output (s : State) (w : Word) : (s.accept w).output = s.output := rfl
@[simp] theorem State.accept_inUsable (s : State) (w : Word) : (s.accept w).inUsable = s.inUsable := rfl
@[simp] theorem State.accept_outUsable (s : State) (w : Word) : (s.accept w).outUsable = s.outUsable := rfl
@[simp] theorem State.accept_host (s : State) (w : Word) : (s.accept w).host = s.host := rfl
@[simp] theorem State.accept_turns (s : State) (w : Word) : (s.accept w).turns = s.turns := rfl
@[simp] theorem State.accept_rounds (s : State) (w : Word) : (s.accept w).rounds = s.rounds := rfl
@[simp] theorem State.accept_draws (s : State) (w : Word) : (s.accept w).draws = s.draws := rfl

/-! ### Completion (R266). -/

@[simp] theorem State.finish_irqEn (s : State) (c : StatusCode) (e : Cause) : (s.finish c e).irqEn = s.irqEn := rfl
@[simp] theorem State.finish_decMode (s : State) (c : StatusCode) (e : Cause) : (s.finish c e).decMode = s.decMode := rfl
@[simp] theorem State.finish_hdrBe (s : State) (c : StatusCode) (e : Cause) : (s.finish c e).hdrBe = s.hdrBe := rfl
@[simp] theorem State.finish_done (s : State) (c : StatusCode) (e : Cause) : (s.finish c e).done = true := rfl
@[simp] theorem State.finish_overrun (s : State) (c : StatusCode) (e : Cause) : (s.finish c e).overrun = s.overrun := rfl
@[simp] theorem State.finish_statusCode (s : State) (c : StatusCode) (e : Cause) : (s.finish c e).statusCode = c := rfl
@[simp] theorem State.finish_statusCause (s : State) (c : StatusCode) (e : Cause) : (s.finish c e).statusCause = e := rfl
@[simp] theorem State.finish_treeValid (s : State) (c : StatusCode) (e : Cause) : (s.finish c e).treeValid = s.treeValid := rfl
@[simp] theorem State.finish_codeValid (s : State) (c : StatusCode) (e : Cause) : (s.finish c e).codeValid = s.codeValid := rfl
@[simp] theorem State.finish_info (s : State) (c : StatusCode) (e : Cause) : (s.finish c e).info = s.infoFor c := rfl
@[simp] theorem State.finish_inPtr (s : State) (c : StatusCode) (e : Cause) : (s.finish c e).inPtr = s.inPtr := rfl
@[simp] theorem State.finish_outCnt (s : State) (c : StatusCode) (e : Cause) : (s.finish c e).outCnt = s.outCnt := rfl
@[simp] theorem State.finish_freq (s : State) (c : StatusCode) (e : Cause) : (s.finish c e).freq = s.freq := rfl
@[simp] theorem State.finish_arena (s : State) (c : StatusCode) (e : Cause) : (s.finish c e).arena = s.arena := rfl
@[simp] theorem State.finish_codes (s : State) (c : StatusCode) (e : Cause) : (s.finish c e).codes = s.codes := rfl
@[simp] theorem State.finish_freqIdx (s : State) (c : StatusCode) (e : Cause) : (s.finish c e).freqIdx = s.freqIdx := rfl
@[simp] theorem State.finish_nodeIdx (s : State) (c : StatusCode) (e : Cause) : (s.finish c e).nodeIdx = s.nodeIdx := rfl
@[simp] theorem State.finish_codeIdx (s : State) (c : StatusCode) (e : Cause) : (s.finish c e).codeIdx = s.codeIdx := rfl
@[simp] theorem State.finish_codeWsel (s : State) (c : StatusCode) (e : Cause) : (s.finish c e).codeWsel = s.codeWsel := rfl
@[simp] theorem State.finish_pending (s : State) (c : StatusCode) (e : Cause) : (s.finish c e).pending = none := rfl
@[simp] theorem State.finish_lDecMode (s : State) (c : StatusCode) (e : Cause) : (s.finish c e).lDecMode = s.lDecMode := rfl
@[simp] theorem State.finish_lHdrBe (s : State) (c : StatusCode) (e : Cause) : (s.finish c e).lHdrBe = s.lHdrBe := rfl
@[simp] theorem State.finish_input (s : State) (c : StatusCode) (e : Cause) : (s.finish c e).input = s.input := rfl
@[simp] theorem State.finish_output (s : State) (c : StatusCode) (e : Cause) : (s.finish c e).output = s.output := rfl
@[simp] theorem State.finish_inUsable (s : State) (c : StatusCode) (e : Cause) : (s.finish c e).inUsable = s.inUsable := rfl
@[simp] theorem State.finish_outUsable (s : State) (c : StatusCode) (e : Cause) : (s.finish c e).outUsable = s.outUsable := rfl
@[simp] theorem State.finish_host (s : State) (c : StatusCode) (e : Cause) : (s.finish c e).host = s.host := rfl
@[simp] theorem State.finish_turns (s : State) (c : StatusCode) (e : Cause) : (s.finish c e).turns = s.turns := rfl
@[simp] theorem State.finish_rounds (s : State) (c : StatusCode) (e : Cause) : (s.finish c e).rounds = s.rounds := rfl
@[simp] theorem State.finish_draws (s : State) (c : StatusCode) (e : Cause) : (s.finish c e).draws = s.draws := rfl

/-! ### The turn taken is over (R95). -/

@[simp] theorem State.nextTurn_irqEn (s : State) : s.nextTurn.irqEn = s.irqEn := rfl
@[simp] theorem State.nextTurn_decMode (s : State) : s.nextTurn.decMode = s.decMode := rfl
@[simp] theorem State.nextTurn_hdrBe (s : State) : s.nextTurn.hdrBe = s.hdrBe := rfl
@[simp] theorem State.nextTurn_done (s : State) : s.nextTurn.done = s.done := rfl
@[simp] theorem State.nextTurn_overrun (s : State) : s.nextTurn.overrun = s.overrun := rfl
@[simp] theorem State.nextTurn_statusCode (s : State) : s.nextTurn.statusCode = s.statusCode := rfl
@[simp] theorem State.nextTurn_statusCause (s : State) : s.nextTurn.statusCause = s.statusCause := rfl
@[simp] theorem State.nextTurn_treeValid (s : State) : s.nextTurn.treeValid = s.treeValid := rfl
@[simp] theorem State.nextTurn_codeValid (s : State) : s.nextTurn.codeValid = s.codeValid := rfl
@[simp] theorem State.nextTurn_info (s : State) : s.nextTurn.info = s.info := rfl
@[simp] theorem State.nextTurn_inPtr (s : State) : s.nextTurn.inPtr = s.inPtr := rfl
@[simp] theorem State.nextTurn_outCnt (s : State) : s.nextTurn.outCnt = s.outCnt := rfl
@[simp] theorem State.nextTurn_freq (s : State) : s.nextTurn.freq = s.freq := rfl
@[simp] theorem State.nextTurn_arena (s : State) : s.nextTurn.arena = s.arena := rfl
@[simp] theorem State.nextTurn_codes (s : State) : s.nextTurn.codes = s.codes := rfl
@[simp] theorem State.nextTurn_freqIdx (s : State) : s.nextTurn.freqIdx = s.freqIdx := rfl
@[simp] theorem State.nextTurn_nodeIdx (s : State) : s.nextTurn.nodeIdx = s.nodeIdx := rfl
@[simp] theorem State.nextTurn_codeIdx (s : State) : s.nextTurn.codeIdx = s.codeIdx := rfl
@[simp] theorem State.nextTurn_codeWsel (s : State) : s.nextTurn.codeWsel = s.codeWsel := rfl
@[simp] theorem State.nextTurn_pending (s : State) : s.nextTurn.pending = s.pending := rfl
@[simp] theorem State.nextTurn_lDecMode (s : State) : s.nextTurn.lDecMode = s.lDecMode := rfl
@[simp] theorem State.nextTurn_lHdrBe (s : State) : s.nextTurn.lHdrBe = s.lHdrBe := rfl
@[simp] theorem State.nextTurn_input (s : State) : s.nextTurn.input = s.input := rfl
@[simp] theorem State.nextTurn_output (s : State) : s.nextTurn.output = s.output := rfl
@[simp] theorem State.nextTurn_inUsable (s : State) : s.nextTurn.inUsable = s.inUsable := rfl
@[simp] theorem State.nextTurn_outUsable (s : State) : s.nextTurn.outUsable = s.outUsable := rfl
@[simp] theorem State.nextTurn_host (s : State) : s.nextTurn.host = s.host := rfl
@[simp] theorem State.nextTurn_turns (s : State) : s.nextTurn.turns = s.coming.tail := rfl
@[simp] theorem State.nextTurn_draws (s : State) : s.nextTurn.draws = s.draws := rfl

/-! ### The host goes on (R95). -/

@[simp] theorem State.hostNext_irqEn (s : State) : s.hostNext.irqEn = s.irqEn := rfl
@[simp] theorem State.hostNext_decMode (s : State) : s.hostNext.decMode = s.decMode := rfl
@[simp] theorem State.hostNext_hdrBe (s : State) : s.hostNext.hdrBe = s.hdrBe := rfl
@[simp] theorem State.hostNext_done (s : State) : s.hostNext.done = s.done := rfl
@[simp] theorem State.hostNext_overrun (s : State) : s.hostNext.overrun = s.overrun := rfl
@[simp] theorem State.hostNext_statusCode (s : State) : s.hostNext.statusCode = s.statusCode := rfl
@[simp] theorem State.hostNext_statusCause (s : State) : s.hostNext.statusCause = s.statusCause := rfl
@[simp] theorem State.hostNext_treeValid (s : State) : s.hostNext.treeValid = s.treeValid := rfl
@[simp] theorem State.hostNext_codeValid (s : State) : s.hostNext.codeValid = s.codeValid := rfl
@[simp] theorem State.hostNext_info (s : State) : s.hostNext.info = s.info := rfl
@[simp] theorem State.hostNext_inPtr (s : State) : s.hostNext.inPtr = s.inPtr := rfl
@[simp] theorem State.hostNext_outCnt (s : State) : s.hostNext.outCnt = s.outCnt := rfl
@[simp] theorem State.hostNext_freq (s : State) : s.hostNext.freq = s.freq := rfl
@[simp] theorem State.hostNext_arena (s : State) : s.hostNext.arena = s.arena := rfl
@[simp] theorem State.hostNext_codes (s : State) : s.hostNext.codes = s.codes := rfl
@[simp] theorem State.hostNext_freqIdx (s : State) : s.hostNext.freqIdx = s.freqIdx := rfl
@[simp] theorem State.hostNext_nodeIdx (s : State) : s.hostNext.nodeIdx = s.nodeIdx := rfl
@[simp] theorem State.hostNext_codeIdx (s : State) : s.hostNext.codeIdx = s.codeIdx := rfl
@[simp] theorem State.hostNext_codeWsel (s : State) : s.hostNext.codeWsel = s.codeWsel := rfl
@[simp] theorem State.hostNext_pending (s : State) : s.hostNext.pending = s.pending := rfl
@[simp] theorem State.hostNext_lDecMode (s : State) : s.hostNext.lDecMode = s.lDecMode := rfl
@[simp] theorem State.hostNext_lHdrBe (s : State) : s.hostNext.lHdrBe = s.lHdrBe := rfl
@[simp] theorem State.hostNext_input (s : State) : s.hostNext.input = s.input := rfl
@[simp] theorem State.hostNext_output (s : State) : s.hostNext.output = s.output := rfl
@[simp] theorem State.hostNext_inUsable (s : State) : s.hostNext.inUsable = s.inUsable := rfl
@[simp] theorem State.hostNext_outUsable (s : State) : s.hostNext.outUsable = s.outUsable := rfl
@[simp] theorem State.hostNext_host (s : State) : s.hostNext.host = { s.host with pc := s.host.pc + 1 } := rfl
@[simp] theorem State.hostNext_turns (s : State) : s.hostNext.turns = s.turns := rfl
@[simp] theorem State.hostNext_rounds (s : State) : s.hostNext.rounds = s.rounds := rfl
@[simp] theorem State.hostNext_draws (s : State) : s.hostNext.draws = s.draws := rfl

/-! ### The host goes on at a label (R118). -/

@[simp] theorem State.hostJump_irqEn (s : State) (k : Nat) : (s.hostJump k).irqEn = s.irqEn := rfl
@[simp] theorem State.hostJump_decMode (s : State) (k : Nat) : (s.hostJump k).decMode = s.decMode := rfl
@[simp] theorem State.hostJump_hdrBe (s : State) (k : Nat) : (s.hostJump k).hdrBe = s.hdrBe := rfl
@[simp] theorem State.hostJump_done (s : State) (k : Nat) : (s.hostJump k).done = s.done := rfl
@[simp] theorem State.hostJump_overrun (s : State) (k : Nat) : (s.hostJump k).overrun = s.overrun := rfl
@[simp] theorem State.hostJump_statusCode (s : State) (k : Nat) : (s.hostJump k).statusCode = s.statusCode := rfl
@[simp] theorem State.hostJump_statusCause (s : State) (k : Nat) : (s.hostJump k).statusCause = s.statusCause := rfl
@[simp] theorem State.hostJump_treeValid (s : State) (k : Nat) : (s.hostJump k).treeValid = s.treeValid := rfl
@[simp] theorem State.hostJump_codeValid (s : State) (k : Nat) : (s.hostJump k).codeValid = s.codeValid := rfl
@[simp] theorem State.hostJump_info (s : State) (k : Nat) : (s.hostJump k).info = s.info := rfl
@[simp] theorem State.hostJump_inPtr (s : State) (k : Nat) : (s.hostJump k).inPtr = s.inPtr := rfl
@[simp] theorem State.hostJump_outCnt (s : State) (k : Nat) : (s.hostJump k).outCnt = s.outCnt := rfl
@[simp] theorem State.hostJump_freq (s : State) (k : Nat) : (s.hostJump k).freq = s.freq := rfl
@[simp] theorem State.hostJump_arena (s : State) (k : Nat) : (s.hostJump k).arena = s.arena := rfl
@[simp] theorem State.hostJump_codes (s : State) (k : Nat) : (s.hostJump k).codes = s.codes := rfl
@[simp] theorem State.hostJump_freqIdx (s : State) (k : Nat) : (s.hostJump k).freqIdx = s.freqIdx := rfl
@[simp] theorem State.hostJump_nodeIdx (s : State) (k : Nat) : (s.hostJump k).nodeIdx = s.nodeIdx := rfl
@[simp] theorem State.hostJump_codeIdx (s : State) (k : Nat) : (s.hostJump k).codeIdx = s.codeIdx := rfl
@[simp] theorem State.hostJump_codeWsel (s : State) (k : Nat) : (s.hostJump k).codeWsel = s.codeWsel := rfl
@[simp] theorem State.hostJump_pending (s : State) (k : Nat) : (s.hostJump k).pending = s.pending := rfl
@[simp] theorem State.hostJump_lDecMode (s : State) (k : Nat) : (s.hostJump k).lDecMode = s.lDecMode := rfl
@[simp] theorem State.hostJump_lHdrBe (s : State) (k : Nat) : (s.hostJump k).lHdrBe = s.lHdrBe := rfl
@[simp] theorem State.hostJump_input (s : State) (k : Nat) : (s.hostJump k).input = s.input := rfl
@[simp] theorem State.hostJump_output (s : State) (k : Nat) : (s.hostJump k).output = s.output := rfl
@[simp] theorem State.hostJump_inUsable (s : State) (k : Nat) : (s.hostJump k).inUsable = s.inUsable := rfl
@[simp] theorem State.hostJump_outUsable (s : State) (k : Nat) : (s.hostJump k).outUsable = s.outUsable := rfl
@[simp] theorem State.hostJump_host (s : State) (k : Nat) : (s.hostJump k).host = { s.host with pc := k } := rfl
@[simp] theorem State.hostJump_turns (s : State) (k : Nat) : (s.hostJump k).turns = s.turns := rfl
@[simp] theorem State.hostJump_rounds (s : State) (k : Nat) : (s.hostJump k).rounds = s.rounds := rfl
@[simp] theorem State.hostJump_draws (s : State) (k : Nat) : (s.hostJump k).draws = s.draws := rfl

/-! ### The host keeps a word (R118). -/

@[simp] theorem State.setTemp_irqEn (s : State) (k : Nat) (v : Word) : (s.setTemp k v).irqEn = s.irqEn := rfl
@[simp] theorem State.setTemp_decMode (s : State) (k : Nat) (v : Word) : (s.setTemp k v).decMode = s.decMode := rfl
@[simp] theorem State.setTemp_hdrBe (s : State) (k : Nat) (v : Word) : (s.setTemp k v).hdrBe = s.hdrBe := rfl
@[simp] theorem State.setTemp_done (s : State) (k : Nat) (v : Word) : (s.setTemp k v).done = s.done := rfl
@[simp] theorem State.setTemp_overrun (s : State) (k : Nat) (v : Word) : (s.setTemp k v).overrun = s.overrun := rfl
@[simp] theorem State.setTemp_statusCode (s : State) (k : Nat) (v : Word) : (s.setTemp k v).statusCode = s.statusCode := rfl
@[simp] theorem State.setTemp_statusCause (s : State) (k : Nat) (v : Word) : (s.setTemp k v).statusCause = s.statusCause := rfl
@[simp] theorem State.setTemp_treeValid (s : State) (k : Nat) (v : Word) : (s.setTemp k v).treeValid = s.treeValid := rfl
@[simp] theorem State.setTemp_codeValid (s : State) (k : Nat) (v : Word) : (s.setTemp k v).codeValid = s.codeValid := rfl
@[simp] theorem State.setTemp_info (s : State) (k : Nat) (v : Word) : (s.setTemp k v).info = s.info := rfl
@[simp] theorem State.setTemp_inPtr (s : State) (k : Nat) (v : Word) : (s.setTemp k v).inPtr = s.inPtr := rfl
@[simp] theorem State.setTemp_outCnt (s : State) (k : Nat) (v : Word) : (s.setTemp k v).outCnt = s.outCnt := rfl
@[simp] theorem State.setTemp_freq (s : State) (k : Nat) (v : Word) : (s.setTemp k v).freq = s.freq := rfl
@[simp] theorem State.setTemp_arena (s : State) (k : Nat) (v : Word) : (s.setTemp k v).arena = s.arena := rfl
@[simp] theorem State.setTemp_codes (s : State) (k : Nat) (v : Word) : (s.setTemp k v).codes = s.codes := rfl
@[simp] theorem State.setTemp_freqIdx (s : State) (k : Nat) (v : Word) : (s.setTemp k v).freqIdx = s.freqIdx := rfl
@[simp] theorem State.setTemp_nodeIdx (s : State) (k : Nat) (v : Word) : (s.setTemp k v).nodeIdx = s.nodeIdx := rfl
@[simp] theorem State.setTemp_codeIdx (s : State) (k : Nat) (v : Word) : (s.setTemp k v).codeIdx = s.codeIdx := rfl
@[simp] theorem State.setTemp_codeWsel (s : State) (k : Nat) (v : Word) : (s.setTemp k v).codeWsel = s.codeWsel := rfl
@[simp] theorem State.setTemp_pending (s : State) (k : Nat) (v : Word) : (s.setTemp k v).pending = s.pending := rfl
@[simp] theorem State.setTemp_lDecMode (s : State) (k : Nat) (v : Word) : (s.setTemp k v).lDecMode = s.lDecMode := rfl
@[simp] theorem State.setTemp_lHdrBe (s : State) (k : Nat) (v : Word) : (s.setTemp k v).lHdrBe = s.lHdrBe := rfl
@[simp] theorem State.setTemp_input (s : State) (k : Nat) (v : Word) : (s.setTemp k v).input = s.input := rfl
@[simp] theorem State.setTemp_output (s : State) (k : Nat) (v : Word) : (s.setTemp k v).output = s.output := rfl
@[simp] theorem State.setTemp_inUsable (s : State) (k : Nat) (v : Word) : (s.setTemp k v).inUsable = s.inUsable := rfl
@[simp] theorem State.setTemp_outUsable (s : State) (k : Nat) (v : Word) : (s.setTemp k v).outUsable = s.outUsable := rfl
@[simp] theorem State.setTemp_host (s : State) (k : Nat) (v : Word) : (s.setTemp k v).host = { s.host with temps := tempSet s.host.temps k v } := rfl
@[simp] theorem State.setTemp_turns (s : State) (k : Nat) (v : Word) : (s.setTemp k v).turns = s.turns := rfl
@[simp] theorem State.setTemp_rounds (s : State) (k : Nat) (v : Word) : (s.setTemp k v).rounds = s.rounds := rfl
@[simp] theorem State.setTemp_draws (s : State) (k : Nat) (v : Word) : (s.setTemp k v).draws = s.draws := rfl

end Sys2Proof.Machine
end

