-- ==== Sys2Proof/Laws/Tables.lean ====
section
/-! SUPPORT. The small lemmas of the tables: reading an entry after a write, the table as the list of its entries, and
the summary values `total` and `distinct` (spec/40_histogram.md R132). -/

namespace Sys2Proof.Machine

/-- The 256 byte values, ascending. -/
def allBytes : List Byte := (List.range 256).map (BitVec.ofNat 8)

theorem mem_allBytes (b : Byte) : b ∈ allBytes :=
  List.mem_map.2 ⟨b.toNat, List.mem_range.2 b.isLt, by simp⟩

theorem allBytes_nodup : allBytes.Nodup := by
  refine List.Nodup.map_on ?_ List.nodup_range
  intro x hx y hy h
  have hx' : x < 256 := List.mem_range.1 hx
  have hy' : y < 256 := List.mem_range.1 hy
  have := congrArg BitVec.toNat h
  simp only [BitVec.toNat_ofNat] at this
  omega

theorem allBytes_getElem (i : Nat) (h : i < allBytes.length) : allBytes[i] = BitVec.ofNat 8 i := by
  simp [allBytes]

@[simp] theorem length_allBytes : allBytes.length = 256 := by simp [allBytes]

/-! ## FREQ -/

theorem freqAt_freqSet (f : FreqTable) (s b : Byte) (v : Count) :
    freqAt (freqSet f s v) b = if s = b then v else freqAt f b := by
  unfold freqAt freqSet
  rw [Vector.getElem_set]
  simp [BitVec.toNat_inj]

@[simp] theorem freqAt_freqSet_self (f : FreqTable) (b : Byte) (v : Count) : freqAt (freqSet f b v) b = v := by
  simp [freqAt_freqSet]

theorem freqAt_freqSet_ne (f : FreqTable) {s b : Byte} (v : Count) (h : s ≠ b) :
    freqAt (freqSet f s v) b = freqAt f b := by
  simp [freqAt_freqSet, h]

@[simp] theorem freqAt_freqZero (b : Byte) : freqAt freqZero b = 0#64 := by
  simp [freqAt, freqZero]

theorem freq_ext {f g : FreqTable} (h : ∀ b, freqAt f b = freqAt g b) : f = g := by
  apply Vector.ext
  intro i hi
  have := h (BitVec.ofNat 8 i)
  simp only [freqAt, BitVec.toNat_ofNat] at this
  have e : i % 2 ^ 8 = i := Nat.mod_eq_of_lt hi
  simpa only [e] using this

/-- A frequency table is the list of its counts in byte-value order. -/
theorem freq_toList (f : FreqTable) : f.toList = allBytes.map (freqAt f) := by
  apply List.ext_getElem
  · simp
  · intro i h1 h2
    have hi : i < 256 := by simpa using h1
    simp only [List.getElem_map, allBytes_getElem, freqAt, BitVec.toNat_ofNat, Vector.getElem_toList]
    congr 1
    omega

theorem totalCount_eq (f : FreqTable) : totalCount f = (allBytes.map fun b => (freqAt f b).toNat).sum := by
  simp [totalCount, freq_toList, Function.comp_def]

theorem symbolsOf_eq (f : FreqTable) : symbolsOf f = allBytes.filter fun b => freqAt f b != 0#64 := rfl

theorem mem_symbolsOf (f : FreqTable) (b : Byte) : b ∈ symbolsOf f ↔ freqAt f b ≠ 0#64 := by
  simp [symbolsOf_eq, mem_allBytes]

theorem symbolsOf_nodup (f : FreqTable) : (symbolsOf f).Nodup := allBytes_nodup.filter _

theorem length_symbolsOf_le (f : FreqTable) : (symbolsOf f).length ≤ 256 := by
  simpa [symbolsOf_eq] using List.length_filter_le (fun b => freqAt f b != 0#64) allBytes

/-- DISTINCT is the number of symbols (R132, R151). -/
theorem distinctCount_eq (f : FreqTable) : distinctCount f = (symbolsOf f).length := by
  rw [distinctCount, freq_toList, List.countP_map, symbolsOf_eq, List.countP_eq_length_filter]
  rfl

/-- `total` is the sum over the symbols alone. -/
theorem totalCount_symbols (f : FreqTable) : totalCount f = ((symbolsOf f).map fun b => (freqAt f b).toNat).sum := by
  rw [totalCount_eq, symbolsOf_eq]
  induction allBytes with
  | nil => rfl
  | cons b bs ih =>
    by_cases h : freqAt f b = 0#64
    · simp [h, ih]
    · simp [h, ih]

theorem totalCount_pos_of_symbol (f : FreqTable) {b : Byte} (h : freqAt f b ≠ 0#64) : 0 < totalCount f := by
  rw [totalCount_eq]
  have hpos : 0 < (freqAt f b).toNat := Nat.pos_of_ne_zero fun e => h (BitVec.eq_of_toNat_eq (by simpa using e))
  exact lt_of_lt_of_le hpos (List.single_le_sum (by simp) _ (List.mem_map.2 ⟨b, mem_allBytes b, rfl⟩))

/-- No symbol has a count when the total is 0. -/
theorem symbolsOf_eq_nil_iff (f : FreqTable) : symbolsOf f = [] ↔ totalCount f = 0 := by
  constructor
  · intro h; simp [totalCount_symbols, h]
  · intro h
    rw [List.eq_nil_iff_forall_not_mem]
    intro b hb
    have := totalCount_pos_of_symbol f ((mem_symbolsOf f b).1 hb)
    omega

/-! ## CODE -/

theorem codeAt_codeSet (c : CodeTable) (s b : Byte) (v : Bits) :
    codeAt (codeSet c s v) b = if s = b then v else codeAt c b := by
  unfold codeAt codeSet
  rw [Vector.getElem_set]
  simp [BitVec.toNat_inj]

@[simp] theorem codeAt_codesEmpty (b : Byte) : codeAt codesEmpty b = [] := by
  simp [codeAt, codesEmpty]

/-! ## ARENA -/

theorem nodeAt_eq_getElem {arena : List Node} {i : Nat} (h : i < arena.length) : nodeAt arena i = arena[i] := by
  simp [nodeAt, List.getD_eq_getElem?_getD, h]

theorem nodeAt_append_left {a b : List Node} {i : Nat} (h : i < a.length) : nodeAt (a ++ b) i = nodeAt a i := by
  simp [nodeAt, List.getD_eq_getElem?_getD, List.getElem?_append_left h, h]

@[simp] theorem nodeAt_append_length (a : List Node) (n : Node) : nodeAt (a ++ [n]) a.length = n := by
  simp [nodeAt, List.getD_eq_getElem?_getD]

theorem nodeAt_take {a : List Node} {i k : Nat} (h : i < k) : nodeAt (a.take k) i = nodeAt a i := by
  simp [nodeAt, List.getD_eq_getElem?_getD, h]

theorem childSlots_append (a b : List Node) : childSlots (a ++ b) = childSlots a ++ childSlots b := by
  simp [childSlots]

end Sys2Proof.Machine
end

