-- ==== Sys2Proof/Laws/Tree.lean ====
section
/-! SUPPORT. What the tree builder does (spec/41_tree.md R151 to R158): the leaves, the arbiter, one merge, and the
invariant that the merge loop keeps. -/

namespace Sys2Proof.Machine

/-! ## Leaves -/

/-- The leaves of a list of symbols, sequence ids from `j` on (R151). -/
def leafList (f : FreqTable) : Nat → List Byte → List Node
  | _, [] => []
  | j, b :: bs => .leaf b (freqAt f b) (BitVec.ofNat 9 j) :: leafList f (j + 1) bs

@[simp] theorem length_leafList (f : FreqTable) (j : Nat) (bs : List Byte) : (leafList f j bs).length = bs.length := by
  induction bs generalizing j with
  | nil => rfl
  | cons b bs ih => simp [leafList, ih]

theorem leafList_getElem? (f : FreqTable) (j : Nat) (bs : List Byte) (i : Nat) :
    (leafList f j bs)[i]? = bs[i]?.map fun b => .leaf b (freqAt f b) (BitVec.ofNat 9 (j + i)) := by
  induction bs generalizing j i with
  | nil => simp [leafList]
  | cons b bs ih =>
    cases i with
    | zero => simp [leafList]
    | succ i => simp [leafList, ih, Nat.add_comm, Nat.add_left_comm]

theorem foldl_addLeaf (f : FreqTable) (ks : List Nat) (arena : List Node) :
    ks.foldl (addLeaf f) arena =
      arena ++ leafList f arena.length ((ks.map (BitVec.ofNat 8)).filter fun b => freqAt f b != 0#64) := by
  induction ks generalizing arena with
  | nil => simp [leafList]
  | cons k ks ih =>
    rw [List.foldl_cons, ih, List.map_cons, addLeaf]
    by_cases h : freqAt f (BitVec.ofNat 8 k) = 0#64
    · simp [h]
    · simp [h, leafList]

/-- The leaves are those of the symbols, in order (R151). -/
theorem leavesOf_eq (f : FreqTable) : leavesOf f = leafList f 0 (symbolsOf f) := by
  rw [leavesOf, foldl_addLeaf]; rfl

@[simp] theorem length_leavesOf (f : FreqTable) : (leavesOf f).length = (symbolsOf f).length := by
  rw [leavesOf_eq, length_leafList]

theorem leavesOf_getElem? (f : FreqTable) (i : Nat) :
    (leavesOf f)[i]? = (symbolsOf f)[i]?.map fun b => .leaf b (freqAt f b) (BitVec.ofNat 9 i) := by
  rw [leavesOf_eq, leafList_getElem?, Nat.zero_add]

theorem childSlots_leafList (f : FreqTable) (j : Nat) (bs : List Byte) : childSlots (leafList f j bs) = [] := by
  induction bs generalizing j with
  | nil => rfl
  | cons b bs ih => exact ih (j + 1)

theorem weights_leafList (f : FreqTable) (j : Nat) (bs : List Byte) :
    (leafList f j bs).map (fun n => n.weight.toNat) = bs.map fun b => (freqAt f b).toNat := by
  induction bs generalizing j with
  | nil => rfl
  | cons b bs ih => rw [leafList, List.map_cons, ih, List.map_cons]; rfl

/-! ## The arbiter -/

theorem keyLt_iff (arena : List Node) (i j : Nat) :
    keyLt (nodeAt arena i) (nodeAt arena j) = true ↔ KeyBelow arena i j := by
  simp [keyLt, KeyBelow, BitVec.lt_def, ← BitVec.toNat_inj]

theorem KeyBelow.trans {arena : List Node} {i j k : Nat} (h1 : KeyBelow arena i j) (h2 : KeyBelow arena j k) :
    KeyBelow arena i k := by
  unfold KeyBelow at *; omega

theorem KeyBelow.irrefl {arena : List Node} {i : Nat} : ¬ KeyBelow arena i i := by
  unfold KeyBelow; omega

theorem KeyBelow.asymm {arena : List Node} {i j : Nat} (h1 : KeyBelow arena i j) : ¬ KeyBelow arena j i := by
  unfold KeyBelow at *; omega

/-- On different sequence ids the order is total (R152). -/
theorem KeyBelow.total {arena : List Node} {i j : Nat}
    (h : (nodeAt arena i).seq.toNat ≠ (nodeAt arena j).seq.toNat) : KeyBelow arena i j ∨ KeyBelow arena j i := by
  unfold KeyBelow; omega

/-- The arbiter answers a member of its set with no member below it (R152). -/
theorem arbiterMin_spec (arena : List Node) (i : Nat) (q : List Nat) :
    arbiterMin arena i q ∈ i :: q ∧ ∀ c ∈ i :: q, ¬ KeyBelow arena c (arbiterMin arena i q) := by
  induction q generalizing i with
  | nil => simp [arbiterMin, KeyBelow.irrefl]
  | cons j q ih =>
    rw [arbiterMin]
    by_cases h : keyLt (nodeAt arena j) (nodeAt arena i) = true
    · rw [if_pos h]
      obtain ⟨hm, hl⟩ := ih j
      refine ⟨List.mem_cons_of_mem _ hm, fun c hc => ?_⟩
      rcases List.mem_cons.1 hc with rfl | hc
      · intro hk
        exact hl j (by simp) (KeyBelow.trans ((keyLt_iff _ _ _).1 h) hk)
      · exact hl c hc
    · rw [if_neg h]
      obtain ⟨hm, hl⟩ := ih i
      refine ⟨?_, fun c hc => ?_⟩
      · rcases List.mem_cons.1 hm with h' | h'
        · rw [h']; simp
        · exact List.mem_cons_of_mem _ (List.mem_cons_of_mem _ h')
      · rcases List.mem_cons.1 hc with rfl | hc
        · exact hl c (by simp)
        · rcases List.mem_cons.1 hc with rfl | hc
          · intro hk
            by_cases hi : KeyBelow arena i (arbiterMin arena i q)
            · exact hl i (by simp) hi
            · rw [keyLt_iff] at h
              unfold KeyBelow at *
              omega
          · exact hl c (List.mem_cons_of_mem _ hc)

theorem arbiterTake_none {arena : List Node} {q : List Nat} (h : arbiterTake arena q = none) : q = [] := by
  cases q with
  | nil => rfl
  | cons i q => simp [arbiterTake] at h

/-- Taking from the arbiter's set splits it into the least member and the rest (R153). -/
theorem arbiterTake_some {arena : List Node} {q q' : List Nat} {a : Nat} (h : arbiterTake arena q = some (a, q')) :
    q.Perm (a :: q') ∧ ∀ c ∈ q, ¬ KeyBelow arena c a := by
  cases q with
  | nil => simp [arbiterTake] at h
  | cons i q =>
    simp only [arbiterTake, Option.some.injEq, Prod.mk.injEq] at h
    obtain ⟨rfl, rfl⟩ := h
    obtain ⟨hm, hl⟩ := arbiterMin_spec arena i q
    exact ⟨List.perm_cons_erase hm, hl⟩

/-! ## The merge invariant -/

/-- Node k joins the two least available nodes of the arena before it (R152 to R154). -/
def MergeAt (arena : List Node) (k : Nat) : Prop :=
  ∃ a b, nodeAt arena k = joinNode (arena.take k) a b ∧ a < k ∧ b < k ∧ a ≠ b ∧
    Available (arena.take k) a ∧ Available (arena.take k) b ∧
    (∀ c, Available (arena.take k) c → c ≠ a → KeyBelow arena a c) ∧
    (∀ c, Available (arena.take k) c → c ≠ a → c ≠ b → KeyBelow arena b c)

/-- What holds of the arena and of the arbiter's set at every pass of the merge loop (R153). -/
structure Forest (f : FreqTable) (arena : List Node) (q : List Nat) : Prop where
  leaves : leavesOf f <+: arena
  seqs : ∀ i, i < arena.length → (nodeAt arena i).seq = BitVec.ofNat 9 i
  kinds : ∀ i, i < arena.length → ((nodeAt arena i).isInternal = true ↔ (symbolsOf f).length ≤ i)
  slots : (q ++ childSlots arena).Perm (List.range arena.length)
  count : q.length + arena.length = 2 * (symbolsOf f).length
  alive : symbolsOf f ≠ [] → q ≠ []
  merges : ∀ k, (symbolsOf f).length ≤ k → k < arena.length → MergeAt arena k
  sums : totalCount f < 2 ^ 64 → ∀ k, k < arena.length → (nodeAt arena k).weight.toNat ≤ totalCount f ∧
    ((nodeAt arena k).isInternal = true → (nodeAt arena k).weight.toNat =
      (nodeAt arena (nodeAt arena k).left.toNat).weight.toNat + (nodeAt arena (nodeAt arena k).right.toNat).weight.toNat)
  weights : totalCount f < 2 ^ 64 → (q.map fun i => (nodeAt arena i).weight.toNat).sum = totalCount f

namespace Forest

variable {f : FreqTable} {arena : List Node} {q : List Nat}

theorem length_le (h : Forest f arena q) : arena.length ≤ 2 * (symbolsOf f).length := by
  have := h.count; omega

theorem length_lt (h : Forest f arena q) (hq : q ≠ []) : arena.length < 512 := by
  have h1 := h.count
  have h2 := length_symbolsOf_le f
  have h3 : 0 < q.length := List.length_pos_iff.2 hq
  omega

theorem seq_toNat (h : Forest f arena q) (hq : q ≠ []) {i : Nat} (hi : i < arena.length) :
    (nodeAt arena i).seq.toNat = i := by
  rw [h.seqs i hi, BitVec.toNat_ofNat]
  have := h.length_lt hq
  exact Nat.mod_eq_of_lt (by omega)

theorem q_lt (h : Forest f arena q) {i : Nat} (hi : i ∈ q) : i < arena.length :=
  List.mem_range.1 (h.slots.mem_iff.1 (List.mem_append_left _ hi))

theorem slot_lt (h : Forest f arena q) {i : Nat} (hi : i ∈ childSlots arena) : i < arena.length :=
  List.mem_range.1 (h.slots.mem_iff.1 (List.mem_append_right _ hi))

theorem nodup (h : Forest f arena q) : (q ++ childSlots arena).Nodup := h.slots.nodup_iff.2 List.nodup_range

/-- The arbiter's set is exactly the available indices. -/
theorem available_iff (h : Forest f arena q) (i : Nat) : Available arena i ↔ i ∈ q := by
  constructor
  · rintro ⟨hi, hn⟩
    rcases List.mem_append.1 (h.slots.mem_iff.2 (List.mem_range.2 hi)) with h1 | h1
    · exact h1
    · exact absurd h1 hn
  · intro hi
    exact ⟨h.q_lt hi, fun hs => (List.nodup_append.1 h.nodup).2.2 i hi i hs rfl⟩

end Forest

/-- Before the first merge: the leaves, all of them available (R153). -/
theorem forest_leaves (f : FreqTable) : Forest f (leavesOf f) (List.range (leavesOf f).length) where
  leaves := List.prefix_refl _
  seqs i hi := by
    obtain ⟨b, hb⟩ : ∃ b, (symbolsOf f)[i]? = some b := ⟨_, List.getElem?_eq_getElem (by simpa using hi)⟩
    have := leavesOf_getElem? f i
    rw [hb, List.getElem?_eq_getElem hi] at this
    simp only [Option.map_some, Option.some.injEq] at this
    rw [nodeAt_eq_getElem hi, this]; rfl
  kinds i hi := by
    obtain ⟨b, hb⟩ : ∃ b, (symbolsOf f)[i]? = some b := ⟨_, List.getElem?_eq_getElem (by simpa using hi)⟩
    have := leavesOf_getElem? f i
    rw [hb, List.getElem?_eq_getElem hi] at this
    simp only [Option.map_some, Option.some.injEq] at this
    have hi' : i < (symbolsOf f).length := by simpa using hi
    rw [nodeAt_eq_getElem hi, this]
    simp [Node.isInternal, hi']
  slots := by rw [leavesOf_eq, childSlots_leafList, List.append_nil]
  count := by simp; omega
  alive h := by simpa using h
  merges k h1 h2 := by simp at h2; omega
  sums _ k hk := by
    obtain ⟨b, hb⟩ : ∃ b, (symbolsOf f)[k]? = some b := ⟨_, List.getElem?_eq_getElem (by simpa using hk)⟩
    have := leavesOf_getElem? f k
    rw [hb, List.getElem?_eq_getElem hk] at this
    simp only [Option.map_some, Option.some.injEq] at this
    rw [nodeAt_eq_getElem hk, this]
    refine ⟨?_, fun h => absurd h (by simp [Node.isInternal])⟩
    rw [totalCount_symbols]
    exact List.single_le_sum (by simp) _ (List.mem_map.2 ⟨b, List.mem_of_getElem? hb, rfl⟩)
  weights _ := by
    have h1 : (List.range (leavesOf f).length).map (fun i => (nodeAt (leavesOf f) i).weight.toNat) =
        (leavesOf f).map fun n => n.weight.toNat := by
      apply List.ext_getElem
      · simp
      · intro i h1 h2
        simp only [List.getElem_map, List.getElem_range]
        rw [nodeAt_eq_getElem]
    rw [h1, leavesOf_eq, weights_leafList, ← totalCount_symbols]

theorem joinNode_weight (arena : List Node) (a b : Nat) :
    (joinNode arena a b).weight = (nodeAt arena a).weight + (nodeAt arena b).weight := rfl

/-- One merge keeps the invariant (R153). -/
theorem Forest.merge {f : FreqTable} {arena : List Node} {q q1 q2 : List Nat} {a b : Nat} (h : Forest f arena q)
    (h1 : arbiterTake arena q = some (a, q1)) (h2 : arbiterTake arena q1 = some (b, q2)) :
    Forest f (arena ++ [joinNode arena a b]) (q2 ++ [arena.length]) := by
  obtain ⟨p1, l1⟩ := arbiterTake_some h1
  obtain ⟨p2, l2⟩ := arbiterTake_some h2
  have pq : q.Perm (a :: b :: q2) := p1.trans (p2.cons a)
  have hq : q ≠ [] := by rintro rfl; simpa using pq.length_eq
  have ha : a ∈ q := pq.mem_iff.2 (by simp)
  have hb : b ∈ q := pq.mem_iff.2 (by simp)
  have hb1 : b ∈ q1 := p2.mem_iff.2 (by simp)
  have hal := h.q_lt ha
  have hbl := h.q_lt hb
  have hlen := h.length_lt hq
  have hnd : q.Nodup := (List.nodup_append.1 h.nodup).1
  have hab : a ≠ b := by
    have := pq.nodup_iff.1 hnd
    simp only [List.nodup_cons, List.mem_cons, not_or] at this
    exact this.1.1
  have key : ∀ i j, i < arena.length → j < arena.length → i ≠ j → ¬ KeyBelow arena j i → KeyBelow arena i j := by
    intro i j hi hj hne hn
    rcases KeyBelow.total (arena := arena) (i := i) (j := j) (by rwa [h.seq_toNat hq hi, h.seq_toNat hq hj]) with hk | hk
    · exact hk
    · exact absurd hk hn
  have kb : ∀ i j, i < arena.length → j < arena.length →
      (KeyBelow (arena ++ [joinNode arena a b]) i j ↔ KeyBelow arena i j) := by
    intro i j hi hj
    simp only [KeyBelow, nodeAt_append_left hi, nodeAt_append_left hj]
  have hslots : childSlots (arena ++ [joinNode arena a b]) = childSlots arena ++ [a, b] := by
    rw [childSlots_append]
    congr 1
    simp only [childSlots, joinNode, List.flatMap_cons, List.flatMap_nil, Node.isInternal, Node.left, Node.right,
      if_true, List.append_nil, BitVec.toNat_ofNat]
    rw [Nat.mod_eq_of_lt (by omega), Nat.mod_eq_of_lt (by omega)]
  have hsum : totalCount f < 2 ^ 64 → (nodeAt arena a).weight.toNat + (nodeAt arena b).weight.toNat ≤ totalCount f := by
    intro ht
    have hw := h.weights ht
    rw [(pq.map _).sum_eq] at hw
    simp only [List.map_cons, List.sum_cons] at hw
    omega
  refine ⟨h.leaves.trans (List.prefix_append _ _), ?_, ?_, ?_, ?_, ?_, ?_, ?_, ?_⟩
  · intro i hi
    rw [List.length_append, List.length_singleton] at hi
    by_cases hi' : i < arena.length
    · rw [nodeAt_append_left hi', h.seqs i hi']
    · obtain rfl : i = arena.length := by omega
      rw [nodeAt_append_length]; rfl
  · intro i hi
    rw [List.length_append, List.length_singleton] at hi
    by_cases hi' : i < arena.length
    · rw [nodeAt_append_left hi', h.kinds i hi']
    · obtain rfl : i = arena.length := by omega
      have := h.leaves.length_le
      rw [length_leavesOf] at this
      simp [nodeAt_append_length, joinNode, Node.isInternal, this]
  · rw [hslots, List.length_append, List.length_singleton, List.range_succ]
    have e : (q2 ++ [arena.length] ++ (childSlots arena ++ [a, b])).Perm
        ((a :: b :: q2) ++ childSlots arena ++ [arena.length]) := by
      rw [List.perm_iff_count]
      intro c
      simp only [List.count_append, List.count_cons, List.count_nil]
      omega
    exact e.trans (((pq.symm.append_right _).trans h.slots).append_right _)
  · have := pq.length_eq
    have := h.count
    simp at *
    omega
  · intro _; simp
  · intro k hk1 hk2
    rw [List.length_append, List.length_singleton] at hk2
    unfold MergeAt
    by_cases hk : k < arena.length
    · obtain ⟨x, y, hx, hxk, hyk, hne, hax, hay, hl1, hl2⟩ := h.merges k hk1 hk
      have ht : (arena ++ [joinNode arena a b]).take k = arena.take k := by
        rw [List.take_append_of_le_length (by omega)]
      have hav : ∀ c, Available (arena.take k) c → c < arena.length := fun c hc => by
        have := hc.1; rw [List.length_take] at this; omega
      refine ⟨x, y, ?_, hxk, hyk, hne, ?_, ?_, ?_, ?_⟩
      · rw [nodeAt_append_left hk, ht, hx]
      · rwa [ht]
      · rwa [ht]
      · intro c hc hca
        rw [ht] at hc
        exact (kb x c (by omega) (hav c hc)).2 (hl1 c hc hca)
      · intro c hc hca hcb
        rw [ht] at hc
        exact (kb y c (by omega) (hav c hc)).2 (hl2 c hc hca hcb)
    · obtain rfl : k = arena.length := by omega
      have ht : (arena ++ [joinNode arena a b]).take arena.length = arena := by simp
      refine ⟨a, b, ?_, hal, hbl, hab, ?_, ?_, ?_, ?_⟩
      · rw [nodeAt_append_length, ht]
      · rw [ht]; exact (h.available_iff a).2 ha
      · rw [ht]; exact (h.available_iff b).2 hb
      · intro c hc hca
        rw [ht] at hc
        have hc' := (h.available_iff c).1 hc
        exact (kb a c hal hc.1).2 (key a c hal hc.1 (Ne.symm hca) (l1 c hc'))
      · intro c hc hca hcb
        rw [ht] at hc
        have hc' : c ∈ q1 := by
          rcases List.mem_cons.1 (p1.mem_iff.1 ((h.available_iff c).1 hc)) with rfl | hc'
          · exact absurd rfl hca
          · exact hc'
        exact (kb b c hbl hc.1).2 (key b c hbl hc.1 (Ne.symm hcb) (l2 c hc'))
  · intro ht k hk
    rw [List.length_append, List.length_singleton] at hk
    by_cases hk' : k < arena.length
    · rw [nodeAt_append_left hk']
      refine ⟨(h.sums ht k hk').1, fun hi => ?_⟩
      obtain ⟨x, y, hx, hxk, hyk, -⟩ := h.merges k ((h.kinds k hk').1 hi) hk'
      have e1 : (nodeAt arena k).left.toNat = x := by
        rw [hx]; exact Nat.mod_eq_of_lt (show x < 2 ^ 9 by omega)
      have e2 : (nodeAt arena k).right.toNat = y := by
        rw [hx]; exact Nat.mod_eq_of_lt (show y < 2 ^ 9 by omega)
      rw [(h.sums ht k hk').2 hi, e1, e2, nodeAt_append_left (by omega), nodeAt_append_left (by omega)]
    · obtain rfl : k = arena.length := by omega
      have hs := hsum ht
      have hw : (joinNode arena a b).weight.toNat =
          (nodeAt arena a).weight.toNat + (nodeAt arena b).weight.toNat := by
        rw [joinNode_weight, BitVec.toNat_add, Nat.mod_eq_of_lt (by omega)]
      have e1 : (joinNode arena a b).left.toNat = a := Nat.mod_eq_of_lt (show a < 2 ^ 9 by omega)
      have e2 : (joinNode arena a b).right.toNat = b := Nat.mod_eq_of_lt (show b < 2 ^ 9 by omega)
      rw [nodeAt_append_length, e1, e2, nodeAt_append_left hal, nodeAt_append_left hbl]
      exact ⟨by omega, fun _ => hw⟩
  · intro ht
    have hw := h.weights ht
    have hp : (q.map fun i => (nodeAt arena i).weight.toNat).sum =
        (nodeAt arena a).weight.toNat + ((nodeAt arena b).weight.toNat +
          (q2.map fun i => (nodeAt arena i).weight.toNat).sum) := by
      rw [(pq.map _).sum_eq]; simp
    have hq2 : q2.map (fun i => (nodeAt (arena ++ [joinNode arena a b]) i).weight.toNat) =
        q2.map fun i => (nodeAt arena i).weight.toNat := by
      apply List.map_congr_left
      intro i hi
      rw [nodeAt_append_left (h.q_lt (pq.mem_iff.2 (by simp [hi])))]
    rw [List.map_append, List.sum_append, hq2, List.map_singleton, List.sum_singleton, nodeAt_append_length,
      joinNode_weight, BitVec.toNat_add]
    omega

/-- The merge loop keeps the invariant and leaves at most one index in the set. -/
theorem Forest.mergeLoop {f : FreqTable} {fuel : Nat} {arena : List Node} {q : List Nat} (h : Forest f arena q)
    (hf : q.length ≤ fuel + 1) : ∃ q', Forest f (mergeLoop fuel arena q) q' ∧ q'.length ≤ 1 := by
  induction fuel generalizing arena q with
  | zero => exact ⟨q, h, by simpa using hf⟩
  | succ fuel ih =>
    rw [Machine.mergeLoop]
    cases h1 : arbiterTake arena q with
    | none => exact ⟨q, h, by simp [arbiterTake_none h1]⟩
    | some p1 =>
      obtain ⟨a, q1⟩ := p1
      have l1 := (arbiterTake_some h1).1.length_eq
      simp only
      cases h2 : arbiterTake arena q1 with
      | none => exact ⟨q, h, by simp [l1, arbiterTake_none h2]⟩
      | some p2 =>
        obtain ⟨b, q2⟩ := p2
        have l2 := (arbiterTake_some h2).1.length_eq
        simp only
        exact ih (h.merge h1 h2) (by simp at *; omega)

theorem exists_forest (f : FreqTable) : ∃ q, Forest f (buildArena f) q ∧ q.length ≤ 1 :=
  (forest_leaves f).mergeLoop (by simp)

/-! ## The finished arena -/

/-- R155: no symbols, no nodes. -/
theorem buildArena_empty {f : FreqTable} (h : (symbolsOf f).length = 0) : buildArena f = [] := by
  obtain ⟨q, hf, _⟩ := exists_forest f
  have := hf.length_le
  exact List.length_eq_zero_iff.1 (by omega)

/-- R156: n leaves make 2n - 1 nodes. -/
theorem length_buildArena {f : FreqTable} (h : 1 ≤ (symbolsOf f).length) :
    (buildArena f).length = 2 * (symbolsOf f).length - 1 := by
  obtain ⟨q, hf, hq⟩ := exists_forest f
  have h1 := hf.count
  have h2 : 0 < q.length := List.length_pos_iff.2 (hf.alive (List.length_pos_iff.1 h))
  omega

theorem length_buildArena_le (f : FreqTable) : (buildArena f).length ≤ 511 := by
  have h1 := length_symbolsOf_le f
  by_cases h : (symbolsOf f).length = 0
  · simp [buildArena_empty h]
  · have := length_buildArena (f := f) (by omega)
    omega

theorem leaves_prefix (f : FreqTable) : leavesOf f <+: buildArena f := by
  obtain ⟨q, hf, _⟩ := exists_forest f
  exact hf.leaves

theorem buildArena_seq {f : FreqTable} {i : Nat} (hi : i < (buildArena f).length) :
    (nodeAt (buildArena f) i).seq = BitVec.ofNat 9 i := by
  obtain ⟨q, hf, _⟩ := exists_forest f
  exact hf.seqs i hi

theorem buildArena_seq_toNat {f : FreqTable} {i : Nat} (hi : i < (buildArena f).length) :
    (nodeAt (buildArena f) i).seq.toNat = i := by
  have := length_buildArena_le f
  rw [buildArena_seq hi, BitVec.toNat_ofNat, Nat.mod_eq_of_lt (by omega)]

theorem buildArena_kind {f : FreqTable} {i : Nat} (hi : i < (buildArena f).length) :
    (nodeAt (buildArena f) i).isInternal = true ↔ (symbolsOf f).length ≤ i := by
  obtain ⟨q, hf, _⟩ := exists_forest f
  exact hf.kinds i hi

/-- Leaf j of the arena (R151). -/
theorem buildArena_leaf {f : FreqTable} {j : Nat} {b : Byte} (h : (symbolsOf f)[j]? = some b) :
    (buildArena f)[j]? = some (.leaf b (freqAt f b) (BitVec.ofNat 9 j)) := by
  obtain ⟨rest, hr⟩ := leaves_prefix f
  have hj : j < (leavesOf f).length := by
    rw [length_leavesOf]
    exact (List.getElem?_eq_some_iff.1 h).1
  rw [← hr, List.getElem?_append_left hj, leavesOf_getElem?, h]
  rfl

theorem buildArena_merge {f : FreqTable} {k : Nat} (h1 : (symbolsOf f).length ≤ k) (h2 : k < (buildArena f).length) :
    MergeAt (buildArena f) k := by
  obtain ⟨q, hf, _⟩ := exists_forest f
  exact hf.merges k h1 h2

/-- Weights are exact sums, and no weight exceeds Σ FREQ (R157). -/
theorem buildArena_sums {f : FreqTable} (ht : totalCount f < 2 ^ 64) {k : Nat} (hk : k < (buildArena f).length) :
    (nodeAt (buildArena f) k).weight.toNat ≤ totalCount f ∧
      ((nodeAt (buildArena f) k).isInternal = true → (nodeAt (buildArena f) k).weight.toNat =
        (nodeAt (buildArena f) (nodeAt (buildArena f) k).left.toNat).weight.toNat +
          (nodeAt (buildArena f) (nodeAt (buildArena f) k).right.toNat).weight.toNat) := by
  obtain ⟨q, hf, _⟩ := exists_forest f
  exact hf.sums ht k hk

theorem toNat_ofNat9 {a : Nat} (h : a < 512) : (BitVec.ofNat 9 a).toNat = a := by
  rw [BitVec.toNat_ofNat]; exact Nat.mod_eq_of_lt h

/-- An internal node's children are different and come before it (R59, R157). -/
theorem buildArena_children {f : FreqTable} {k : Nat} (hk : k < (buildArena f).length)
    (hi : (nodeAt (buildArena f) k).isInternal = true) :
    (nodeAt (buildArena f) k).left.toNat < k ∧ (nodeAt (buildArena f) k).right.toNat < k ∧
      (nodeAt (buildArena f) k).left.toNat ≠ (nodeAt (buildArena f) k).right.toNat := by
  obtain ⟨a, b, h, ha, hb, hab, _⟩ := buildArena_merge ((buildArena_kind hk).1 hi) hk
  have := length_buildArena_le f
  rw [h]
  simp only [joinNode, Node.left, Node.right]
  rw [toNat_ofNat9 (by omega), toNat_ofNat9 (by omega)]
  exact ⟨ha, hb, hab⟩

/-- Every node but the root is the child of exactly one internal node (R157). -/
theorem childSlots_buildArena {f : FreqTable} (h : 1 ≤ (symbolsOf f).length) :
    (childSlots (buildArena f)).Perm (List.range (rootIdx (buildArena f))) := by
  obtain ⟨q, hf, hq⟩ := exists_forest f
  have hne : q ≠ [] := hf.alive (List.length_pos_iff.1 h)
  have hlen := length_buildArena h
  have hq0 := List.length_pos_iff.2 hne
  obtain ⟨r, rfl⟩ : ∃ r, q = [r] := List.length_eq_one_iff.1 (by omega)
  have hroot : rootIdx (buildArena f) ∉ childSlots (buildArena f) := by
    intro hm
    rw [childSlots, List.mem_flatMap] at hm
    obtain ⟨n, hn, hm⟩ := hm
    obtain ⟨k, hk, rfl⟩ := List.getElem_of_mem hn
    by_cases hi : (nodeAt (buildArena f) k).isInternal = true
    · have hc := buildArena_children hk hi
      rw [← nodeAt_eq_getElem hk] at hm
      simp only [hi, if_true, List.mem_cons, List.not_mem_nil, or_false] at hm
      unfold rootIdx at hm
      omega
    · rw [← nodeAt_eq_getElem hk] at hm
      simp [hi] at hm
  have hr : r = rootIdx (buildArena f) := by
    have : rootIdx (buildArena f) ∈ [r] := (hf.available_iff _).1 ⟨by unfold rootIdx; omega, hroot⟩
    exact (List.mem_singleton.1 this).symm
  have hs := hf.slots
  have e : (buildArena f).length = rootIdx (buildArena f) + 1 := by unfold rootIdx; omega
  rw [e, List.range_succ, hr] at hs
  have hs' : (rootIdx (buildArena f) :: childSlots (buildArena f)).Perm
      (rootIdx (buildArena f) :: List.range (rootIdx (buildArena f))) := hs.trans (List.perm_append_comm)
  exact hs'.cons_inv

/-- The root weighs Σ FREQ (R157). -/
theorem root_weight {f : FreqTable} (h : 1 ≤ (symbolsOf f).length) (ht : totalCount f < 2 ^ 64) :
    (nodeAt (buildArena f) (rootIdx (buildArena f))).weight.toNat = totalCount f := by
  obtain ⟨q, hf, hq⟩ := exists_forest f
  have hne : q ≠ [] := hf.alive (List.length_pos_iff.1 h)
  have hlen := length_buildArena h
  have hq0 := List.length_pos_iff.2 hne
  obtain ⟨r, rfl⟩ : ∃ r, q = [r] := List.length_eq_one_iff.1 (by omega)
  have hroot : rootIdx (buildArena f) ∉ childSlots (buildArena f) := by
    intro hm
    have := (childSlots_buildArena h).mem_iff.1 hm
    simp at this
  have hr : r = rootIdx (buildArena f) := by
    have : rootIdx (buildArena f) ∈ [r] := (hf.available_iff _).1 ⟨by unfold rootIdx; omega, hroot⟩
    exact (List.mem_singleton.1 this).symm
  have := hf.weights ht
  rw [hr] at this
  simpa using this

end Sys2Proof.Machine
end

