-- ==== Sys2Proof/Laws/Codes.lean ====
section
/-! SUPPORT. Paths in the arena and what the code table generator records (spec/42_codegen.md R171 to R174). -/

namespace Sys2Proof.Machine

/-! ## Paths in any arena -/

theorem PathTo.cons {arena : List Node} {i j : Nat} {bit : Bool} {p : Bits} (h : (nodeAt arena i).isInternal = true)
    (hp : PathTo arena (childOf arena i bit) p j) : PathTo arena i (bit :: p) j := .step h hp

theorem PathTo.nil_iff {arena : List Node} {i j : Nat} : PathTo arena i [] j ↔ i = j := by
  constructor
  · intro h; cases h; rfl
  · rintro rfl; exact .here _

theorem PathTo.cons_iff {arena : List Node} {i j : Nat} {bit : Bool} {p : Bits} :
    PathTo arena i (bit :: p) j ↔ (nodeAt arena i).isInternal = true ∧ PathTo arena (childOf arena i bit) p j := by
  constructor
  · intro h; cases h with | step h1 h2 => exact ⟨h1, h2⟩
  · rintro ⟨h1, h2⟩; exact .step h1 h2

theorem PathTo.append_iff {arena : List Node} {i j : Nat} {p q : Bits} :
    PathTo arena i (p ++ q) j ↔ ∃ k, PathTo arena i p k ∧ PathTo arena k q j := by
  induction p generalizing i with
  | nil => simp [PathTo.nil_iff]
  | cons b p ih => simp [PathTo.cons_iff, ih, and_assoc]

theorem PathTo.snoc_iff {arena : List Node} {i j : Nat} {p : Bits} {bit : Bool} :
    PathTo arena i (p ++ [bit]) j ↔
      ∃ k, PathTo arena i p k ∧ (nodeAt arena k).isInternal = true ∧ childOf arena k bit = j := by
  simp [PathTo.append_iff, PathTo.cons_iff, PathTo.nil_iff]

/-- The steps determine where they lead. -/
theorem PathTo.functional {arena : List Node} {i j k : Nat} {p : Bits} (h1 : PathTo arena i p j)
    (h2 : PathTo arena i p k) : j = k := by
  induction h1 with
  | here i => exact PathTo.nil_iff.1 h2
  | step _ _ ih => exact ih (PathTo.cons_iff.1 h2).2

/-- A path to a leaf is no proper prefix of a path. -/
theorem PathTo.leaf_append {arena : List Node} {i j k : Nat} {p q : Bits} (h1 : PathTo arena i p j)
    (hj : (nodeAt arena j).isInternal = false) (h2 : PathTo arena i (p ++ q) k) : q = [] := by
  obtain ⟨m, hm, hq⟩ := PathTo.append_iff.1 h2
  obtain rfl := h1.functional hm
  cases q with
  | nil => rfl
  | cons b q => rw [PathTo.cons_iff, hj] at hq; simp at hq

/-! ## The traversal -/

/-- The traversal leaves a symbol's code alone when no path leads to a leaf of that symbol (R171). -/
theorem visit_of_no_path (arena : List Node) (fuel i : Nat) (buf : Bits) (codes : CodeTable) (s : Byte)
    (h : ∀ p j, PathTo arena i p j → (nodeAt arena j).isInternal = false → (nodeAt arena j).sym ≠ s) :
    codeAt (visit arena fuel i buf codes) s = codeAt codes s := by
  induction fuel generalizing i buf codes with
  | zero => rfl
  | succ fuel ih =>
    rw [visit]
    have h0 := h [] i (.here i)
    split
    · next sym w q e =>
      rw [e] at h0
      rw [codeAt_codeSet, if_neg (show ¬ sym = s from h0 rfl)]
    · next w q l r e =>
      have hi : (nodeAt arena i).isInternal = true := by rw [e]; rfl
      have hl : childOf arena i true = l.toNat := by simp [childOf, e, Node.left]
      have hr : childOf arena i false = r.toNat := by simp [childOf, e, Node.right]
      rw [ih, ih]
      · intro p j hp; exact h (true :: p) j (.cons hi (hl ▸ hp))
      · intro p j hp; exact h (false :: p) j (.cons hi (hr ▸ hp))

/-- The traversal records the path to a leaf as its symbol's code when no other path leads to a leaf of that symbol
(R171, R172). -/
theorem visit_of_path (arena : List Node) (fuel i : Nat) (buf : Bits) (codes : CodeTable) {p : Bits} {j : Nat}
    (hbelow : ∀ k, k ≤ i → (nodeAt arena k).isInternal = true →
      (nodeAt arena k).left.toNat < k ∧ (nodeAt arena k).right.toNat < k)
    (hf : i < fuel) (hp : PathTo arena i p j) (hj : (nodeAt arena j).isInternal = false)
    (huniq : ∀ p' j', PathTo arena i p' j' → (nodeAt arena j').isInternal = false →
      (nodeAt arena j').sym = (nodeAt arena j).sym → p' = p) :
    codeAt (visit arena fuel i buf codes) (nodeAt arena j).sym = buf ++ p := by
  induction fuel generalizing i buf codes p with
  | zero => omega
  | succ fuel ih =>
    rw [visit]
    split
    · next sym w q e =>
      cases p with
      | nil =>
        obtain rfl := PathTo.nil_iff.1 hp
        rw [e, codeAt_codeSet]; simp [Node.sym]
      | cons b p => rw [PathTo.cons_iff, e] at hp; simp [Node.isInternal] at hp
    · next w q l r e =>
      have hi : (nodeAt arena i).isInternal = true := by rw [e]; rfl
      have hl : childOf arena i true = l.toNat := by simp [childOf, e, Node.left]
      have hr : childOf arena i false = r.toNat := by simp [childOf, e, Node.right]
      have hb := hbelow i le_rfl hi
      rw [e] at hb
      simp only [Node.left, Node.right] at hb
      cases p with
      | nil => obtain rfl := PathTo.nil_iff.1 hp; rw [hi] at hj; simp at hj
      | cons b p =>
        obtain ⟨-, hp'⟩ := PathTo.cons_iff.1 hp
        cases b with
        | false =>
          rw [hr] at hp'
          rw [ih r.toNat (buf ++ [false]) _ (fun k hk => hbelow k (by omega)) (by omega) hp'
            (fun p' j' h1 h2 h3 => (List.cons.inj (huniq (false :: p') j' (.cons hi (hr ▸ h1)) h2 h3)).2)]
          simp
        | true =>
          rw [hl] at hp'
          rw [visit_of_no_path arena fuel r.toNat]
          · rw [ih l.toNat (buf ++ [true]) _ (fun k hk => hbelow k (by omega)) (by omega) hp'
              (fun p' j' h1 h2 h3 => (List.cons.inj (huniq (true :: p') j' (.cons hi (hl ▸ h1)) h2 h3)).2)]
            simp
          · intro p' j' h1 h2 h3
            have := (List.cons.inj (huniq (false :: p') j' (.cons hi (hr ▸ h1)) h2 h3)).1
            simp at this

/-! ## Paths in the finished arena -/

section Built

variable {f : FreqTable}

theorem nodeAt_beyond {arena : List Node} {i : Nat} (h : arena.length ≤ i) : (nodeAt arena i).isInternal = false := by
  simp [nodeAt, List.getD_eq_getElem?_getD, List.getElem?_eq_none h, Node.isInternal]

theorem internal_lt {arena : List Node} {i : Nat} (h : (nodeAt arena i).isInternal = true) : i < arena.length := by
  by_contra hn
  rw [nodeAt_beyond (by omega)] at h
  simp at h

theorem childOf_lt {k : Nat} {bit : Bool} (h : (nodeAt (buildArena f) k).isInternal = true) :
    childOf (buildArena f) k bit < k := by
  obtain ⟨h1, h2, _⟩ := buildArena_children (internal_lt h) h
  unfold childOf
  split <;> assumption

theorem childOf_mem_slots {arena : List Node} {k : Nat} {bit : Bool} (h : (nodeAt arena k).isInternal = true) :
    childOf arena k bit ∈ childSlots arena := by
  rw [childSlots, List.mem_flatMap]
  have hk := internal_lt h
  refine ⟨nodeAt arena k, by rw [nodeAt_eq_getElem hk]; exact List.getElem_mem hk, ?_⟩
  rw [if_pos h]
  unfold childOf
  cases bit <;> simp

theorem mem_slots {arena : List Node} {i : Nat} (h : i ∈ childSlots arena) :
    ∃ k bit, (nodeAt arena k).isInternal = true ∧ childOf arena k bit = i := by
  rw [childSlots, List.mem_flatMap] at h
  obtain ⟨n, hn, hm⟩ := h
  obtain ⟨k, hk, rfl⟩ := List.getElem_of_mem hn
  rw [← nodeAt_eq_getElem hk] at hm
  by_cases hi : (nodeAt arena k).isInternal = true
  · rw [if_pos hi] at hm
    simp only [List.mem_cons, List.not_mem_nil, or_false] at hm
    rcases hm with rfl | rfl
    · exact ⟨k, true, hi, by simp [childOf]⟩
    · exact ⟨k, false, hi, by simp [childOf]⟩
  · rw [if_neg hi] at hm; simp at hm

theorem pos_of_internal {k : Nat} (h : (nodeAt (buildArena f) k).isInternal = true) : 1 ≤ (symbolsOf f).length := by
  by_contra hn
  have hk := internal_lt h
  rw [buildArena_empty (by omega)] at hk
  simp at hk

/-- A node has one parent, on one side (R157). -/
theorem parent_unique {k k' : Nat} {b b' : Bool} (h : (nodeAt (buildArena f) k).isInternal = true)
    (h' : (nodeAt (buildArena f) k').isInternal = true)
    (e : childOf (buildArena f) k b = childOf (buildArena f) k' b') : k = k' ∧ b = b' := by
  have hnd : (childSlots (buildArena f)).Nodup :=
    (childSlots_buildArena (pos_of_internal h)).nodup_iff.2 List.nodup_range
  rw [childSlots, List.nodup_flatMap] at hnd
  have hpw := List.pairwise_iff_getElem.1 hnd.2
  have hk := internal_lt h
  have hk' := internal_lt h'
  have hmem : ∀ m c, (nodeAt (buildArena f) m).isInternal = true → (hm : m < (buildArena f).length) →
      childOf (buildArena f) m c ∈
        (if (buildArena f)[m].isInternal then [(buildArena f)[m].left.toNat, (buildArena f)[m].right.toNat] else []) := by
    intro m c hi hm
    rw [← nodeAt_eq_getElem hm, if_pos hi]
    unfold childOf
    cases c <;> simp
  have hkk : k = k' := by
    rcases Nat.lt_trichotomy k k' with hlt | heq | hgt
    · exact absurd (e ▸ hmem k' b' h' hk') (hpw k k' hk hk' hlt (hmem k b h hk))
    · exact heq
    · exact absurd (e ▸ hmem k b h hk) (fun hx => hpw k' k hk' hk hgt (hmem k' b' h' hk') (e ▸ hx))
  subst hkk
  refine ⟨rfl, ?_⟩
  have hne := (buildArena_children hk h).2.2
  cases b <;> cases b' <;> simp_all [childOf]

/-- Every node is on a path from the root (R157). -/
theorem exists_path {i : Nat} (hi : i < (buildArena f).length) :
    ∃ p, PathTo (buildArena f) (rootIdx (buildArena f)) p i := by
  have hn : 1 ≤ (symbolsOf f).length := by
    by_contra h; rw [buildArena_empty (by omega)] at hi; simp at hi
  obtain ⟨d, hd⟩ : ∃ d, d = rootIdx (buildArena f) - i := ⟨_, rfl⟩
  induction d using Nat.strong_induction_on generalizing i with
  | _ d ih =>
    by_cases hr : i = rootIdx (buildArena f)
    · exact ⟨[], hr ▸ .here _⟩
    · have hlt : i < rootIdx (buildArena f) := by unfold rootIdx at *; omega
      obtain ⟨k, b, hk, rfl⟩ := mem_slots ((childSlots_buildArena hn).mem_iff.2 (List.mem_range.2 hlt))
      have h1 := childOf_lt (bit := b) hk
      have h2 := internal_lt hk
      obtain ⟨p, hp⟩ := ih (rootIdx (buildArena f) - k) (by unfold rootIdx at *; omega) h2 rfl
      exact ⟨p ++ [b], PathTo.snoc_iff.2 ⟨k, hp, hk, rfl⟩⟩

theorem root_no_parent {k : Nat} {b : Bool} (h : (nodeAt (buildArena f) k).isInternal = true) :
    childOf (buildArena f) k b ≠ rootIdx (buildArena f) := by
  have h1 := childOf_lt (bit := b) h
  have h2 := internal_lt h
  unfold rootIdx
  omega

/-- Only one path from the root leads to a node (R157). -/
theorem path_unique {p p' : Bits} {i : Nat} (h : PathTo (buildArena f) (rootIdx (buildArena f)) p i)
    (h' : PathTo (buildArena f) (rootIdx (buildArena f)) p' i) : p = p' := by
  induction p using List.reverseRecOn generalizing p' i with
  | nil =>
    obtain rfl := PathTo.nil_iff.1 h
    rcases List.eq_nil_or_concat p' with rfl | ⟨q, b, rfl⟩
    · rfl
    · rw [List.concat_eq_append] at h'
      obtain ⟨k, _, hk, e⟩ := PathTo.snoc_iff.1 h'
      exact absurd e (root_no_parent hk)
  | append_singleton p b ih =>
    obtain ⟨k, hp, hk, e⟩ := PathTo.snoc_iff.1 h
    rcases List.eq_nil_or_concat p' with rfl | ⟨q, b', rfl⟩
    · obtain rfl := PathTo.nil_iff.1 h'
      exact absurd e (root_no_parent hk)
    · rw [List.concat_eq_append] at h' ⊢
      obtain ⟨k', hp', hk', e'⟩ := PathTo.snoc_iff.1 h'
      obtain ⟨rfl, rfl⟩ := parent_unique hk hk' (e.trans e'.symm)
      rw [ih hp hp']

/-- A path from node i is at most as long as there are internal nodes up to i (R157). -/
theorem path_length_le {i j : Nat} {p : Bits} (h : PathTo (buildArena f) i p j) :
    p.length ≤ i + 1 - (symbolsOf f).length := by
  induction h with
  | here i => simp
  | @step i j bit p hi _ ih =>
    have h1 := childOf_lt (bit := bit) hi
    have h2 := (buildArena_kind (internal_lt hi)).1 hi
    have ih' : p.length ≤ childOf (buildArena f) i bit + 1 - (symbolsOf f).length := ih
    rw [List.length_cons]
    omega

theorem root_path_length_le {j : Nat} {p : Bits} (hn : 1 ≤ (symbolsOf f).length)
    (h : PathTo (buildArena f) (rootIdx (buildArena f)) p j) : p.length ≤ (symbolsOf f).length - 1 := by
  have h1 := path_length_le h
  have h2 := length_buildArena hn
  unfold rootIdx at h1
  omega

/-- The leaves of the arena are the leaves of the symbols. -/
theorem leaf_symbol {j : Nat} (hj : j < (buildArena f).length) (hl : (nodeAt (buildArena f) j).isInternal = false) :
    (symbolsOf f)[j]? = some (nodeAt (buildArena f) j).sym := by
  have hlt : j < (symbolsOf f).length := by
    by_contra hn
    rw [(buildArena_kind hj).2 (by omega)] at hl
    simp at hl
  have hs : (symbolsOf f)[j]? = some (symbolsOf f)[j] := List.getElem?_eq_getElem hlt
  have := buildArena_leaf hs
  rw [List.getElem?_eq_getElem hj, ← nodeAt_eq_getElem hj] at this
  rw [hs, Option.some.inj this]
  rfl

theorem symbol_leaf {j : Nat} {b : Byte} (h : (symbolsOf f)[j]? = some b) :
    j < (buildArena f).length ∧ nodeAt (buildArena f) j = .leaf b (freqAt f b) (BitVec.ofNat 9 j) := by
  have := buildArena_leaf h
  obtain ⟨hj, e⟩ := List.getElem?_eq_some_iff.1 this
  exact ⟨hj, by rw [nodeAt_eq_getElem hj, e]⟩

theorem path_lt {i j : Nat} {p : Bits} (hi : i < (buildArena f).length) (h : PathTo (buildArena f) i p j) :
    j < (buildArena f).length := by
  induction h with
  | here i => exact hi
  | @step i j bit p h1 _ ih =>
    have h2 := childOf_lt (bit := bit) h1
    exact ih (show childOf (buildArena f) i bit < _ by omega)

theorem symbol_index_unique {i j : Nat} {b : Byte} (h1 : (symbolsOf f)[i]? = some b)
    (h2 : (symbolsOf f)[j]? = some b) : i = j := by
  obtain ⟨hi, e1⟩ := List.getElem?_eq_some_iff.1 h1
  obtain ⟨hj, e2⟩ := List.getElem?_eq_some_iff.1 h2
  exact (symbolsOf_nodup f).getElem_inj_iff.1 (e1.trans e2.symm)

/-- With two symbols or more, a symbol's code is the path to its leaf (R172). -/
theorem codeAt_eq_path (hn : 2 ≤ (symbolsOf f).length) {j : Nat} {b : Byte} (hb : (symbolsOf f)[j]? = some b) :
    PathTo (buildArena f) (rootIdx (buildArena f)) (codeAt (codesOf (buildArena f)) b) j := by
  obtain ⟨hj, he⟩ := symbol_leaf hb
  have hlen := length_buildArena (f := f) (by omega)
  have hroot : rootIdx (buildArena f) < (buildArena f).length := by unfold rootIdx; omega
  obtain ⟨p, hp⟩ := exists_path hj
  have hs : (nodeAt (buildArena f) j).sym = b := by rw [he]; rfl
  have hl : (nodeAt (buildArena f) j).isInternal = false := by rw [he]; rfl
  have hv := visit_of_path (buildArena f) (buildArena f).length (rootIdx (buildArena f)) [] codesEmpty
    (fun k _ hi => ⟨(buildArena_children (internal_lt hi) hi).1, (buildArena_children (internal_lt hi) hi).2.1⟩)
    hroot hp hl (by
      intro p' j' h1 h2 h3
      have h4 := leaf_symbol (path_lt hroot h1) h2
      rw [h3, hs] at h4
      have h5 : j' = j := symbol_index_unique h4 hb
      exact path_unique (h5 ▸ h1) hp)
  rw [hs] at hv
  have hc : codesOf (buildArena f) =
      visit (buildArena f) (buildArena f).length (rootIdx (buildArena f)) [] codesEmpty := by
    rw [codesOf, if_neg (by omega), if_neg (by omega)]
  rw [hc, hv]
  exact hp

/-- A byte that is no symbol has no code (R171, R174). -/
theorem codeAt_no_symbol {b : Byte} (hb : freqAt f b = 0#64) : codeAt (codesOf (buildArena f)) b = [] := by
  have hnot : b ∉ symbolsOf f := fun h => (mem_symbolsOf f b).1 h hb
  rw [codesOf]
  split
  · simp
  · split
    · next h0 h1 =>
      have hj : 0 < (buildArena f).length := by omega
      have hk : (nodeAt (buildArena f) 0).isInternal = false := by
        by_contra hi
        have hi' : (nodeAt (buildArena f) 0).isInternal = true := by simpa using hi
        have := childOf_lt (bit := true) hi'
        omega
      have := leaf_symbol hj hk
      rw [codeAt_codeSet, if_neg, codeAt_codesEmpty]
      intro e
      exact hnot (e ▸ List.mem_of_getElem? this)
    · rw [visit_of_no_path, codeAt_codesEmpty]
      intro p j hp hl e
      have hroot : rootIdx (buildArena f) < (buildArena f).length := by unfold rootIdx; omega
      exact hnot (e ▸ List.mem_of_getElem? (leaf_symbol (path_lt hroot hp) hl))

/-- A single symbol has the one-bit code 0 (R173). -/
theorem codeAt_single {b : Byte} (h : symbolsOf f = [b]) : codeAt (codesOf (buildArena f)) b = [false] := by
  have hlen := length_buildArena (f := f) (by simp [h])
  rw [h] at hlen
  simp only [List.length_singleton] at hlen
  have h0 : (symbolsOf f)[0]? = some b := by simp [h]
  obtain ⟨_, he⟩ := symbol_leaf h0
  rw [codesOf, if_neg (by omega), if_pos (by omega), codeAt_codeSet, he]
  simp [Node.sym]

/-- Every symbol has a code (R174). -/
theorem codeAt_ne_nil {b : Byte} (hb : freqAt f b ≠ 0#64) : codeAt (codesOf (buildArena f)) b ≠ [] := by
  obtain ⟨j, hj⟩ := List.getElem?_of_mem ((mem_symbolsOf f b).2 hb)
  by_cases hn : 2 ≤ (symbolsOf f).length
  · intro e
    have hp := codeAt_eq_path hn hj
    rw [e, PathTo.nil_iff] at hp
    have h1 := length_buildArena (f := f) (by omega)
    have h2 := (List.getElem?_eq_some_iff.1 hj).1
    unfold rootIdx at hp
    omega
  · have h2 := (List.getElem?_eq_some_iff.1 hj).1
    obtain ⟨c, hc⟩ : ∃ c, symbolsOf f = [c] := List.length_eq_one_iff.1 (by omega)
    have : b = c := by
      rw [hc] at hj
      have := List.mem_of_getElem? hj
      simpa using this
    rw [this, codeAt_single hc]
    simp

end Built

/-! ## The Kraft sum -/

/-- The leaves under node i with the paths to them. -/
def leafPaths (arena : List Node) : Nat → Nat → List (Nat × Bits)
  | 0, _ => []
  | fuel + 1, i =>
    if (nodeAt arena i).isInternal then
      ((leafPaths arena fuel (childOf arena i true)).map fun x => (x.1, true :: x.2)) ++
        (leafPaths arena fuel (childOf arena i false)).map fun x => (x.1, false :: x.2)
    else [(i, [])]

theorem mem_leafPaths {f : FreqTable} {fuel i : Nat} (hf : i < fuel) (x : Nat × Bits) :
    x ∈ leafPaths (buildArena f) fuel i ↔
      PathTo (buildArena f) i x.2 x.1 ∧ (nodeAt (buildArena f) x.1).isInternal = false := by
  obtain ⟨j, p⟩ := x
  induction fuel generalizing i p with
  | zero => omega
  | succ fuel ih =>
    rw [leafPaths]
    by_cases hi : (nodeAt (buildArena f) i).isInternal = true
    · have h1 := childOf_lt (bit := true) hi
      have h2 := childOf_lt (bit := false) hi
      rw [if_pos hi]
      simp only [List.mem_append, List.mem_map, Prod.exists, Prod.mk.injEq]
      constructor
      · rintro (⟨j', q, hm, rfl, rfl⟩ | ⟨j', q, hm, rfl, rfl⟩)
        · obtain ⟨h3, h4⟩ := (ih (by omega) q).1 hm
          exact ⟨.cons hi h3, h4⟩
        · obtain ⟨h3, h4⟩ := (ih (by omega) q).1 hm
          exact ⟨.cons hi h3, h4⟩
      · rintro ⟨hp, hl⟩
        cases p with
        | nil => obtain rfl := PathTo.nil_iff.1 hp; simp [hi] at hl
        | cons b q =>
          obtain ⟨-, hq⟩ := PathTo.cons_iff.1 hp
          cases b with
          | true => exact .inl ⟨j, q, (ih (by omega) q).2 ⟨hq, hl⟩, rfl, rfl⟩
          | false => exact .inr ⟨j, q, (ih (by omega) q).2 ⟨hq, hl⟩, rfl, rfl⟩
    · rw [if_neg hi]
      have hi' : (nodeAt (buildArena f) i).isInternal = false := by simpa using hi
      simp only [List.mem_singleton, Prod.mk.injEq]
      constructor
      · rintro ⟨rfl, rfl⟩; exact ⟨.here _, hi'⟩
      · rintro ⟨hp, -⟩
        cases p with
        | nil => exact ⟨(PathTo.nil_iff.1 hp).symm, rfl⟩
        | cons b q => exact absurd (PathTo.cons_iff.1 hp).1 hi

theorem leafPaths_nodup (arena : List Node) (fuel i : Nat) : (leafPaths arena fuel i).Nodup := by
  induction fuel generalizing i with
  | zero => simp [leafPaths]
  | succ fuel ih =>
    rw [leafPaths]
    split
    · rw [List.nodup_append]
      refine ⟨(ih _).map ?_, (ih _).map ?_, ?_⟩
      · intro x y h; simp only [Prod.mk.injEq, List.cons.injEq, true_and] at h; exact Prod.ext h.1 h.2
      · intro x y h; simp only [Prod.mk.injEq, List.cons.injEq, true_and] at h; exact Prod.ext h.1 h.2
      · intro x hx y hy e
        obtain ⟨u, _, rfl⟩ := List.mem_map.1 hx
        obtain ⟨v, _, rfl⟩ := List.mem_map.1 hy
        simp at e
    · simp

/-- The Kraft sum over the leaves under a node is 1, scaled by 2^d (R174). -/
theorem kraft_leafPaths {f : FreqTable} {fuel i d : Nat} (hf : i < fuel)
    (hd : ∀ x ∈ leafPaths (buildArena f) fuel i, x.2.length ≤ d) :
    ((leafPaths (buildArena f) fuel i).map fun x => 2 ^ (d - x.2.length)).sum = 2 ^ d := by
  induction fuel generalizing i d with
  | zero => omega
  | succ fuel ih =>
    rw [leafPaths] at hd ⊢
    by_cases hi : (nodeAt (buildArena f) i).isInternal = true
    · have h1 := childOf_lt (bit := true) hi
      have h2 := childOf_lt (bit := false) hi
      rw [if_pos hi] at hd ⊢
      have hd1 : ∀ x ∈ leafPaths (buildArena f) fuel (childOf (buildArena f) i true), x.2.length + 1 ≤ d := fun x hx => by
        simpa using hd (x.1, true :: x.2) (List.mem_append_left _ (List.mem_map.2 ⟨x, hx, rfl⟩))
      have hd2 : ∀ x ∈ leafPaths (buildArena f) fuel (childOf (buildArena f) i false), x.2.length + 1 ≤ d := fun x hx => by
        simpa using hd (x.1, false :: x.2) (List.mem_append_right _ (List.mem_map.2 ⟨x, hx, rfl⟩))
      have ht := ih (i := childOf (buildArena f) i true) (d := d - 1) (by omega) (fun x hx => by have := hd1 x hx; omega)
      have hfl := ih (i := childOf (buildArena f) i false) (d := d - 1) (by omega) (fun x hx => by have := hd2 x hx; omega)
      have hpos : 1 ≤ d := by
        by_contra hn
        have : leafPaths (buildArena f) fuel (childOf (buildArena f) i true) = [] := by
          rw [List.eq_nil_iff_forall_not_mem]
          intro x hx
          have := hd1 x hx
          omega
        rw [this] at ht
        have := Nat.two_pow_pos (d - 1)
        simp at ht
        omega
      have e : ∀ l : List (Nat × Bits), (l.map fun x => 2 ^ (d - (x.2.length + 1))) =
          l.map fun x => 2 ^ (d - 1 - x.2.length) := fun l =>
        List.map_congr_left fun x _ => by congr 1; omega
      rw [List.map_append, List.sum_append, List.map_map, List.map_map]
      simp only [Function.comp_def, List.length_cons]
      rw [e, e, ht, hfl, ← two_mul, ← pow_succ']
      congr 1
      omega
    · rw [if_neg hi, List.map_singleton, List.sum_singleton, List.length_nil, Nat.sub_zero]

end Sys2Proof.Machine
end

