-- ==== Sys2Proof/Laws/Histogram.lean ====
section
/-! SUPPORT. What the counting loop and the header operations do (spec/40_histogram.md R131 to R137), one lemma per shared
operation. -/

namespace Sys2Proof.Machine

/-! ## Streams -/

@[simp] theorem State.outWriteAll_nil (s : State) : s.outWriteAll [] = s := by
  simp [State.outWriteAll]

theorem State.outWriteAll_append (s : State) (a b : List Byte) :
    s.outWriteAll (a ++ b) = (s.outWriteAll a).outWriteAll b := by
  simp [State.outWriteAll, BitVec.ofNat_add, BitVec.add_assoc]

theorem State.outWrite_eq (s : State) (b : Byte) : s.outWrite b = s.outWriteAll [b] := rfl

/-- Appending a list is OutWrite of each of its bytes in order (R91). -/
theorem State.outWriteAll_eq_foldl (s : State) (bs : List Byte) : s.outWriteAll bs = bs.foldl State.outWrite s := by
  induction bs generalizing s with
  | nil => simp
  | cons b bs ih =>
    rw [List.foldl_cons, ← ih, State.outWrite_eq, ← State.outWriteAll_append]
    rfl

/-- `n` InReads in a row advance IN_PTR by `n` and change nothing else (R90). -/
def State.advance (s : State) (n : Nat) : State := { s with inPtr := s.inPtr + BitVec.ofNat 64 n }

@[simp] theorem State.advance_zero (s : State) : s.advance 0 = s := by simp [State.advance]

theorem State.advance_advance (s : State) (m n : Nat) : (s.advance m).advance n = s.advance (m + n) := by
  simp [State.advance, BitVec.ofNat_add, BitVec.add_assoc]

theorem State.consume_eq (s : State) : s.consume = s.advance 1 := rfl

theorem State.outWriteAll_advance (s : State) (bs : List Byte) (n : Nat) :
    (s.advance n).outWriteAll bs = (s.outWriteAll bs).advance n := rfl

theorem State.remaining_length (s : State) : s.remaining.length = s.input.length - s.inPtr.toNat := by
  simp [State.remaining]

/-- Reading all the remaining bytes brings IN_PTR to IN_LEN (R90, R135). -/
theorem State.advance_remaining (s : State) (h : s.inPtr.toNat ≤ s.input.length) :
    s.inPtr + BitVec.ofNat 64 s.remaining.length = BitVec.ofNat 64 s.input.length := by
  have e : s.inPtr = BitVec.ofNat 64 s.inPtr.toNat := by simp
  rw [State.remaining_length]
  conv_lhs => rw [e]
  rw [← BitVec.ofNat_add]
  simp only [BitVec.ofNat_toNat, BitVec.setWidth_eq]
  congr 1
  omega

/-! ## Counting -/

theorem freqAt_foldl_countByte (xs : List Byte) (f : FreqTable) (b : Byte) :
    freqAt (xs.foldl countByte f) b = freqAt f b + BitVec.ofNat 64 (xs.count b) := by
  induction xs generalizing f with
  | nil => simp
  | cons x xs ih =>
    rw [List.foldl_cons, ih, List.count_cons, countByte, freqAt_freqSet]
    by_cases h : x = b
    · subst h
      simp only [if_true, beq_self_eq_true, BitVec.ofNat_add]
      ac_rfl
    · simp [h]

/-- The counting loop (R135): it reads every byte and counts it, and touches IN_PTR and FREQ only. -/
theorem accumBytes_eq (xs : List Byte) (s : State) :
    accumBytes xs s = { s.advance xs.length with freq := xs.foldl countByte s.freq } := by
  induction xs generalizing s with
  | nil => simp [accumBytes]
  | cons x xs ih =>
    have e : s.inPtr + 1#64 + BitVec.ofNat 64 xs.length = s.inPtr + BitVec.ofNat 64 (x :: xs).length := by
      rw [List.length_cons, BitVec.ofNat_add]; ac_rfl
    rw [accumBytes, ih]
    simp only [State.advance, State.consume, List.foldl_cons, e]

theorem sum_count_eq_length (xs : List Byte) : (allBytes.map fun b => xs.count b).sum = xs.length := by
  induction xs with
  | nil => simp only [List.count_nil, List.map_const', List.sum_replicate, smul_zero, List.length_nil]
  | cons x xs ih =>
    have h1 : (allBytes.map fun b => (x :: xs).count b) =
        allBytes.map fun b => xs.count b + (if x = b then 1 else 0) := by
      apply List.map_congr_left; intro b _; simp [List.count_cons]
    have h2 : (allBytes.map fun b => if x = b then 1 else 0).sum = 1 := by
      have h3 : (allBytes.map fun b => if x = b then 1 else 0).sum = allBytes.count x := by
        induction allBytes with
        | nil => rfl
        | cons b bs ihb =>
          rw [List.map_cons, List.sum_cons, ihb, List.count_cons, Nat.add_comm]
          by_cases h : x = b
          · subst h; simp
          · simp [h, show ¬ b = x from fun e => h e.symm]
      rw [h3, List.count_eq_one_of_mem allBytes_nodup (mem_allBytes x)]
    rw [h1, List.sum_map_add, ih, h2, List.length_cons]

/-- A table that counts an input has the input's length as its total (R131). -/
theorem CountsOf.total {f : FreqTable} {xs : List Byte} (h : CountsOf f xs) : totalCount f = xs.length := by
  rw [totalCount_eq, ← sum_count_eq_length xs]
  congr 1
  exact List.map_congr_left fun b _ => h b

theorem CountsOf.mem {f : FreqTable} {xs : List Byte} (h : CountsOf f xs) (b : Byte) :
    freqAt f b ≠ 0#64 ↔ b ∈ xs := by
  rw [← List.count_pos_iff, ← h b]
  constructor
  · intro hb; exact Nat.pos_of_ne_zero fun e => hb (BitVec.eq_of_toNat_eq (by simpa using e))
  · intro hb e; simp [e] at hb

/-- Counting an input from a cleared table (R131). -/
theorem countsOf_foldl_countByte (xs : List Byte) (h : xs.length < 2 ^ 64) :
    CountsOf (xs.foldl countByte freqZero) xs := by
  intro b
  rw [freqAt_foldl_countByte]
  have : xs.count b ≤ xs.length := List.count_le_length
  simp only [freqAt_freqZero, BitVec.toNat_add, BitVec.toNat_ofNat]
  omega

/-! ## The header -/

theorem length_countBytes (be : Bool) (v : Count) : (countBytes be v).length = 8 := by
  simp [countBytes, Config.headerWordBytes]

theorem countBytes_getElem? (be : Bool) (v : Count) {k : Nat} (h : k < 8) :
    (countBytes be v)[k]? = some (v.extractLsb' (headerBytePos be k) 8) := by
  simp [countBytes, Config.headerWordBytes, List.getElem?_map, List.getElem?_range h]

theorem flatMap_countBytes_getElem? (be : Bool) (vs : List Count) {i k : Nat} (hi : i < vs.length) (hk : k < 8) :
    (vs.flatMap (countBytes be))[8 * i + k]? = some ((vs[i]).extractLsb' (headerBytePos be k) 8) := by
  induction vs generalizing i with
  | nil => simp at hi
  | cons v vs ih =>
    rw [List.flatMap_cons]
    cases i with
    | zero =>
      rw [List.getElem?_append_left (by rw [length_countBytes]; omega)]
      simpa using countBytes_getElem? be v hk
    | succ i =>
      rw [List.getElem?_append_right (by rw [length_countBytes]; omega), length_countBytes,
        show 8 * (i + 1) + k - 8 = 8 * i + k by omega]
      simpa using ih (by simpa using hi)

theorem length_flatMap_countBytes (be : Bool) (vs : List Count) :
    (vs.flatMap (countBytes be)).length = 8 * vs.length := by
  induction vs with
  | nil => rfl
  | cons v vs ih => rw [List.flatMap_cons, List.length_append, length_countBytes, ih, List.length_cons]; ring

@[simp] theorem length_headerOf (be : Bool) (f : FreqTable) : (headerOf be f).length = 2048 := by
  rw [headerOf, length_flatMap_countBytes, Vector.length_toList]
  rfl

/-- Byte k of count b in a header (R85, R133). -/
theorem headerOf_getElem? (be : Bool) (f : FreqTable) (b : Byte) {k : Nat} (hk : k < 8) :
    (headerOf be f)[8 * b.toNat + k]? = some ((freqAt f b).extractLsb' (headerBytePos be k) 8) := by
  rw [headerOf, flatMap_countBytes_getElem? be f.toList (by simpa using b.isLt) hk]
  simp [freqAt]

theorem foldl_bytes_getLsbD (pos : Nat → Nat) (bs : List Byte) (ks : List Nat) (v : Count) {i : Nat} (hi : i < 64) :
    (ks.foldl (fun v k => v ||| ((bs.getD k 0#8).setWidth 64 <<< pos k)) v).getLsbD i =
      (v.getLsbD i || ks.any fun k => decide (pos k ≤ i) && (bs.getD k 0#8).getLsbD (i - pos k)) := by
  induction ks generalizing v with
  | nil => simp
  | cons k ks ih =>
    rw [List.foldl_cons, ih, List.any_cons, BitVec.getLsbD_or, BitVec.getLsbD_shiftLeft, BitVec.getLsbD_setWidth,
      Bool.or_assoc]
    have h : (decide (i < 64) && !decide (i < pos k) && (decide (i - pos k < 64) && (bs.getD k 0#8).getLsbD (i - pos k))) =
        (decide (pos k ≤ i) && (bs.getD k 0#8).getLsbD (i - pos k)) := by
      have h1 : i - pos k < 64 := by omega
      by_cases h2 : pos k ≤ i
      · simp [hi, h1, h2]
      · simp [h2, Nat.lt_of_not_le h2]
    rw [h]

/-- Bit i of the count that 8 header bytes give is bit i mod 8 of the byte whose place covers it (R85). -/
theorem countOfBytes_getLsbD (be : Bool) (bs : List Byte) {i : Nat} (hi : i < 64) :
    (countOfBytes be bs).getLsbD i = (bs.getD (if be then 7 - i / 8 else i / 8) 0#8).getLsbD (i % 8) := by
  have hpos : ∀ k, k < 8 → headerBytePos be k ≤ i → i - headerBytePos be k < 8 →
      k = (if be then 7 - i / 8 else i / 8) ∧ i - headerBytePos be k = i % 8 := by
    intro k hk h1 h2
    cases be <;> simp [headerBytePos] at * <;> omega
  rw [countOfBytes, foldl_bytes_getLsbD (headerBytePos be) bs _ _ hi, Bool.eq_iff_iff]
  simp only [BitVec.getLsbD_zero, Bool.false_or, List.any_eq_true, List.mem_range, Bool.and_eq_true, decide_eq_true_eq]
  constructor
  · rintro ⟨k, hk, h1, h2⟩
    obtain ⟨e1, e2⟩ := hpos k hk h1 (BitVec.lt_of_getLsbD h2)
    rwa [e2, e1] at h2
  · intro h
    refine ⟨if be then 7 - i / 8 else i / 8, ?_, ?_, ?_⟩
    · show _ < 8
      split <;> omega
    · cases be <;> simp [headerBytePos] <;> omega
    · have e : i - headerBytePos be (if be then 7 - i / 8 else i / 8) = i % 8 := by
        cases be <;> simp [headerBytePos] <;> omega
      rwa [e]

/-- The byte at place k of the count that header bytes give is byte k (R85, R137). -/
theorem extract_countOfBytes (be : Bool) (bs : List Byte) {k : Nat} (hk : k < 8) :
    (countOfBytes be bs).extractLsb' (headerBytePos be k) 8 = bs.getD k 0#8 := by
  apply BitVec.eq_of_getLsbD_eq
  intro j hj
  have hp : headerBytePos be k + j < 64 := by unfold headerBytePos; split <;> omega
  rw [BitVec.getLsbD_extractLsb', countOfBytes_getLsbD be bs hp]
  have e1 : (headerBytePos be k + j) % 8 = j := by unfold headerBytePos; split <;> omega
  have e2 : (if be then 7 - (headerBytePos be k + j) / 8 else (headerBytePos be k + j) / 8) = k := by
    cases be <;> simp [headerBytePos] <;> omega
  rw [e1, e2]
  simp [hj]

/-- The bytes of a count give the count back (R85). -/
theorem countOfBytes_countBytes (be : Bool) (v : Count) : countOfBytes be (countBytes be v) = v := by
  apply BitVec.eq_of_getLsbD_eq
  intro i hi
  have hk : (if be then 7 - i / 8 else i / 8) < 8 := by split <;> omega
  rw [countOfBytes_getLsbD be _ hi, List.getD_eq_getElem?_getD, countBytes_getElem? be v hk]
  have e : headerBytePos be (if be then 7 - i / 8 else i / 8) + i % 8 = i := by
    cases be <;> simp [headerBytePos] <;> omega
  simp only [Option.getD_some, BitVec.getLsbD_extractLsb', e, Nat.mod_lt i (by decide : 0 < 8), decide_true,
    Bool.true_and]

theorem freqAt_freqOfHeader (be : Bool) (bs : List Byte) (b : Byte) :
    freqAt (freqOfHeader be bs) b = countOfBytes be ((bs.drop (8 * b.toNat)).take 8) := by
  simp [freqAt, freqOfHeader, Config.headerWordBytes]

/-- Each header byte is the byte of its count at its place (R85, R137). -/
theorem freqOfHeader_byte (be : Bool) (bs : List Byte) (b : Byte) {k : Nat} (hk : k < 8) (h : 2048 ≤ bs.length) :
    bs[8 * b.toNat + k]? = some ((freqAt (freqOfHeader be bs) b).extractLsb' (headerBytePos be k) 8) := by
  have hb : b.toNat < 256 := b.isLt
  have hl : 8 * b.toNat + k < bs.length := by omega
  rw [freqAt_freqOfHeader, extract_countOfBytes be _ hk, List.getD_eq_getElem?_getD, List.getElem?_take_of_lt hk,
    List.getElem?_drop, List.getElem?_eq_getElem hl]
  rfl

/-- Loading the header of a table gives the table back (R133, R136, R137). -/
theorem freqOfHeader_headerOf (be : Bool) (f : FreqTable) (rest : List Byte) :
    freqOfHeader be (headerOf be f ++ rest) = f := by
  apply freq_ext
  intro b
  apply BitVec.eq_of_getLsbD_eq
  intro i hi
  have hb : b.toNat < 256 := b.isLt
  have hk : (if be then 7 - i / 8 else i / 8) < 8 := by split <;> omega
  have e : headerBytePos be (if be then 7 - i / 8 else i / 8) + i % 8 = i := by
    cases be <;> simp [headerBytePos] <;> omega
  rw [freqAt_freqOfHeader, countOfBytes_getLsbD be _ hi, List.getD_eq_getElem?_getD, List.getElem?_take_of_lt hk,
    List.getElem?_drop, List.getElem?_append_left (by rw [length_headerOf]; omega), headerOf_getElem? be f b hk]
  simp only [Option.getD_some, BitVec.getLsbD_extractLsb', e, Nat.mod_lt i (by decide : 0 < 8), decide_true,
    Bool.true_and]

end Sys2Proof.Machine
end

