-- ==== Sys2Proof/Laws/Packer.lean ====
section
/-! SUPPORT. What the packer does (spec/43_bitpack.md R186 to R189): the bytes written are the code bits, most
significant bit first, with zero padding. -/

namespace Sys2Proof.Machine

/-- The accumulator after shifting in a list of bits (R186). -/
def accOf (bits : Bits) : Byte := bits.foldl shiftIn 0#8

/-- The packer that holds the bits `pend`, fewer than 8 of them. -/
def Packer.holding (pend : Bits) : Packer := ⟨accOf pend, pend.length⟩

theorem Packer.holding_nil : Packer.holding [] = Packer.empty := rfl

theorem accOf_snoc (bits : Bits) (c : Bool) : accOf (bits ++ [c]) = shiftIn (accOf bits) c := by
  simp [accOf]

theorem length_bitsOfByte (b : Byte) : (bitsOfByte b).length = 8 := rfl

theorem bitsOfByte_accOf_eight :
    ∀ a b c d e f g h : Bool, bitsOfByte (accOf [a, b, c, d, e, f, g, h]) = [a, b, c, d, e, f, g, h] := by
  decide +kernel

/-- Eight bits make the byte of those bits (R186, R86). -/
theorem bitsOfByte_accOf {bits : Bits} (h : bits.length = 8) : bitsOfByte (accOf bits) = bits := by
  match bits, h with
  | [a, b, c, d, e, f, g, i], _ => exact bitsOfByte_accOf_eight a b c d e f g i

theorem shift_accOf (bits : Bits) (k : Nat) : accOf bits <<< k = accOf (bits ++ List.replicate k false) := by
  induction k with
  | zero => simp
  | succ k ih =>
    rw [List.replicate_succ', ← List.append_assoc, accOf_snoc, ← ih, shiftIn, BitVec.shiftLeft_add]
    simp

/-- A flushed partial byte is its bits and zeros (R186, R188). -/
theorem bitsOfByte_flush {bits : Bits} (h : bits.length < 8) :
    bitsOfByte (accOf bits <<< (8 - bits.length)) = bits ++ List.replicate (8 - bits.length) false := by
  rw [shift_accOf, bitsOfByte_accOf]
  simp
  omega

@[simp] theorem payloadBits_nil : payloadBits [] = [] := rfl

theorem payloadBits_cons (b : Byte) (bs : List Byte) : payloadBits (b :: bs) = bitsOfByte b ++ payloadBits bs := by
  simp [payloadBits]

theorem payloadBits_append (a b : List Byte) : payloadBits (a ++ b) = payloadBits a ++ payloadBits b := by
  simp [payloadBits]

@[simp] theorem length_payloadBits (bs : List Byte) : (payloadBits bs).length = 8 * bs.length := by
  induction bs with
  | nil => rfl
  | cons b bs ih => rw [payloadBits_cons, List.length_append, ih, length_bitsOfByte, List.length_cons]; ring

theorem codeBits_nil (codes : CodeTable) : codeBits codes [] = [] := rfl

theorem codeBits_cons (codes : CodeTable) (x : Byte) (xs : List Byte) :
    codeBits codes (x :: xs) = codeAt codes x ++ codeBits codes xs := by
  simp [codeBits]

theorem codeBits_append (codes : CodeTable) (a b : List Byte) :
    codeBits codes (a ++ b) = codeBits codes a ++ codeBits codes b := by
  simp [codeBits]

/-- Pushing bits writes whole bytes and keeps the rest, in order (R186). -/
theorem pushBits_spec (pend bits : Bits) (s : State) (h : pend.length < 8) :
    ∃ bs pend', pushBits (.holding pend) s bits = (.holding pend', s.outWriteAll bs) ∧ pend'.length < 8 ∧
      pend ++ bits = payloadBits bs ++ pend' := by
  induction bits generalizing pend s with
  | nil => exact ⟨[], pend, by simp [pushBits], h, by simp⟩
  | cons c bits ih =>
    rw [pushBits]
    by_cases h8 : pend.length + 1 = 8
    · have e : pushBit (.holding pend) s c = (.holding [], s.outWriteAll [accOf (pend ++ [c])]) := by
        rw [pushBit, if_pos (show (Packer.holding pend).fill + 1 = 8 from h8), accOf_snoc]; rfl
      rw [e]
      obtain ⟨bs, pend', h1, h2, h3⟩ := ih [] (s.outWriteAll [accOf (pend ++ [c])]) (by simp)
      refine ⟨accOf (pend ++ [c]) :: bs, pend', ?_, h2, ?_⟩
      · rw [h1, ← State.outWriteAll_append]; rfl
      · rw [payloadBits_cons, bitsOfByte_accOf (by simpa using h8), List.append_assoc, ← h3]
        simp
    · have e : pushBit (.holding pend) s c = (.holding (pend ++ [c]), s) := by
        rw [pushBit, if_neg (show ¬ (Packer.holding pend).fill + 1 = 8 from h8), Packer.holding, Packer.holding,
          accOf_snoc]; simp
      rw [e]
      obtain ⟨bs, pend', h1, h2, h3⟩ := ih (pend ++ [c]) s (by simp; omega)
      exact ⟨bs, pend', h1, h2, by rw [← h3]; simp⟩

/-- Flushing writes the bits held, padded with zeros to a whole byte (R186, R188). -/
theorem flushPartial_spec (pend : Bits) (s : State) (h : pend.length < 8) :
    ∃ bs k, flushPartial (.holding pend) s = s.outWriteAll bs ∧ k < 8 ∧
      payloadBits bs = pend ++ List.replicate k false := by
  rw [flushPartial]
  by_cases h0 : 0 < pend.length
  · refine ⟨[accOf pend <<< (8 - pend.length)], 8 - pend.length, ?_, by omega, ?_⟩
    · rw [if_pos (show 0 < (Packer.holding pend).fill from h0)]; rfl
    · rw [payloadBits_cons, bitsOfByte_flush h]; simp
  · have : pend = [] := List.length_eq_zero_iff.1 (by omega)
    subst this
    exact ⟨[], 0, by simp [Packer.holding], by omega, by simp⟩

/-- The encoding loop over bytes that all have codes (R187). -/
theorem packBytes_spec (xs : List Byte) (pend : Bits) (s : State) (h : pend.length < 8)
    (hc : ∀ x ∈ xs, codeAt s.codes x ≠ []) :
    ∃ bs k, packBytes xs (.holding pend) s = .ok ((s.advance xs.length).outWriteAll bs) ∧ k < 8 ∧
      payloadBits bs = pend ++ codeBits s.codes xs ++ List.replicate k false := by
  induction xs generalizing pend s with
  | nil =>
    obtain ⟨bs, k, h1, h2, h3⟩ := flushPartial_spec pend s h
    exact ⟨bs, k, by simp [packBytes, h1], h2, by simpa [codeBits] using h3⟩
  | cons x xs ih =>
    obtain ⟨bs, pend', h1, h2, h3⟩ := pushBits_spec pend (codeAt s.codes x) s.consume h
    obtain ⟨bs', k, h4, h5, h6⟩ := ih pend' (s.consume.outWriteAll bs) h2 (fun y hy => hc y (List.mem_cons_of_mem _ hy))
    refine ⟨bs ++ bs', k, ?_, h5, ?_⟩
    · rw [packBytes, if_neg (hc x (by simp)), h1, h4, State.consume_eq, ← State.outWriteAll_advance,
        ← State.outWriteAll_append, State.advance_advance, List.length_cons, Nat.add_comm]
    · rw [payloadBits_append, h6, codeBits_cons, ← List.append_assoc, ← List.append_assoc, ← h3]
      simp

/-- The encoding loop stops at the first byte without a code (R187). -/
theorem packBytes_noCode (xs ys : List Byte) (b : Byte) (pend : Bits) (s : State) (h : pend.length < 8)
    (hc : ∀ x ∈ xs, codeAt s.codes x ≠ []) (hb : codeAt s.codes b = []) :
    ∃ bs pend', packBytes (xs ++ b :: ys) (.holding pend) s =
        .error (.noCode, (s.advance xs.length).outWriteAll bs) ∧ pend'.length < 8 ∧
      payloadBits bs ++ pend' = pend ++ codeBits s.codes xs := by
  induction xs generalizing pend s with
  | nil => exact ⟨[], pend, by simp [packBytes, hb], h, by simp [codeBits]⟩
  | cons x xs ih =>
    obtain ⟨bs, pend', h1, h2, h3⟩ := pushBits_spec pend (codeAt s.codes x) s.consume h
    obtain ⟨bs', pend'', h4, h5, h6⟩ := ih pend' (s.consume.outWriteAll bs) h2
      (fun y hy => hc y (List.mem_cons_of_mem _ hy)) hb
    refine ⟨bs ++ bs', pend'', ?_, h5, ?_⟩
    · rw [List.cons_append, packBytes, if_neg (hc x (by simp)), h1, h4, State.consume_eq,
        ← State.outWriteAll_advance, ← State.outWriteAll_append, State.advance_advance, List.length_cons, Nat.add_comm]
    · rw [payloadBits_append, List.append_assoc, h6, codeBits_cons, ← List.append_assoc, ← List.append_assoc, ← h3]
      simp

end Sys2Proof.Machine
end

