-- ==== Sys2Proof/Laws/Unpacker.lean ====
section
/-! SUPPORT. What the decoders do (spec/43_bitpack.md R191, R192), said once on the payload's bits: the bit-level runs of
the EXACT and the legacy decoders, and how a run over whole bytes ends. -/

namespace Sys2Proof.Machine

/-! ## The EXACT decoder on bits -/

/-- One bit of UnpackExact: the bytes it emits and the cursor after it (R191). -/
def bitStep (arena : List Node) (one bit : Bool) (c : Cursor) : List Byte × Cursor :=
  if one then ([(nodeAt arena (rootIdx arena)).sym], ⟨c.cur, c.rem - 1⟩)
  else if (nodeAt arena (childOf arena c.cur bit)).isLeaf then
    ([(nodeAt arena (childOf arena c.cur bit)).sym], ⟨rootIdx arena, c.rem - 1⟩)
  else ([], ⟨childOf arena c.cur bit, c.rem⟩)

/-- A decoder on bits, given its step: the bytes emitted, the cursor, and the bits left when no symbol remains. -/
def runBits (step : Bool → Cursor → List Byte × Cursor) : Bits → Cursor → List Byte × Cursor × Bits
  | [], c => ([], c, [])
  | bit :: bits, c =>
    if (step bit c).2.rem = 0 then ((step bit c).1, (step bit c).2, bits)
    else ((step bit c).1 ++ (runBits step bits (step bit c).2).1, (runBits step bits (step bit c).2).2)

theorem exactBit_eq (one bit : Bool) (c : Cursor) (s : State) :
    exactBit one bit c s = ((bitStep s.arena one bit c).2, s.outWriteAll (bitStep s.arena one bit c).1) := by
  unfold exactBit bitStep
  split
  · rfl
  · split
    · rfl
    · simp

theorem exactByte_eq (one last : Bool) (bits : Bits) (c : Cursor) (s : State) (h : c.rem ≠ 0) :
    exactByte one last bits c s =
      if (runBits (bitStep s.arena one) bits c).2.1.rem = 0 then
        .ended (if last then .ok (s.outWriteAll (runBits (bitStep s.arena one) bits c).1)
                else .error (.trailing, s.outWriteAll (runBits (bitStep s.arena one) bits c).1))
      else .more (runBits (bitStep s.arena one) bits c).2.1 (s.outWriteAll (runBits (bitStep s.arena one) bits c).1) := by
  induction bits generalizing c s with
  | nil => simp [exactByte, runBits, h]
  | cons bit bits ih =>
    rw [exactByte, exactBit_eq, runBits]
    by_cases h0 : (bitStep s.arena one bit c).2.rem = 0
    · simp [h0]
    · simp only [h0, if_false]
      rw [ih _ _ h0]
      simp only [State.outWriteAll_arena, ← State.outWriteAll_append]

theorem runBits_append (step : Bool → Cursor → List Byte × Cursor) (xs ys : Bits) (c : Cursor) (h : c.rem ≠ 0) :
    runBits step (xs ++ ys) c =
      if (runBits step xs c).2.1.rem = 0 then
        ((runBits step xs c).1, (runBits step xs c).2.1, (runBits step xs c).2.2 ++ ys)
      else
        ((runBits step xs c).1 ++ (runBits step ys (runBits step xs c).2.1).1,
          (runBits step ys (runBits step xs c).2.1).2) := by
  induction xs generalizing c with
  | nil => simp [runBits, h]
  | cons bit xs ih =>
    rw [List.cons_append, runBits, runBits]
    by_cases h0 : (step bit c).2.rem = 0
    · simp [h0]
    · simp only [h0, if_false]
      rw [ih _ h0]
      split <;> simp

theorem runBits_left_length (step : Bool → Cursor → List Byte × Cursor) (bits : Bits) (c : Cursor) :
    (runBits step bits c).2.2.length ≤ bits.length - 1 := by
  induction bits generalizing c with
  | nil => simp [runBits]
  | cons bit bits ih =>
    rw [runBits]
    split
    · simp
    · have := ih (step bit c).2
      simp only [List.length_cons]
      omega

/-- The payload ends before the last symbol (R191). -/
theorem exactBytes_truncated (one : Bool) (bs : List Byte) (c : Cursor) (s : State) (h : c.rem ≠ 0)
    (hr : (runBits (bitStep s.arena one) (payloadBits bs) c).2.1.rem ≠ 0) :
    exactBytes one bs c s =
      .error (.truncated, (s.advance bs.length).outWriteAll (runBits (bitStep s.arena one) (payloadBits bs) c).1) := by
  induction bs generalizing c s with
  | nil => simp [exactBytes, runBits]
  | cons b bs ih =>
    rw [payloadBits_cons, runBits_append _ _ _ _ h] at hr ⊢
    rw [exactBytes, exactByte_eq _ _ _ _ _ h]
    simp only [State.consume_arena]
    by_cases h0 : (runBits (bitStep s.arena one) (bitsOfByte b) c).2.1.rem = 0
    · simp [h0] at hr
    · simp only [h0, if_false] at hr ⊢
      rw [ih _ _ h0 (by simpa using hr)]
      rw [State.consume_eq, ← State.outWriteAll_advance]
      simp only [State.outWriteAll_arena]
      rw [← State.outWriteAll_append, State.advance_advance, List.length_cons, Nat.add_comm]
      rfl

/-- The last symbol is decoded within the byte before `q` (R191): success when `q` is empty, else TRAILING. -/
theorem exactBytes_finished (one : Bool) (p q : List Byte) (c : Cursor) (s : State) (h : c.rem ≠ 0)
    (hr : (runBits (bitStep s.arena one) (payloadBits (p ++ q)) c).2.1.rem = 0)
    (h1 : 8 * q.length ≤ (runBits (bitStep s.arena one) (payloadBits (p ++ q)) c).2.2.length)
    (h2 : (runBits (bitStep s.arena one) (payloadBits (p ++ q)) c).2.2.length < 8 * q.length + 8) :
    exactBytes one (p ++ q) c s =
      if q = [] then .ok ((s.advance p.length).outWriteAll (runBits (bitStep s.arena one) (payloadBits (p ++ q)) c).1)
      else .error (.trailing, (s.advance p.length).outWriteAll (runBits (bitStep s.arena one) (payloadBits (p ++ q)) c).1) := by
  induction p generalizing c s with
  | nil =>
    exfalso
    have h3 := runBits_left_length (bitStep s.arena one) (payloadBits q) c
    rw [List.nil_append] at h1 hr
    rw [length_payloadBits] at h3
    cases q with
    | nil => simp [runBits] at hr; exact h hr
    | cons x q => rw [List.length_cons] at h1 h3; omega
  | cons b p ih =>
    rw [List.cons_append] at hr h1 h2 ⊢
    rw [payloadBits_cons, runBits_append _ _ _ _ h] at hr h1 h2 ⊢
    rw [exactBytes, exactByte_eq _ _ _ _ _ h]
    simp only [State.consume_arena]
    by_cases h0 : (runBits (bitStep s.arena one) (bitsOfByte b) c).2.1.rem = 0
    · simp only [h0, if_true] at hr h1 h2 ⊢
      have h3 := runBits_left_length (bitStep s.arena one) (bitsOfByte b) c
      rw [length_bitsOfByte] at h3
      rw [List.length_append, length_payloadBits, List.length_append] at h1 h2
      have hp : p = [] := List.length_eq_zero_iff.1 (by omega)
      subst hp
      rw [List.nil_append, State.consume_eq]
      cases q <;> simp [State.outWriteAll_advance]
    · simp only [h0, if_false] at hr h1 h2 ⊢
      rw [ih _ _ h0 (by simpa using hr) (by simpa using h1) (by simpa using h2)]
      rw [State.consume_eq, ← State.outWriteAll_advance]
      simp only [State.outWriteAll_arena]
      rw [← State.outWriteAll_append, State.advance_advance, List.length_cons, Nat.add_comm]
      rfl

/-! ## Decoding codes -/

section Built

variable {f : FreqTable}

theorem isLeaf_of_internal {arena : List Node} {i : Nat} (h : (nodeAt arena i).isInternal = true) :
    (nodeAt arena i).isLeaf = false := by simp [Node.isLeaf, h]

theorem isLeaf_of_not_internal {arena : List Node} {i : Nat} (h : (nodeAt arena i).isInternal = false) :
    (nodeAt arena i).isLeaf = true := by simp [Node.isLeaf, h]

/-- Following a path to an internal node emits nothing (R191). -/
theorem runBits_path_internal {arena : List Node} {i j : Nat} {p : Bits} {rem : Nat} (hp : PathTo arena i p j)
    (hj : (nodeAt arena j).isInternal = true) (hr : rem ≠ 0) :
    runBits (bitStep arena false) p ⟨i, rem⟩ = ([], ⟨j, rem⟩, []) := by
  induction hp with
  | here i => rfl
  | @step i j bit p hi hp ih =>
    have hc : (nodeAt arena (childOf arena i bit)).isInternal = true := by
      have hp' : PathTo arena (childOf arena i bit) p j := hp
      cases p with
      | nil => rw [PathTo.nil_iff.1 hp']; exact hj
      | cons b p => exact (PathTo.cons_iff.1 hp').1
    have e : bitStep arena false bit ⟨i, rem⟩ = ([], ⟨childOf arena i bit, rem⟩) := by
      simp [bitStep, isLeaf_of_internal hc]
    have ih' : runBits (bitStep arena false) p ⟨childOf arena i bit, rem⟩ = ([], ⟨j, rem⟩, []) := ih hj
    rw [runBits, e]
    simp [hr, ih']

/-- Following a code emits its symbol at its last bit and returns to the root (R191). -/
theorem runBits_path_leaf {arena : List Node} {i j : Nat} {p : Bits} {rem : Nat} (hp : PathTo arena i p j)
    (hne : p ≠ []) (hj : (nodeAt arena j).isInternal = false) (hr : rem ≠ 0) :
    runBits (bitStep arena false) p ⟨i, rem⟩ = ([(nodeAt arena j).sym], ⟨rootIdx arena, rem - 1⟩, []) := by
  obtain ⟨q, b, rfl⟩ : ∃ q b, p = q ++ [b] := by
    rcases List.eq_nil_or_concat p with rfl | ⟨q, b, rfl⟩
    · exact absurd rfl hne
    · exact ⟨q, b, List.concat_eq_append⟩
  obtain ⟨k, hq, hk, e⟩ := PathTo.snoc_iff.1 hp
  rw [runBits_append _ _ _ _ hr, runBits_path_internal hq hk hr]
  have e' : bitStep arena false b ⟨k, rem⟩ = ([(nodeAt arena j).sym], ⟨rootIdx arena, rem - 1⟩) := by
    simp [bitStep, e, isLeaf_of_not_internal hj]
  simp only [hr, if_false, runBits, e', List.nil_append, List.append_nil]
  split <;> rfl

/-- With one symbol every bit is that symbol, whatever its value (R194). -/
theorem runBits_one (arena : List Node) (bits : Bits) (cur rem : Nat) (hr : rem ≠ 0) :
    runBits (bitStep arena true) bits ⟨cur, rem⟩ =
      (List.replicate (min bits.length rem) (nodeAt arena (rootIdx arena)).sym, ⟨cur, rem - bits.length⟩,
        bits.drop rem) := by
  induction bits generalizing rem with
  | nil => simp [runBits]
  | cons bit bits ih =>
    rw [runBits]
    simp only [bitStep, if_true]
    by_cases h1 : rem - 1 = 0
    · obtain rfl : rem = 1 := by omega
      simp [List.replicate_succ]
    · rw [if_neg h1, ih (rem - 1) h1]
      obtain ⟨m, rfl⟩ : ∃ m, rem = m + 1 := ⟨rem - 1, by omega⟩
      simp only [Nat.add_sub_cancel, List.length_cons, List.drop_succ_cons, Nat.add_sub_add_right,
        Nat.add_min_add_right, List.replicate_succ, List.singleton_append]

theorem root_single {b : Byte} (h : symbolsOf f = [b]) :
    (nodeAt (buildArena f) (rootIdx (buildArena f))).sym = b := by
  have hlen := length_buildArena (f := f) (by simp [h])
  rw [h] at hlen
  have h0 : (symbolsOf f)[0]? = some b := by simp [h]
  obtain ⟨_, he⟩ := symbol_leaf h0
  simp only [List.length_singleton] at hlen
  rw [rootIdx, hlen, show 2 * 1 - 1 - 1 = 0 by rfl, he]
  rfl

/-- The EXACT decoder on the code bits of symbols writes them (R191). -/
theorem runBits_codeBits (xs : List Byte) (hx : ∀ x ∈ xs, freqAt f x ≠ 0#64) {rem : Nat} (hr : rem ≠ 0)
    (hle : xs.length ≤ rem) :
    runBits (bitStep (buildArena f) ((symbolsOf f).length == 1)) (codeBits (codesOf (buildArena f)) xs)
        ⟨rootIdx (buildArena f), rem⟩ = (xs, ⟨rootIdx (buildArena f), rem - xs.length⟩, []) := by
  induction xs generalizing rem with
  | nil => simp [codeBits, runBits]
  | cons x xs ih =>
    have hx0 := hx x (by simp)
    have hxs : ∀ y ∈ xs, freqAt f y ≠ 0#64 := fun y hy => hx y (List.mem_cons_of_mem _ hy)
    obtain ⟨j, hj⟩ := List.getElem?_of_mem ((mem_symbolsOf f x).2 hx0)
    have hjl := (List.getElem?_eq_some_iff.1 hj).1
    have hstep : runBits (bitStep (buildArena f) ((symbolsOf f).length == 1)) (codeAt (codesOf (buildArena f)) x)
        ⟨rootIdx (buildArena f), rem⟩ = ([x], ⟨rootIdx (buildArena f), rem - 1⟩, []) := by
      by_cases hn : 2 ≤ (symbolsOf f).length
      · obtain ⟨_, he⟩ := symbol_leaf hj
        have e1 : ((symbolsOf f).length == 1) = false := by simp; omega
        rw [e1, runBits_path_leaf (codeAt_eq_path hn hj) (codeAt_ne_nil hx0) (by rw [he]; rfl) hr, he]
        rfl
      · obtain ⟨c, hc⟩ : ∃ c, symbolsOf f = [c] := List.length_eq_one_iff.1 (by omega)
        have hxc : x = c := by
          have := (mem_symbolsOf f x).2 hx0
          rw [hc] at this
          exact List.mem_singleton.1 this
        have e1 : ((symbolsOf f).length == 1) = true := by simp [hc]
        rw [e1, hxc, codeAt_single hc, runBits_one _ _ _ _ hr, root_single hc]
        have : min 1 rem = 1 := by omega
        simp only [List.length_singleton, this, List.replicate_one]
        congr 2
        obtain ⟨m, rfl⟩ : ∃ m, rem = m + 1 := ⟨rem - 1, by omega⟩
        simp
    rw [codeBits_cons, runBits_append _ _ _ _ hr, hstep]
    simp only
    by_cases h1 : rem - 1 = 0
    · rw [List.length_cons] at hle
      have : xs = [] := List.length_eq_zero_iff.1 (by omega)
      subst this
      simp [h1, codeBits]
    · rw [if_neg h1, ih hxs h1 (by rw [List.length_cons] at hle; omega)]
      simp only [List.singleton_append, List.length_cons]
      rw [show rem - 1 - xs.length = rem - (xs.length + 1) by omega]

/-- The EXACT decoder in the middle of a code has written nothing of it (R191). -/
theorem runBits_part {b : Byte} {part rest : Bits} (hb : freqAt f b ≠ 0#64)
    (hc : codeAt (codesOf (buildArena f)) b = part ++ rest) (hrest : rest ≠ []) {rem : Nat} (hr : rem ≠ 0) :
    ∃ cur, runBits (bitStep (buildArena f) ((symbolsOf f).length == 1)) part ⟨rootIdx (buildArena f), rem⟩ =
      ([], ⟨cur, rem⟩, []) := by
  obtain ⟨j, hj⟩ := List.getElem?_of_mem ((mem_symbolsOf f b).2 hb)
  have hjl := (List.getElem?_eq_some_iff.1 hj).1
  by_cases hn : 2 ≤ (symbolsOf f).length
  · have hp := codeAt_eq_path hn hj
    rw [hc] at hp
    obtain ⟨k, h1, h2⟩ := PathTo.append_iff.1 hp
    have hk : (nodeAt (buildArena f) k).isInternal = true := by
      cases rest with
      | nil => exact absurd rfl hrest
      | cons c rest => exact (PathTo.cons_iff.1 h2).1
    have e1 : ((symbolsOf f).length == 1) = false := by simp; omega
    exact ⟨k, by rw [e1]; exact runBits_path_internal h1 hk hr⟩
  · obtain ⟨c, hc1⟩ : ∃ c, symbolsOf f = [c] := List.length_eq_one_iff.1 (by omega)
    have hbc : b = c := by
      have := (mem_symbolsOf f b).2 hb
      rw [hc1] at this
      exact List.mem_singleton.1 this
    rw [hbc, codeAt_single hc1] at hc
    have : part = [] := by
      cases part with
      | nil => rfl
      | cons x part =>
        simp only [List.cons_append, List.cons.injEq] at hc
        have := List.append_eq_nil_iff.1 hc.2.symm
        exact absurd this.2 hrest
    subst this
    exact ⟨_, rfl⟩

end Built

end Sys2Proof.Machine
end

