-- ==== Sys2Proof/Laws/Codec.lean ====
section
/-! SUPPORT. What the bodies of the commands do, one lemma per body: EXACT decoding of a payload (spec/43_bitpack.md R191)
and the bodies of COMPRESS and DECOMPRESS (spec/44_codec.md R216 to R218). -/

namespace Sys2Proof.Machine

/-! ## EXACT decoding -/

theorem remaining_isEmpty {s : State} {p : List Byte} (h : s.remaining = p) : s.remaining.isEmpty = p.isEmpty := by
  rw [h]

/-- A payload whose last symbol ends in its last byte `p`, with the bytes `q` after it (R191). -/
theorem unpackExact_finished {s : State} {xs p q : List Byte} (ha : s.arena = buildArena s.freq)
    (hrem : s.remaining = p ++ q) (hlen : xs.length = totalCount s.freq) (hx : ∀ x ∈ xs, freqAt s.freq x ≠ 0#64)
    (hne : xs ≠ []) (hp : PayloadOf p (codeBits (codesOf s.arena) xs)) :
    unpackExact (totalCount s.freq) (distinctCount s.freq) s =
      if q = [] then .ok ((s.advance p.length).outWriteAll xs)
      else .error (.trailing, (s.advance p.length).outWriteAll xs) := by
  obtain ⟨pad, hpad, hbits⟩ := hp
  obtain ⟨x, ys, rfl⟩ := List.exists_cons_of_ne_nil hne
  have hsym : freqAt s.freq x ≠ 0#64 := hx x (by simp)
  have htot : totalCount s.freq ≠ 0 := by rw [← hlen]; simp
  have hd : (symbolsOf s.freq).length ≠ 0 := by
    intro h
    exact absurd ((symbolsOf_eq_nil_iff s.freq).1 (List.length_eq_zero_iff.1 h)) htot
  have hpne : p ≠ [] := by
    rintro rfl
    rw [payloadBits_nil, codeBits_cons] at hbits
    have h1 := List.append_eq_nil_iff.1 hbits.symm
    have h2 := List.append_eq_nil_iff.1 h1.1
    exact codeAt_ne_nil hsym (ha ▸ h2.1)
  have hrun := runBits_codeBits (f := s.freq) (x :: ys) hx htot hlen.le
  rw [← ha] at hrun
  have hfull : runBits (bitStep s.arena ((symbolsOf s.freq).length == 1)) (payloadBits (p ++ q))
      ⟨rootIdx s.arena, totalCount s.freq⟩ = (x :: ys, ⟨rootIdx s.arena, 0⟩, pad ++ payloadBits q) := by
    rw [payloadBits_append, hbits, List.append_assoc, runBits_append _ _ _ _ htot, hrun, hlen]
    simp
  have hemp : (p ++ q).isEmpty = false := by simp [hpne]
  rw [unpackExact, distinctCount_eq, if_neg hd, remaining_isEmpty hrem, hemp, hrem]
  simp only [Bool.false_eq_true, if_false]
  rw [exactBytes_finished _ p q _ s htot, hfull]
  · rw [hfull]
  · rw [hfull]; simp
  · rw [hfull]; simp; omega

/-- A payload that ends before the last symbol (R191). -/
theorem unpackExact_truncated {s : State} {ys p : List Byte} {part rest : Bits} {b : Byte}
    (ha : s.arena = buildArena s.freq) (hrem : s.remaining = p) (hlt : ys.length < totalCount s.freq)
    (hy : ∀ y ∈ ys, freqAt s.freq y ≠ 0#64) (hb : freqAt s.freq b ≠ 0#64)
    (hc : codeAt (codesOf s.arena) b = part ++ rest) (hrest : rest ≠ [])
    (hp : payloadBits p = codeBits (codesOf s.arena) ys ++ part) :
    unpackExact (totalCount s.freq) (distinctCount s.freq) s =
      .error (.truncated, (s.advance p.length).outWriteAll ys) := by
  have htot : totalCount s.freq ≠ 0 := by omega
  have hd : (symbolsOf s.freq).length ≠ 0 := by
    intro h
    exact absurd ((symbolsOf_eq_nil_iff s.freq).1 (List.length_eq_zero_iff.1 h)) htot
  have hrun := runBits_codeBits (f := s.freq) ys hy htot hlt.le
  have hsub : totalCount s.freq - ys.length ≠ 0 := by omega
  obtain ⟨cur, hpart⟩ := runBits_part (f := s.freq) hb (ha ▸ hc) hrest hsub
  rw [← ha] at hrun hpart
  have hfull : runBits (bitStep s.arena ((symbolsOf s.freq).length == 1)) (payloadBits p)
      ⟨rootIdx s.arena, totalCount s.freq⟩ = (ys, ⟨cur, totalCount s.freq - ys.length⟩, []) := by
    rw [hp, runBits_append _ _ _ _ htot, hrun]
    simp [hsub, hpart]
  rw [unpackExact, distinctCount_eq, if_neg hd, remaining_isEmpty hrem, hrem]
  cases p with
  | nil =>
    have : ys = [] := by
      rw [payloadBits_nil] at hfull
      simpa [runBits] using (congrArg (fun r => r.1) hfull).symm
    subst this
    simp
  | cons x p =>
    simp only [List.isEmpty_cons, Bool.false_eq_true, if_false]
    rw [exactBytes_truncated _ _ _ _ htot (by rw [hfull]; exact hsub), hfull]

/-! ## COMPRESS -/

/-- The histogram that COMPRESS builds (R216): the counts of the whole input. -/
def inputCounts (s : State) : FreqTable := s.input.foldl countByte freqZero

theorem inputCounts_spec {s : State} (h : s.input.length ≤ 2 ^ 64 - 1) : CountsOf (inputCounts s) s.input :=
  countsOf_foldl_countByte s.input (by omega)

/-- The state of COMPRESS when it has built the code table (R216). -/
def compressedTables (s : State) : State :=
  { (s.rewind.advance s.input.length).outWriteAll (headerOf s.lHdrBe (inputCounts s)) with
    freq := inputCounts s, arena := buildArena (inputCounts s), codes := codesOf (buildArena (inputCounts s))
    treeValid := true, codeValid := true }

theorem compress_tables {s : State} (h : s.input.length ≤ 2 ^ 64 - 1) :
    (buildTree (emitHeader (accumHistogram (clearHistogram s.rewind)))).bind genCodes =
      .ok (compressedTables s) := by
  have hrem : (clearHistogram s.rewind).remaining = s.input := by
    simp [clearHistogram, State.remaining, State.invalidateStages, State.rewind]
  have hacc : accumHistogram (clearHistogram s.rewind) =
      { s.rewind.advance s.input.length with freq := inputCounts s, treeValid := false, codeValid := false } := by
    rw [accumHistogram, hrem, accumBytes_eq]
    rfl
  have hov : totalOvf (inputCounts s) = false := by
    rw [totalOvf, (inputCounts_spec h).total]
    simp
    omega
  rw [hacc, buildTree]
  simp only [emitHeader, State.outWriteAll_freq, hov, Bool.false_eq_true, if_false, Except.bind, genCodes, if_true]
  rfl

theorem freqZero_symbols : symbolsOf freqZero = [] := by
  rw [List.eq_nil_iff_forall_not_mem]
  intro b hb
  exact (mem_symbolsOf _ _).1 hb (freqAt_freqZero b)

/-- The body of COMPRESS always succeeds on an input of at most 2^64 - 1 bytes (R216, R217). -/
theorem compressBody_ok {s : State} (h : s.input.length ≤ 2 ^ 64 - 1) :
    ∃ p k, compressBody s = .ok { (s.rewind.advance s.input.length).outWriteAll
        (headerOf s.lHdrBe (inputCounts s) ++ p) with
          freq := inputCounts s, arena := buildArena (inputCounts s)
          codes := codesOf (buildArena (inputCounts s)), treeValid := true, codeValid := true } ∧ k < 8 ∧
      payloadBits p = codeBits (codesOf (buildArena (inputCounts s))) s.input ++ List.replicate k false := by
  have hcount := inputCounts_spec h
  rw [compressBody, compress_tables h]
  simp only [Except.bind, packFromStart]
  by_cases hempty : (compressedTables s).arena.length = 0
  · rw [if_pos hempty]
    have hin : s.input = [] := by
      by_contra hne
      obtain ⟨x, xs, hx⟩ := List.exists_cons_of_ne_nil hne
      have hsym : freqAt (inputCounts s) x ≠ 0#64 := (hcount.mem x).2 (by rw [hx]; simp)
      have h1 : 1 ≤ (symbolsOf (inputCounts s)).length :=
        List.length_pos_iff.2 (List.ne_nil_of_mem ((mem_symbolsOf _ _).2 hsym))
      have h2 : (buildArena (inputCounts s)).length = 0 := hempty
      have := length_buildArena h1
      omega
    refine ⟨[], 0, ?_, by omega, by simp [hin, codeBits]⟩
    rw [List.append_nil]
    rfl
  · rw [if_neg hempty, packRemaining]
    have hrem : (compressedTables s).rewind.remaining = s.input := by
      simp [State.remaining, compressedTables, State.rewind, State.advance]
    have hcodes : (compressedTables s).rewind.codes = codesOf (buildArena (inputCounts s)) := by
      simp only [State.rewind_codes, compressedTables]
    obtain ⟨p, k, h1, h2, h3⟩ := packBytes_spec s.input [] (compressedTables s).rewind (by simp)
      (fun x hx => by rw [hcodes]; exact codeAt_ne_nil ((hcount.mem x).2 hx))
    have h3' : payloadBits p = codeBits (codesOf (buildArena (inputCounts s))) s.input ++ List.replicate k false := by
      rw [h3, hcodes, List.nil_append]
    refine ⟨p, k, ?_, h2, h3'⟩
    rw [hrem, ← Packer.holding_nil, h1]
    simp only [compressedTables, State.rewind, State.advance, State.outWriteAll, List.append_assoc, List.length_append,
      BitVec.ofNat_add, BitVec.add_assoc]

/-! ## DECOMPRESS -/

/-- The tables of DECOMPRESS from a header (R218): FREQ loaded, IN_PTR past the header, the tree built. -/
theorem decompress_tables {s : State} {f : FreqTable} {rest : List Byte}
    (hin : s.input = headerOf s.lHdrBe f ++ rest) :
    (loadHeader s.rewind).bind buildTree =
      if totalOvf f then
        .error (.weightOverflow, { s with freq := f, arena := [], treeValid := false, codeValid := false
                                          inPtr := 2048#64 })
      else .ok { s with freq := f, arena := buildArena f, treeValid := true, codeValid := false, inPtr := 2048#64 } := by
  have hlen : ¬ (s.rewind.input.length - s.rewind.inPtr.toNat < Config.headerBytes) := by
    simp [hin, Config.headerBytes]
  have hrem : s.rewind.remaining = headerOf s.lHdrBe f ++ rest := by
    simp [State.remaining, ← hin]
  rw [loadHeader, if_neg hlen, hrem]
  simp only [Except.bind, buildTree, State.rewind_lHdrBe, freqOfHeader_headerOf, State.invalidateStages_freq]
  have e : (0#64 : Count) + BitVec.ofNat 64 Config.headerBytes = 2048#64 := by decide
  split <;> simp [State.invalidateStages, State.rewind, e]

/-- The body of DECOMPRESS on a header that loads is the decoder on what follows it (R218). -/
theorem decompressBody_loaded {s : State} {f : FreqTable} {rest : List Byte} (hin : s.input = headerOf s.lHdrBe f ++ rest)
    (ht : totalCount f < 2 ^ 64) :
    decompressBody s = unpackRemaining
      { s with freq := f, arena := buildArena f, treeValid := true, codeValid := false, inPtr := 2048#64 } := by
  rw [decompressBody, decompress_tables hin, if_neg (by simpa [totalOvf] using ht)]
  rfl

end Sys2Proof.Machine
end

