-- ==== Sys2Proof/Laws/Commands.lean ====
section
/-! SUPPORT. Everything a command can do, said once: every command is the completion of a body (`exec_eq`), and per body
what it keeps (`bodyOf_keeps`), how it moves the streams (`Moves`) and the cause it ends with (`bodyOf_cause`). -/

namespace Sys2Proof.Machine

/-! ## Bodies and their completion -/

/-- The state a body ends in, before completion (R266: effects made are kept). -/
def Body.state : Body → State
  | .ok s => s
  | .error (_, s) => s

/-- The cause a body ends with (R263), NONE for success. -/
def Body.cause : Body → Cause
  | .ok _ => .noCause
  | .error (c, _) => c

@[simp] theorem Body.state_ok (s : State) : Body.state (.ok s) = s := rfl
@[simp] theorem Body.state_error (c : Cause) (s : State) : Body.state (.error (c, s)) = s := rfl
@[simp] theorem Body.cause_ok (s : State) : Body.cause (.ok s) = .noCause := rfl
@[simp] theorem Body.cause_error (c : Cause) (s : State) : Body.cause (.error (c, s)) = c := rfl

theorem finishBody_eq (b : Body) : finishBody b = b.state.finish b.cause.code b.cause := by
  rcases b with ⟨c, s⟩ | s <;> rfl

/-- Success completes with OK, NONE and INFO = 0 (R265, R266). -/
theorem finishBody_ok (s : State) : finishBody (.ok s) = s.completedOk := rfl

/-- A cause of INVALID_ARGUMENTS completes with INFO = IN_PTR (R265, R266). -/
theorem finishBody_invalid {c : Cause} (s : State) (h : c.code = .invalidArguments) :
    finishBody (.error (c, s)) = s.completedInvalid c := by
  rw [finishBody_eq, Body.state_error, Body.cause_error, h]
  rfl

/-- A cause of SEQUENCE_ERROR completes with INFO = the command word (R265, R266). -/
theorem finishBody_sequence {c : Cause} {s : State} {w : Word} (h : c.code = .sequenceError)
    (hw : s.pending = some w) :
    finishBody (.error (c, s)) = s.completed .sequenceError c (w.setWidth 64) := by
  rw [finishBody_eq, Body.state_error, Body.cause_error, h]
  simp [State.finish, State.completed, State.infoFor, State.commandWord, hw]

/-- A cause of ILLEGAL_COMMAND completes with INFO = the command word (R265, R266). -/
theorem finishBody_illegal {c : Cause} {s : State} {w : Word} (h : c.code = .illegalCommand)
    (hw : s.pending = some w) :
    finishBody (.error (c, s)) = s.completed .illegalCommand c (w.setWidth 64) := by
  rw [finishBody_eq, Body.state_error, Body.cause_error, h]
  simp [State.finish, State.completed, State.infoFor, State.commandWord, hw]

/-- The body of each command, with its checks (R264, R267). -/
def bodyOf : Instr → State → Body
  | .nop, s => .ok s
  | .softReset, s => .ok (softResetBody s)
  | .inRewind, s => if s.inUsable then .ok s.rewind else .error (.inUnusable, s)
  | .histClear, s => .ok (clearHistogram s)
  | .histAccum, s => if s.inUsable then .ok (accumHistogram s) else .error (.inUnusable, s)
  | .hdrEmit, s => if s.outUsable then .ok (emitHeader s) else .error (.outUnusable, s)
  | .hdrLoad, s => if s.inUsable then loadHeader s else .error (.inUnusable, s)
  | .treeBuild, s => buildTree s
  | .codeGen, s => genCodes s
  | .pack, s =>
    if !s.inUsable then .error (.inUnusable, s)
    else if !s.outUsable then .error (.outUnusable, s)
    else if !s.codeValid then .error (.noCodeTable, s)
    else packRemaining s
  | .unpack, s =>
    if !s.inUsable then .error (.inUnusable, s)
    else if !s.outUsable then .error (.outUnusable, s)
    else if !s.treeValid then .error (.noTree, s)
    else unpackRemaining s
  | .compress, s =>
    if !s.inUsable then .error (.inUnusable, s)
    else if !s.outUsable then .error (.outUnusable, s)
    else compressBody s
  | .decompress, s =>
    if !s.inUsable then .error (.inUnusable, s)
    else if !s.outUsable then .error (.outUnusable, s)
    else decompressBody s

/-- Every command is the completion of its body. -/
theorem exec_eq (i : Instr) (s : State) : exec i s = .next (finishBody (bodyOf i s)) := by
  cases i <;> rfl

/-! ## Stream moves -/

/-- `t` is `s` after reading at most `n` bytes and writing some. -/
def Moves (n : Nat) (s t : State) : Prop := ∃ k bs, k ≤ n ∧ t = (s.advance k).outWriteAll bs

theorem Moves.refl (n : Nat) (s : State) : Moves n s s := ⟨0, [], Nat.zero_le _, by simp⟩

theorem Moves.outWriteAll (n : Nat) (s : State) (bs : List Byte) : Moves n s (s.outWriteAll bs) :=
  ⟨0, bs, Nat.zero_le _, by simp⟩

theorem Moves.consume (s : State) : Moves 1 s s.consume := ⟨1, [], le_rfl, by simp [State.consume_eq]⟩

theorem Moves.trans {m n : Nat} {s t u : State} (h1 : Moves m s t) (h2 : Moves n t u) : Moves (m + n) s u := by
  obtain ⟨k, bs, hk, rfl⟩ := h1
  obtain ⟨l, cs, hl, rfl⟩ := h2
  refine ⟨k + l, bs ++ cs, by omega, ?_⟩
  rw [State.outWriteAll_append, ← State.advance_advance, ← State.outWriteAll_advance]

theorem Moves.mono {m n : Nat} {s t : State} (h : Moves m s t) (hmn : m ≤ n) : Moves n s t := by
  obtain ⟨k, bs, hk, rfl⟩ := h
  exact ⟨k, bs, by omega, rfl⟩

theorem pushBits_moves (bits : Bits) (p : Packer) (s : State) : Moves 0 s (pushBits p s bits).2 := by
  induction bits generalizing p s with
  | nil => exact Moves.refl _ _
  | cons c bits ih =>
    rw [pushBits]
    refine Moves.trans (m := 0) ?_ (ih _ _)
    rw [pushBit]
    split
    · exact Moves.outWriteAll _ _ [_]
    · exact Moves.refl _ _

/-- The encoding loop only moves the streams, and fails only with NO_CODE (R187). -/
theorem packBytes_ends (xs : List Byte) (p : Packer) (s : State) :
    Moves xs.length s (packBytes xs p s).state ∧ (packBytes xs p s).cause ∈ [Cause.noCause, .noCode] := by
  induction xs generalizing p s with
  | nil =>
    refine ⟨?_, by simp [packBytes]⟩
    rw [packBytes, Body.state_ok, flushPartial]
    split
    · exact Moves.outWriteAll _ _ [_]
    · exact Moves.refl _ _
  | cons x xs ih =>
    rw [packBytes]
    split
    · exact ⟨Moves.refl _ _, by simp⟩
    · have h := ih (pushBits p s.consume (codeAt s.codes x)).1 (pushBits p s.consume (codeAt s.codes x)).2
      refine ⟨?_, h.2⟩
      have := ((Moves.consume s).trans (pushBits_moves (codeAt s.codes x) p s.consume)).trans h.1
      exact this.mono (by rw [List.length_cons]; omega)

/-- What a payload byte leaves: the decoder goes on, or the command ends with OK, TRUNCATED or TRAILING. -/
def Walk.Good (n : Nat) (s : State) : Walk → Prop
  | .more _ t => Moves n s t
  | .ended b => Moves n s b.state ∧ b.cause ∈ [Cause.noCause, .trailing]

theorem Walk.Good.trans {m n : Nat} {s t : State} {w : Walk} (h1 : Moves m s t) (h2 : w.Good n t) :
    w.Good (m + n) s := by
  cases w with
  | more c u => exact h1.trans h2
  | ended b => exact ⟨h1.trans h2.1, h2.2⟩

theorem exactByte_good (one last : Bool) (bits : Bits) (c : Cursor) (s : State) :
    (exactByte one last bits c s).Good 0 s := by
  induction bits generalizing c s with
  | nil => exact Moves.refl _ _
  | cons bit bits ih =>
    have hm : Moves 0 s (exactBit one bit c s).2 := by
      rw [exactBit_eq]; exact Moves.outWriteAll _ _ _
    rw [exactByte]
    split
    · refine ⟨?_, ?_⟩ <;> cases last <;> simp [hm]
    · exact Walk.Good.trans hm (ih _ _)

theorem legacyByte_good (one last : Bool) (tail : Tail) (bits : Bits) (c : Cursor) (s : State) :
    (legacyByte one last tail bits c s).Good 0 s := by
  induction bits generalizing c s with
  | nil => exact Moves.refl _ _
  | cons bit bits ih =>
    have hm : Moves 0 s (s.emitSymbol c.cur) := Moves.outWriteAll _ _ [_]
    rw [legacyByte]
    split
    · split
      · split <;> exact ⟨hm, by simp⟩
      · split <;> exact Walk.Good.trans hm (ih _ _)
    · exact ih _ _

/-- How a decoder ends: it only moves the streams, and fails only with TRUNCATED or TRAILING (R191, R192). -/
def DecodesWithin (n : Nat) (s : State) (b : Body) : Prop :=
  Moves n s b.state ∧ b.cause ∈ [Cause.noCause, .truncated, .trailing]

theorem DecodesWithin.more {n : Nat} {s t : State} {b : Body} (h1 : Moves (1 + 0) s t) (h2 : DecodesWithin n t b) :
    DecodesWithin (n + 1) s b :=
  ⟨(h1.trans h2.1).mono (by omega), h2.2⟩

theorem DecodesWithin.ended {n : Nat} {s : State} {b : Body}
    (h : Moves (1 + 0) s b.state ∧ b.cause ∈ [Cause.noCause, .trailing]) : DecodesWithin (n + 1) s b :=
  ⟨h.1.mono (by omega), by have := h.2; simp only [List.mem_cons, List.not_mem_nil, or_false] at this ⊢; tauto⟩

theorem exactBytes_ends (one : Bool) (bs : List Byte) (c : Cursor) (s : State) :
    DecodesWithin bs.length s (exactBytes one bs c s) := by
  induction bs generalizing c s with
  | nil => exact ⟨Moves.refl _ _, by simp [exactBytes]⟩
  | cons b bs ih =>
    have h := Walk.Good.trans (Moves.consume s) (exactByte_good one bs.isEmpty (bitsOfByte b) c s.consume)
    rw [exactBytes]
    cases hw : exactByte one bs.isEmpty (bitsOfByte b) c s.consume with
    | more c' t => rw [hw] at h; exact DecodesWithin.more h (ih _ _)
    | ended body => rw [hw] at h; exact DecodesWithin.ended h

theorem legacyBytes_ends (one : Bool) (tail : Tail) (bs : List Byte) (c : Cursor) (s : State) :
    DecodesWithin bs.length s (legacyBytes one tail bs c s) := by
  induction bs generalizing c s with
  | nil => exact ⟨Moves.refl _ _, by simp [legacyBytes]⟩
  | cons b bs ih =>
    have h := Walk.Good.trans (Moves.consume s) (legacyByte_good one bs.isEmpty tail (bitsOfByte b) c s.consume)
    rw [legacyBytes]
    cases hw : legacyByte one bs.isEmpty tail (bitsOfByte b) c s.consume with
    | more c' t => rw [hw] at h; exact DecodesWithin.more h (ih _ _)
    | ended body => rw [hw] at h; exact DecodesWithin.ended h

theorem unpackRemaining_ends (s : State) : DecodesWithin s.remaining.length s (unpackRemaining s) := by
  have here : ∀ {b : Body}, b.state = s → b.cause ∈ [Cause.noCause, .truncated, .trailing] →
      DecodesWithin s.remaining.length s b := fun h1 h2 => ⟨h1 ▸ Moves.refl _ _, h2⟩
  have hexact : ∀ n d, DecodesWithin s.remaining.length s (unpackExact n d s) := by
    intro n d
    rw [unpackExact]
    split
    · split <;> exact here rfl (by simp)
    · split
      · exact here rfl (by simp)
      · exact exactBytes_ends _ _ _ _
  have hleg : ∀ t n d, DecodesWithin s.remaining.length s (unpackLegacy t n d s) := by
    intro t n d
    rw [unpackLegacy]
    split
    · exact here rfl (by simp)
    · split
      · exact here rfl (by simp)
      · exact legacyBytes_ends _ _ _ _ _
  rw [unpackRemaining]
  split
  · exact hexact _ _
  · exact hleg _ _ _
  · exact hleg _ _ _

theorem packRemaining_ends (s : State) :
    Moves s.remaining.length s (packRemaining s).state ∧ (packRemaining s).cause ∈ [Cause.noCause, .noCode] :=
  packBytes_ends _ _ _

/-! ## What no body changes -/

/-- What every body leaves as it was (R99, R237): the control fields, the index registers, the bound input, the signals,
the host, the recorded status and the pending command. OUT only grows (R91). -/
structure Keeps (s t : State) : Prop where
  irqEn : t.irqEn = s.irqEn
  decMode : t.decMode = s.decMode
  hdrBe : t.hdrBe = s.hdrBe
  done : t.done = s.done
  statusCode : t.statusCode = s.statusCode
  statusCause : t.statusCause = s.statusCause
  info : t.info = s.info
  freqIdx : t.freqIdx = s.freqIdx
  nodeIdx : t.nodeIdx = s.nodeIdx
  codeIdx : t.codeIdx = s.codeIdx
  codeWsel : t.codeWsel = s.codeWsel
  pending : t.pending = s.pending
  lDecMode : t.lDecMode = s.lDecMode
  lHdrBe : t.lHdrBe = s.lHdrBe
  input : t.input = s.input
  inUsable : t.inUsable = s.inUsable
  outUsable : t.outUsable = s.outUsable
  host : t.host = s.host
  turns : t.turns = s.turns
  rounds : t.rounds = s.rounds
  draws : t.draws = s.draws
  output : ∃ bs, t.output = s.output ++ bs

theorem Keeps.refl (s : State) : Keeps s s := by constructor <;> first | rfl | exact ⟨[], by simp⟩

theorem Keeps.trans {s t u : State} (h1 : Keeps s t) (h2 : Keeps t u) : Keeps s u where
  irqEn := h2.irqEn.trans h1.irqEn
  decMode := h2.decMode.trans h1.decMode
  hdrBe := h2.hdrBe.trans h1.hdrBe
  done := h2.done.trans h1.done
  statusCode := h2.statusCode.trans h1.statusCode
  statusCause := h2.statusCause.trans h1.statusCause
  info := h2.info.trans h1.info
  freqIdx := h2.freqIdx.trans h1.freqIdx
  nodeIdx := h2.nodeIdx.trans h1.nodeIdx
  codeIdx := h2.codeIdx.trans h1.codeIdx
  codeWsel := h2.codeWsel.trans h1.codeWsel
  pending := h2.pending.trans h1.pending
  lDecMode := h2.lDecMode.trans h1.lDecMode
  lHdrBe := h2.lHdrBe.trans h1.lHdrBe
  input := h2.input.trans h1.input
  inUsable := h2.inUsable.trans h1.inUsable
  outUsable := h2.outUsable.trans h1.outUsable
  host := h2.host.trans h1.host
  turns := h2.turns.trans h1.turns
  rounds := h2.rounds.trans h1.rounds
  draws := h2.draws.trans h1.draws
  output := by
    obtain ⟨a, ha⟩ := h1.output
    obtain ⟨b, hb⟩ := h2.output
    exact ⟨a ++ b, by rw [hb, ha, List.append_assoc]⟩

/-- A state that differs from `s` in the tables, the pointers, the valid bits and OVERRUN alone. -/
theorem keeps_tables (s : State) (f : FreqTable) (a : List Node) (c : CodeTable) (tv cv ov : Bool) (p n : Count) :
    Keeps s { s with freq := f, arena := a, codes := c, treeValid := tv, codeValid := cv, overrun := ov
                     inPtr := p, outCnt := n } := by
  constructor <;> first | rfl | exact ⟨[], by simp⟩

theorem keeps_outWriteAll (s : State) (bs : List Byte) : Keeps s (s.outWriteAll bs) := by
  constructor <;> first | rfl | exact ⟨bs, rfl⟩

theorem Moves.keeps {n : Nat} {s t : State} (h : Moves n s t) : Keeps s t ∧ t.overrun = s.overrun := by
  obtain ⟨k, bs, -, rfl⟩ := h
  exact ⟨(keeps_tables s _ _ _ _ _ _ _ _).trans (keeps_outWriteAll _ bs), rfl⟩

/-- A body keeps everything but the tables, the valid bits and the streams. -/
def BodyKeeps (s : State) (b : Body) : Prop := Keeps s b.state ∧ b.state.overrun = s.overrun

theorem BodyKeeps.bind {s : State} {b : Body} {k : State → Body} (h1 : BodyKeeps s b)
    (h2 : ∀ t, BodyKeeps t (k t)) : BodyKeeps s (b.bind k) := by
  rcases b with ⟨c, t⟩ | t
  · exact h1
  · exact ⟨h1.1.trans (h2 t).1, (h2 t).2.trans h1.2⟩

theorem accumHistogram_eq (s : State) : accumHistogram s =
    { s.advance s.remaining.length with freq := s.remaining.foldl countByte s.freq, treeValid := false
                                        codeValid := false } := by
  rw [accumHistogram, accumBytes_eq]; rfl

theorem loadHeader_keeps (s : State) : BodyKeeps s (loadHeader s) := by
  rw [loadHeader]; split <;> exact ⟨keeps_tables s _ _ _ _ _ _ _ _, rfl⟩

theorem buildTree_keeps (s : State) : BodyKeeps s (buildTree s) := by
  rw [buildTree]; split <;> exact ⟨keeps_tables s _ _ _ _ _ _ _ _, rfl⟩

theorem genCodes_keeps (s : State) : BodyKeeps s (genCodes s) := by
  rw [genCodes]; split <;> exact ⟨keeps_tables s _ _ _ _ _ _ _ _, rfl⟩

theorem unpackRemaining_keeps (s : State) : BodyKeeps s (unpackRemaining s) := (unpackRemaining_ends s).1.keeps

theorem packRemaining_keeps (s : State) : BodyKeeps s (packRemaining s) := (packRemaining_ends s).1.keeps

theorem packFromStart_keeps (s : State) : BodyKeeps s (packFromStart s) := by
  rw [packFromStart]
  split
  · exact ⟨Keeps.refl s, rfl⟩
  · have h := packRemaining_keeps s.rewind
    exact ⟨(keeps_tables s _ _ _ _ _ _ _ _).trans h.1, h.2⟩

theorem bodyOf_keeps (i : Instr) (s : State) :
    Keeps s (bodyOf i s).state ∧ (i ≠ .softReset → (bodyOf i s).state.overrun = s.overrun) := by
  have same : ∀ c : Cause, BodyKeeps s (.error (c, s)) := fun c => ⟨Keeps.refl s, rfl⟩
  suffices h : i ≠ .softReset → BodyKeeps s (bodyOf i s) by
    by_cases hi : i = .softReset
    · subst hi
      exact ⟨keeps_tables s _ _ _ _ _ _ _ _, fun h => absurd rfl h⟩
    · exact ⟨(h hi).1, fun _ => (h hi).2⟩
  intro hi
  cases i with
  | nop => exact ⟨Keeps.refl s, rfl⟩
  | softReset => exact absurd rfl hi
  | inRewind =>
    rw [bodyOf]; split
    · exact ⟨keeps_tables s _ _ _ _ _ _ _ _, rfl⟩
    · exact same _
  | histClear => exact ⟨keeps_tables s _ _ _ _ _ _ _ _, rfl⟩
  | histAccum =>
    rw [bodyOf, accumHistogram_eq]; split
    · exact ⟨keeps_tables s _ _ _ _ _ _ _ _, rfl⟩
    · exact same _
  | hdrEmit =>
    rw [bodyOf]; split
    · exact ⟨keeps_outWriteAll s _, rfl⟩
    · exact same _
  | hdrLoad =>
    rw [bodyOf]; split
    · exact loadHeader_keeps s
    · exact same _
  | treeBuild => exact buildTree_keeps s
  | codeGen => exact genCodes_keeps s
  | pack =>
    rw [bodyOf]; split; · exact same _
    split; · exact same _
    split; · exact same _
    exact packRemaining_keeps s
  | unpack =>
    rw [bodyOf]; split; · exact same _
    split; · exact same _
    split; · exact same _
    exact unpackRemaining_keeps s
  | compress =>
    rw [bodyOf]; split; · exact same _
    split; · exact same _
    rw [compressBody]
    refine (BodyKeeps.bind ?_ genCodes_keeps).bind packFromStart_keeps
    have h := buildTree_keeps (emitHeader (accumHistogram (clearHistogram s.rewind)))
    have h0 : BodyKeeps s (.ok (emitHeader (accumHistogram (clearHistogram s.rewind)))) := by
      rw [accumHistogram_eq]
      exact ⟨(keeps_tables s _ _ _ _ _ _ _ _).trans (keeps_outWriteAll _ _), rfl⟩
    exact ⟨h0.1.trans h.1, h.2.trans h0.2⟩
  | decompress =>
    rw [bodyOf]; split; · exact same _
    split; · exact same _
    rw [decompressBody]
    refine (BodyKeeps.bind ?_ buildTree_keeps).bind unpackRemaining_keeps
    have h := loadHeader_keeps s.rewind
    exact ⟨(keeps_tables s _ _ _ _ _ _ _ _).trans h.1, h.2⟩

/-! ## Causes -/

theorem loadHeader_cause (s : State) : (loadHeader s).cause ∈ [Cause.noCause, .hdrShort] := by
  rw [loadHeader]; split <;> simp

theorem buildTree_cause (s : State) : (buildTree s).cause ∈ [Cause.noCause, .weightOverflow] := by
  rw [buildTree]; split <;> simp

theorem bind_cause {b : Body} {k : State → Body} {l : List Cause} (h1 : b.cause ∈ .noCause :: l)
    (h2 : ∀ t, (k t).cause ∈ .noCause :: l) : Body.cause (b.bind k) ∈ .noCause :: l := by
  rcases b with ⟨c, t⟩ | t
  · exact h1
  · exact h2 t

theorem decompressBody_cause (s : State) :
    (decompressBody s).cause ∈ [Cause.noCause, .hdrShort, .weightOverflow, .truncated, .trailing] := by
  rw [decompressBody]
  refine bind_cause (bind_cause ?_ fun t => ?_) fun t => ?_
  · have := loadHeader_cause s.rewind; simp at this ⊢; tauto
  · have := buildTree_cause t; simp at this ⊢; tauto
  · have := (unpackRemaining_ends t).2; simp at this ⊢; tauto

end Sys2Proof.Machine
end

