-- ==== Sys2Proof/Laws/Decoding.lean ====
section
/-! SUPPORT. The decoder's parts on all words: the reserved-bits test and the opcode map read both ways
(spec/30_encoding.md R111, R113). -/

namespace Sys2Proof

/-- The reserved-bits test is on the field RSV = [31:8] (R111). -/
theorem reservedClear_iff (w : Word) : reservedClear w = true ↔ w.extractLsb' 8 24 = 0#24 := by
  rw [reservedClear, beq_iff_eq, ← BitVec.toNat_inj, ← BitVec.toNat_inj]
  simp only [BitVec.toNat_ushiftRight, BitVec.extractLsb'_toNat, BitVec.toNat_ofNat, Nat.shiftRight_eq_div_pow]
  omega

/-- A word with no reserved bit set is its opcode, widened with zeros (R111). -/
theorem word_of_opcode {w : Word} (h : w.extractLsb' 8 24 = 0#24) : (opcodeField w).setWidth 32 = w := by
  rw [← BitVec.toNat_inj] at h ⊢
  simp only [BitVec.extractLsb'_toNat, BitVec.toNat_ofNat, Nat.shiftRight_eq_div_pow, opcodeField,
    BitVec.toNat_setWidth] at h ⊢
  omega

/-- An opcode that maps to a command is that command's opcode (R113). -/
theorem opcode_of_commandOf {b : Byte} {i : Instr} (h : commandOf b = some i) : i.opcode = b := by
  apply BitVec.eq_of_toNat_eq
  unfold commandOf at h
  split at h <;> first | (cases h; rename_i e; rw [e]; rfl) | cases h

/-- The opcode map finds every command by its opcode (R113). -/
theorem commandOf_opcode (i : Instr) : commandOf i.opcode = some i := by cases i <;> rfl

theorem opcodeField_encode (i : Instr) : opcodeField (encode i) = i.opcode := by cases i <;> rfl

end Sys2Proof
end

