-- ==== Sys2Proof/Laws/HostSteps.lean ====
section
/-! SUPPORT. The host's temporaries (a canonical list, read after write), the CSR accesses, and everything a host step and
a step of the machine can do, said once. -/

namespace Sys2Proof.Machine

/-! ## Temporaries -/

theorem tempCons_wf {t : Nat} {v : Word} {l : List (Nat × Word)} (h : tempsWf l = true)
    (hl : ∀ p ∈ l, t < p.1) : tempsWf (tempCons t v l) = true := by
  rw [tempCons]
  split
  · exact h
  · rename_i hv
    simp only [tempsWf, Bool.and_eq_true, bne_iff_ne, List.all_eq_true, decide_eq_true_eq]
    exact ⟨⟨hv, hl⟩, h⟩

theorem tempsWf_cons {k : Nat} {w : Word} {l : List (Nat × Word)} :
    tempsWf ((k, w) :: l) = true ↔ (w ≠ 0#32 ∧ ∀ p ∈ l, k < p.1) ∧ tempsWf l = true := by
  simp [tempsWf, and_assoc]

theorem mem_tempSet {t : Nat} {v : Word} {l : List (Nat × Word)} {p : Nat × Word} (h : p ∈ tempSet l t v) :
    p ∈ l ∨ p = (t, v) := by
  induction l with
  | nil => simp only [tempSet, tempCons] at h; split at h <;> simp_all
  | cons q l ih =>
    obtain ⟨k, w⟩ := q
    simp only [tempSet, tempCons] at h
    split at h
    · split at h <;> simp_all; tauto
    · split at h
      · split at h <;> simp_all; tauto
      · simp only [List.mem_cons] at h ⊢
        rcases h with h | h
        · exact .inl (.inl h)
        · rcases ih h with h | h
          · exact .inl (.inr h)
          · exact .inr h

/-- A write keeps the canonical form of the temporaries. -/
theorem tempSet_wf {l : List (Nat × Word)} (t : Nat) (v : Word) (h : tempsWf l = true) :
    tempsWf (tempSet l t v) = true := by
  induction l with
  | nil => exact tempCons_wf h (by simp)
  | cons q l ih =>
    obtain ⟨k, w⟩ := q
    obtain ⟨⟨hw, hk⟩, hl⟩ := tempsWf_cons.1 h
    rw [tempSet]
    split
    · rename_i htk
      refine tempCons_wf h fun p hp => ?_
      rcases List.mem_cons.1 hp with rfl | hp
      · exact htk
      · exact htk.trans (hk p hp)
    · split
      · rename_i _ htk
        exact tempCons_wf hl fun p hp => htk ▸ hk p hp
      · rename_i h1 h2
        refine tempsWf_cons.2 ⟨⟨hw, fun p hp => ?_⟩, ih hl⟩
        rcases mem_tempSet hp with hp | rfl
        · exact hk p hp
        · simp only; omega

theorem tempGet_below {l : List (Nat × Word)} {t : Nat} (h : ∀ p ∈ l, t < p.1) : tempGet l t = 0#32 := by
  induction l with
  | nil => rfl
  | cons q l ih =>
    obtain ⟨k, w⟩ := q
    have hk := h (k, w) (by simp)
    rw [tempGet, if_neg (by simp only at hk; omega), ih fun p hp => h p (List.mem_cons_of_mem _ hp)]

theorem tempGet_tempCons {l : List (Nat × Word)} {t : Nat} (v : Word) (u : Nat) (h : ∀ p ∈ l, t < p.1) :
    tempGet (tempCons t v l) u = if u = t then v else tempGet l u := by
  rw [tempCons]
  split
  · rename_i hv
    split
    · rename_i hu
      rw [hu, tempGet_below h, hv]
    · rfl
  · rw [tempGet]
    simp only [eq_comm]

/-- Read after write, of the same temporary and of another. -/
theorem tempGet_tempSet {l : List (Nat × Word)} (t u : Nat) (v : Word) (h : tempsWf l = true) :
    tempGet (tempSet l t v) u = if u = t then v else tempGet l u := by
  induction l with
  | nil => exact tempGet_tempCons v u (by simp)
  | cons q l ih =>
    obtain ⟨k, w⟩ := q
    obtain ⟨⟨hw, hk⟩, hl⟩ := tempsWf_cons.1 h
    rw [tempSet]
    split
    · rename_i htk
      refine tempGet_tempCons v u fun p hp => ?_
      rcases List.mem_cons.1 hp with rfl | hp
      · exact htk
      · exact htk.trans (hk p hp)
    · split
      · rename_i h1 htk
        rw [tempGet_tempCons v u fun p hp => htk ▸ hk p hp]
        split
        · rfl
        · rename_i hu
          rw [tempGet, if_neg (by omega)]
      · rename_i h1 h2
        rw [tempGet, ih hl, tempGet]
        split
        · rename_i hku
          rw [if_neg (by omega)]
        · rfl

/-! ## CSR accesses -/

/-- A CSR access with a meaning is 4 bytes wide, aligned and in the window (R88). -/
theorem csrRefusal_eq_none {off width : Nat} :
    csrRefusal off width = none ↔ width = 4 ∧ off % 4 = 0 ∧ off < 256 := by
  simp only [csrRefusal, csrWidthOk, csrAligned, csrInWindow, Config.csrWindow]
  by_cases h1 : width = 4
  · by_cases h2 : off % 4 = 0
    · by_cases h3 : off < 256 <;> simp [h1, h2, h3]
    · simp [h1, h2]
  · simp [h1]

/-- A CSR read changes no state of the block; at most it counts a free draw (R57, R241). -/
theorem readOffset_state (s : State) (off : Nat) :
    (s.readOffset off).2 = s ∨ (s.pending ≠ none ∧ (s.readOffset off).2 = { s with draws := s.draws + 1 }) := by
  rw [State.readOffset]
  split
  · rw [State.csrRead]
    split
    · rename_i h
      refine .inr ⟨?_, rfl⟩
      simp only [State.busy, Bool.and_eq_true] at h
      intro hn
      simp [hn] at h
    · exact .inl rfl
  · exact .inl rfl

/-- While BUSY = 0 a CSR read gives the register's value and changes nothing (R241). -/
theorem csrRead_idle {s : State} (h : s.pending = none) (r : Csr) : s.csrRead r = (s.csrValue r, s) := by
  simp [State.csrRead, State.busy, h]

/-- An aligned 32-bit read in the window (R241). -/
theorem hostRead_eq {off t : Nat} {s : State} (h1 : off % 4 = 0) (h2 : off < 256) :
    execHost (.rd off 4 t) s = .next ((s.readOffset off).2.setTemp t (s.readOffset off).1).hostNext := by
  simp [execHost, hostRead, csrRefusal_eq_none.2 ⟨rfl, h1, h2⟩]

/-- An aligned 32-bit write in the window (R242). -/
theorem hostWrite_eq {off : Nat} {v : Word} {s : State} (h1 : off % 4 = 0) (h2 : off < 256) :
    execHost (.wr off 4 v) s = .next (s.writeOffset off v).hostNext := by
  simp [execHost, hostWrite, csrRefusal_eq_none.2 ⟨rfl, h1, h2⟩]

/-- A mapped register reads as `csrValue` says while BUSY = 0. -/
theorem readsAs_idle {s : State} {off t : Nat} {r : Csr} (h : s.pending = none) (h1 : off % 4 = 0) (h2 : off < 256)
    (hr : csrAt off = some r) : ReadsAs s off t (s.csrValue r) := by
  simp only [ReadsAs, hostRead_eq h1 h2, State.readOffset, hr, csrRead_idle h]
  rfl

/-- A register no part of which is unspecified while BUSY = 1 reads as `csrValue` says at any time (R65). -/
theorem readsAs_defined {s : State} {off t : Nat} {r : Csr} (h1 : off % 4 = 0) (h2 : off < 256)
    (hr : csrAt off = some r) (hm : r.freeMask = 0#32) : ReadsAs s off t (s.csrValue r) := by
  simp only [ReadsAs, hostRead_eq h1 h2, State.readOffset, hr, State.csrRead, hm]
  simp [State.setTemp, State.hostNext]

/-- An unmapped offset reads 0 at any time (R57). -/
theorem readsAs_unmapped {s : State} {off t : Nat} (h1 : off % 4 = 0) (h2 : off < 256)
    (hr : csrAt off = none) : ReadsAs s off t 0#32 := by
  simp only [ReadsAs, hostRead_eq h1 h2, State.readOffset, hr]
  rfl

/-- A register with unspecified bits reads a free draw under its mask while BUSY = 1 (R65, R241). -/
theorem drawsAs_busy {s : State} {off t : Nat} {r : Csr} (h : s.pending ≠ none) (h1 : off % 4 = 0) (h2 : off < 256)
    (hr : csrAt off = some r) (hm : r.freeMask ≠ 0#32) :
    DrawsAs s off t (mixFree r.freeMask (s.csrValue r) (Config.freeWord s.draws)) := by
  have hb : s.busy = true := Option.isSome_iff_ne_none.2 h
  simp only [DrawsAs, hostRead_eq h1 h2, State.readOffset, hr, State.csrRead, hb, Bool.true_and, bne_iff_ne, ne_eq, hm,
    not_false_eq_true, if_true]
  rfl

/-- A write to an offset leaves the block as `writeOffset` says, and the host's part alone moves (R242). -/
theorem csrWrite_host (s : State) (r : Csr) (v : Word) : (s.csrWrite r v).host = s.host := by
  cases r <;> first | rfl | (simp only [State.csrWrite, State.issue]; split <;> rfl)

theorem writesAs {s : State} {off : Nat} {v : Word} (h1 : off % 4 = 0) (h2 : off < 256) :
    WritesAs s off v (s.writeOffset off v) := by
  rw [WritesAs, hostWrite_eq h1 h2, State.hostNext]
  have : (s.writeOffset off v).host = s.host := by
    rw [State.writeOffset]; split
    · exact csrWrite_host _ _ _
    · rfl
  rw [this]

/-! ## What a host step can do -/

/-- What no host step but hardware reset changes (R83, R89): the tables, the valid bits and the recorded status. -/
structure HostKeeps (s t : State) : Prop where
  freq : t.freq = s.freq
  arena : t.arena = s.arena
  codes : t.codes = s.codes
  treeValid : t.treeValid = s.treeValid
  codeValid : t.codeValid = s.codeValid
  statusCode : t.statusCode = s.statusCode
  statusCause : t.statusCause = s.statusCause
  info : t.info = s.info

theorem HostKeeps.refl (s : State) : HostKeeps s s := by constructor <;> rfl

/-- A CSR write changes the control fields, the flags, the index registers and the pending command alone (R242). -/
structure WriteKeeps (s t : State) : Prop extends HostKeeps s t where
  inPtr : t.inPtr = s.inPtr
  outCnt : t.outCnt = s.outCnt
  input : t.input = s.input
  output : t.output = s.output
  host : t.host = s.host
  turns : t.turns = s.turns
  rounds : t.rounds = s.rounds
  draws : t.draws = s.draws

theorem csrWrite_keeps (s : State) (r : Csr) (v : Word) : WriteKeeps s (s.csrWrite r v) := by
  cases r <;> first
    | exact { toHostKeeps := by constructor <;> rfl, inPtr := rfl, outCnt := rfl, input := rfl, output := rfl
              host := rfl, turns := rfl, rounds := rfl, draws := rfl }
    | (simp only [State.csrWrite, State.issue]
       split <;>
       exact { toHostKeeps := by constructor <;> rfl, inPtr := rfl, outCnt := rfl, input := rfl, output := rfl
               host := rfl, turns := rfl, rounds := rfl, draws := rfl })

theorem writeOffset_keeps (s : State) (off : Nat) (v : Word) : WriteKeeps s (s.writeOffset off v) := by
  rw [State.writeOffset]
  split
  · exact csrWrite_keeps _ _ _
  · exact { toHostKeeps := HostKeeps.refl s, inPtr := rfl, outCnt := rfl, input := rfl, output := rfl
            host := rfl, turns := rfl, rounds := rfl, draws := rfl }

/-- After a write, PENDING goes with DONE = 0 if it did before (R239, R243). -/
theorem csrWrite_pending {s : State} (r : Csr) (v : Word) (h : s.pending ≠ none → s.done = false) :
    (s.csrWrite r v).pending ≠ none → (s.csrWrite r v).done = false := by
  cases r <;> first
    | exact h
    | (simp only [State.csrWrite]; intro hp; simp [h hp])
    | (simp only [State.csrWrite, State.issue]; split
       · rename_i hb
         exact fun _ => h (Option.isSome_iff_ne_none.1 hb)
       · exact fun _ => rfl)

/-- Everything a host step that goes on can have done. -/
theorem execHost_cases {h : HostStep} {s t : State} (e : execHost h s = .next t) :
    (∃ off v, h = .wr off 4 v ∧ off % 4 = 0 ∧ off < 256 ∧ t = (s.writeOffset off v).hostNext) ∨
    (∃ off n, h = .rd off 4 n ∧ off % 4 = 0 ∧ off < 256 ∧
      t = ((s.readOffset off).2.setTemp n (s.readOffset off).1).hostNext) ∨
    (∃ bytes, h = .bindIn bytes ∧ s.pending = none ∧ bytes.length ≤ 2 ^ 64 - 1 ∧ t = (s.bindInput bytes).hostNext) ∨
    (h = .bindOut ∧ s.pending = none ∧ t = s.bindOutput.hostNext) ∨
    (∃ x y, h = .usable x y ∧ s.pending = none ∧ t = { s with inUsable := x, outUsable := y }.hostNext) ∨
    (h = .readOut ∧ t = s.readOutput.hostNext) ∨
    (∃ k, t = s.hostJump k) ∨
    (h = .hardReset ∧ t = s.hardReset.hostNext) := by
  have idle : ¬ s.busy = true → s.pending = none := by
    intro hb; simpa [State.busy] using hb
  cases h with
  | wr off width v =>
    simp only [execHost, hostWrite] at e
    split at e
    · cases e
    · rename_i hc
      obtain ⟨rfl, h1, h2⟩ := csrRefusal_eq_none.1 hc
      cases e
      exact .inl ⟨off, v, rfl, h1, h2, rfl⟩
  | rd off width n =>
    simp only [execHost, hostRead] at e
    split at e
    · cases e
    · rename_i hc
      obtain ⟨rfl, h1, h2⟩ := csrRefusal_eq_none.1 hc
      cases e
      exact .inr (.inl ⟨off, n, rfl, h1, h2, rfl⟩)
  | bindIn bytes =>
    simp only [execHost, hostBindIn] at e
    split at e
    · cases e
    · rename_i hb
      split at e
      · rename_i hf
        cases e
        exact .inr (.inr (.inl ⟨bytes, rfl, idle hb, of_decide_eq_true hf, rfl⟩))
      · cases e
  | bindOut =>
    simp only [execHost, hostBindOut] at e
    split at e
    · cases e
    · rename_i hb
      cases e
      exact .inr (.inr (.inr (.inl ⟨rfl, idle hb, rfl⟩)))
  | usable x y =>
    simp only [execHost, hostUsable] at e
    split at e
    · cases e
    · rename_i hb
      cases e
      exact .inr (.inr (.inr (.inr (.inl ⟨x, y, rfl, idle hb, rfl⟩))))
  | readOut =>
    cases e
    exact .inr (.inr (.inr (.inr (.inr (.inl ⟨rfl, rfl⟩)))))
  | beq a m v k =>
    simp only [execHost, hostBranch] at e
    cases e
    refine .inr (.inr (.inr (.inr (.inr (.inr (.inl ?_))))))
    split
    · exact ⟨k, rfl⟩
    · exact ⟨s.host.pc + 1, rfl⟩
  | bne a m v k =>
    simp only [execHost, hostBranch] at e
    cases e
    refine .inr (.inr (.inr (.inr (.inr (.inr (.inl ?_))))))
    split
    · exact ⟨k, rfl⟩
    · exact ⟨s.host.pc + 1, rfl⟩
  | halt => cases e
  | hardReset =>
    cases e
    exact .inr (.inr (.inr (.inr (.inr (.inr (.inr ⟨rfl, rfl⟩))))))

/-! ## What a step can do -/

/-- The body of the core step on a word: the command it decodes to, or the illegal completion (R249, R114, R115). -/
def bodyOfWord (w : Word) (s : State) : Body :=
  match decode w with
  | .ok i => bodyOf i s
  | .error e => .error (causeOfIllegal e, s)

theorem coreStep_eq (w : Word) (s : State) : coreStep w s = .next (finishBody (bodyOfWord w s)) := by
  rw [coreStep, bodyOfWord]
  cases decode w with
  | ok i => exact exec_eq i s
  | error e => rfl

/-- A step is the core step of the pending word or a step of the host (R95); there is no third kind. -/
theorem step_cases {s : State} {o : Host.Outcome State Fault Refusal} (e : step s = o) :
    (s.pending = none ∧ s.hostMove = none ∧ o = .fault .runEnded) ∨
    (∃ w, s.pending = some w ∧ (s.hostMove = none ∨ s.turn = .core) ∧
      o = .next (finishBody (bodyOfWord w s.nextTurn))) ∨
    (∃ h, s.hostMove = some h ∧ (s.pending = none ∨ s.turn = .host) ∧ o = execHost h s.nextTurn) := by
  rw [step, stepAgents] at e
  cases hp : s.pending with
  | none =>
    cases hm : s.hostMove with
    | none => rw [hp, hm] at e; exact .inl ⟨rfl, rfl, e.symm⟩
    | some h => rw [hp, hm] at e; exact .inr (.inr ⟨h, rfl, .inl rfl, e.symm⟩)
  | some w =>
    cases hm : s.hostMove with
    | none => rw [hp, hm] at e; exact .inr (.inl ⟨w, rfl, .inl rfl, by rw [← e]; exact coreStep_eq _ _⟩)
    | some h =>
      rw [hp, hm] at e
      cases ht : s.turn with
      | core => rw [ht] at e; exact .inr (.inl ⟨w, rfl, .inr rfl, by rw [← e]; exact coreStep_eq _ _⟩)
      | host => rw [ht] at e; exact .inr (.inr ⟨h, rfl, .inr rfl, e.symm⟩)

theorem hostMove_ne_halt {s : State} {h : HostStep} (e : s.hostMove = some h) : h ≠ .halt := by
  rintro rfl
  rw [State.hostMove] at e
  split at e <;> simp_all

/-! ## Turns -/

/-- While turns are listed, the first of them is taken and the rest stay. -/
theorem turn_listed {s : State} {a : Agent} {rest : List Agent} (h : s.turns = a :: rest) :
    s.turn = a ∧ s.nextTurn = { s with turns := rest } := by
  rw [State.turn, State.nextTurn, State.coming, h]
  exact ⟨rfl, rfl⟩

/-- When none is listed, a round is drawn (R302). -/
theorem turn_drawn {s : State} (h : s.turns = []) :
    s.turn = (drawnRound s.rounds).headD .core ∧
      s.nextTurn = { s with turns := (drawnRound s.rounds).tail, rounds := s.rounds + 1 } := by
  rw [State.turn, State.nextTurn, State.coming, h]
  exact ⟨rfl, rfl⟩

/-! ## Encodings of host programs -/

theorem encodeProgram_append (p q : List HostStep) : encodeProgram (p ++ q) = encodeProgram p ++ encodeProgram q :=
  List.filterMap_append ..

/-- A step's records come first (R120). -/
theorem performedRecords_succ {s t : State} (n : Nat) (h : step s = .next t) :
    performedRecords (n + 1) s = (s.hostMoving.bind HostStep.record).toList ++ performedRecords n t := by
  rw [performedRecords, show stepAgents s = .next t from h]

/-- When the core moves, the host does not. -/
theorem hostMoving_core {s : State} (hp : s.pending ≠ none) (ht : s.turn = .core) : s.hostMoving = none := by
  obtain ⟨w, hw⟩ := Option.ne_none_iff_exists'.1 hp
  rw [State.hostMoving, hw, ht]

/-- When the core does not move, the host's next step is the one that runs. -/
theorem hostMoving_host {s : State} (h : s.pending = none ∨ s.turn = .host) : s.hostMoving = s.hostMove := by
  rw [State.hostMoving]
  split
  · rename_i hp ht
    rcases h with h | h
    · rw [h] at hp
      cases hp
    · rw [h] at ht
      cases ht
  · rfl

end Sys2Proof.Machine
end

