-- ==== Sys2Proof/Laws/Invariants.lean ====
section
/-! SUPPORT. That each body and each host step keeps the invariants of spec/10_state.md R67, one lemma per shape of update. -/

namespace Sys2Proof.Machine

/-- What the invariants say of ARENA (R67 items 1 to 3). -/
structure ArenaOk (arena : List Node) : Prop where
  nodeCount : arena.length = 0 ∨ ∃ n, 1 ≤ n ∧ n ≤ 256 ∧ arena.length = 2 * n - 1
  seqIsIndex : ∀ i, i < arena.length → (nodeAt arena i).seq.toNat = i
  childrenBelow : ∀ i, i < arena.length → (nodeAt arena i).isInternal = true →
    (nodeAt arena i).left.toNat < i ∧ (nodeAt arena i).right.toNat < i

theorem State.busy_iff (s : State) : s.busy = true ↔ s.pending ≠ none := Option.isSome_iff_ne_none

theorem State.Inv.arenaOk {s : State} (h : s.Inv) : ArenaOk s.arena := ⟨h.nodeCount, h.seqIsIndex, h.childrenBelow⟩

/-- The invariants from their parts. -/
theorem State.Inv.of {s : State} (ha : ArenaOk s.arena) (hp : s.inPtr.toNat ≤ s.input.length)
    (hi : s.input.length ≤ 2 ^ 64 - 1)
    (ht : s.treeValid = true → s.arena = buildArena s.freq ∧ totalOvf s.freq = false)
    (hc : s.codeValid = true → s.treeValid = true ∧ s.codes = codesOf s.arena) : s.Inv :=
  ⟨ha.nodeCount, ha.seqIsIndex, ha.childrenBelow, s.busy_iff, hp, hi, ht, hc⟩

/-- TREE_BUILD's arena is well formed (R155, R156). -/
theorem arenaOk_buildArena (f : FreqTable) : ArenaOk (buildArena f) where
  nodeCount := by
    by_cases h : (symbolsOf f).length = 0
    · exact .inl (by rw [buildArena_empty h]; rfl)
    · exact .inr ⟨_, by omega, length_symbolsOf_le f, length_buildArena (by omega)⟩
  seqIsIndex := fun i hi => buildArena_seq_toNat hi
  childrenBelow := fun i hi hk => ⟨(buildArena_children hi hk).1, (buildArena_children hi hk).2.1⟩

theorem arenaOk_nil : ArenaOk [] := ⟨.inl rfl, by simp, by simp⟩

/-- The invariants depend on the tables, the valid bits, IN_PTR and IN alone. -/
theorem State.Inv.congr {s t : State} (h : s.Inv) (h1 : t.arena = s.arena) (h2 : t.inPtr = s.inPtr)
    (h3 : t.input = s.input) (h4 : t.freq = s.freq) (h5 : t.codes = s.codes) (h6 : t.treeValid = s.treeValid)
    (h7 : t.codeValid = s.codeValid) : t.Inv :=
  .of (h1 ▸ h.arenaOk) (by rw [h2, h3]; exact h.ptrInRange) (by rw [h3]; exact h.inputFits)
    (by rw [h1, h4, h6]; exact h.treeIsBuilt) (by rw [h1, h5, h6, h7]; exact h.codesAreGenerated)

/-- A completion keeps the invariants (R266). -/
theorem State.Inv.finish {s : State} (h : s.Inv) (code : StatusCode) (cause : Cause) : (s.finish code cause).Inv :=
  h.congr rfl rfl rfl rfl rfl rfl rfl

theorem State.Inv.finishBody {b : Body} (h : b.state.Inv) : (finishBody b).Inv := by
  rw [finishBody_eq]; exact h.finish _ _

/-- Reading at most what remains keeps `IN_PTR ≤ IN_LEN` (R67 item 5). -/
theorem Moves.inv {n : Nat} {s t : State} (hm : Moves n s t) (h : s.Inv) (hn : n ≤ s.remaining.length) : t.Inv := by
  obtain ⟨k, bs, hk, rfl⟩ := hm
  refine .of h.arenaOk ?_ h.inputFits h.treeIsBuilt h.codesAreGenerated
  have h1 := h.ptrInRange
  have h2 := h.inputFits
  rw [State.remaining_length] at hn
  simp only [State.outWriteAll_inPtr, State.outWriteAll_input, State.advance, BitVec.toNat_add, BitVec.toNat_ofNat]
  omega

theorem State.Inv.rewind {s : State} (h : s.Inv) : s.rewind.Inv :=
  .of h.arenaOk (by simp) h.inputFits h.treeIsBuilt h.codesAreGenerated

theorem State.Inv.clearHistogram {s : State} (h : s.Inv) : (clearHistogram s).Inv :=
  .of h.arenaOk h.ptrInRange h.inputFits (by simp [Machine.clearHistogram]) (by simp [Machine.clearHistogram])

theorem State.Inv.accumHistogram {s : State} (h : s.Inv) : (accumHistogram s).Inv := by
  rw [accumHistogram_eq]
  refine .of h.arenaOk ?_ h.inputFits (by simp) (by simp)
  have := (Moves.inv ⟨_, [], le_rfl, rfl⟩ h le_rfl : State.Inv ((s.advance s.remaining.length).outWriteAll [])).ptrInRange
  simpa using this

theorem State.Inv.emitHeader {s : State} (h : s.Inv) : (emitHeader s).Inv :=
  h.congr rfl rfl rfl rfl rfl rfl rfl

theorem State.Inv.loadHeader {s : State} (h : s.Inv) : (loadHeader s).state.Inv := by
  have h1 := h.ptrInRange
  have h2 := h.inputFits
  rw [Machine.loadHeader]
  split
  · refine .of h.arenaOk ?_ h.inputFits h.treeIsBuilt h.codesAreGenerated
    simp only [Body.state_error, State.inLen, BitVec.toNat_ofNat]
    omega
  · rename_i hl
    refine .of h.arenaOk ?_ h.inputFits (by simp [State.invalidateStages]) (by simp [State.invalidateStages])
    simp only [Config.headerBytes] at hl
    simp only [Body.state_ok, State.invalidateStages, Config.headerBytes, BitVec.toNat_add, BitVec.toNat_ofNat]
    omega

theorem State.Inv.buildTree {s : State} (h : s.Inv) : (buildTree s).state.Inv := by
  rw [Machine.buildTree]
  split
  · exact .of arenaOk_nil h.ptrInRange h.inputFits (by simp) (by simp)
  · rename_i ho
    exact .of (arenaOk_buildArena _) h.ptrInRange h.inputFits (fun _ => ⟨rfl, by simpa using ho⟩) (by simp)

theorem State.Inv.genCodes {s : State} (h : s.Inv) : (genCodes s).state.Inv := by
  rw [Machine.genCodes]
  split
  · rename_i hv
    exact .of h.arenaOk h.ptrInRange h.inputFits h.treeIsBuilt fun _ => ⟨hv, rfl⟩
  · exact h

theorem State.Inv.bind {b : Body} {k : State → Body} (h1 : b.state.Inv) (h2 : ∀ t : State, t.Inv → (k t).state.Inv) :
    (Body.state (Except.bind b k)).Inv := by
  rcases b with ⟨c, t⟩ | t
  · exact h1
  · exact h2 t h1

theorem State.Inv.packFromStart {s : State} (h : s.Inv) : (packFromStart s).state.Inv := by
  rw [Machine.packFromStart]
  split
  · exact h
  · exact (packRemaining_ends _).1.inv h.rewind le_rfl

theorem State.Inv.unpackRemaining {s : State} (h : s.Inv) : (unpackRemaining s).state.Inv :=
  (unpackRemaining_ends _).1.inv h le_rfl

theorem State.Inv.softResetBody {s : State} (h : s.Inv) : (softResetBody s).Inv :=
  .of arenaOk_nil (by simp [Machine.softResetBody]) h.inputFits (by simp [Machine.softResetBody])
    (by simp [Machine.softResetBody])

theorem State.Inv.bindInput {s : State} {bytes : List Byte} (h : s.Inv) (hb : bytes.length ≤ 2 ^ 64 - 1) :
    (s.bindInput bytes).Inv :=
  .of h.arenaOk (by simp [State.bindInput]) hb h.treeIsBuilt h.codesAreGenerated

theorem State.Inv.hardReset {s : State} (h : s.input.length ≤ 2 ^ 64 - 1) : s.hardReset.Inv :=
  .of arenaOk_nil (by simp [State.hardReset, State.reset]) h (by simp [State.hardReset, State.reset])
    (by simp [State.hardReset, State.reset])

theorem WriteKeeps.inv {s t : State} (h : WriteKeeps s t) (hs : s.Inv) : t.Inv :=
  hs.congr h.arena h.inPtr h.input h.freq h.codes h.treeValid h.codeValid

end Sys2Proof.Machine
end

