-- ==== Sys2Proof/Laws/Legacy.lean ====
section
/-! SUPPORT. The legacy decoders on bits (spec/43_bitpack.md R192) and what they make of a payload (R196); how any decoder
ends on any payload (`unpackRemaining_decoded`). -/

namespace Sys2Proof.Machine

/-- What one bit does under UnpackLegacy (R192): the bytes emitted and the cursor after it. -/
def legacyStep (arena : List Node) (one bit : Bool) (c : Cursor) : List Byte × Cursor :=
  if (nodeAt arena c.cur).isLeaf then
    ([(nodeAt arena c.cur).sym],
      if c.rem - 1 = 0 then ⟨rootIdx arena, 0⟩
      else if one then ⟨rootIdx arena, c.rem - 1⟩
      else ⟨childOf arena (rootIdx arena) bit, c.rem - 1⟩)
  else ([], ⟨childOf arena c.cur bit, c.rem⟩)

theorem legacyByte_eq (one last : Bool) (tail : Tail) (bits : Bits) (c : Cursor) (s : State) (h : c.rem ≠ 0) :
    legacyByte one last tail bits c s =
      if (runBits (legacyStep s.arena one) bits c).2.1.rem = 0 then
        .ended (if tail.accepts last (runBits (legacyStep s.arena one) bits c).2.2.isEmpty
                then .ok (s.outWriteAll (runBits (legacyStep s.arena one) bits c).1)
                else .error (.trailing, s.outWriteAll (runBits (legacyStep s.arena one) bits c).1))
      else .more (runBits (legacyStep s.arena one) bits c).2.1
        (s.outWriteAll (runBits (legacyStep s.arena one) bits c).1) := by
  induction bits generalizing c s with
  | nil => simp [legacyByte, runBits, h]
  | cons bit bits ih =>
    have e : ∀ bs, (s.emitSymbol c.cur).outWriteAll bs = s.outWriteAll ([(nodeAt s.arena c.cur).sym] ++ bs) :=
      fun bs => by rw [State.outWriteAll_append]; rfl
    rw [legacyByte, runBits, legacyStep]
    by_cases hl : (nodeAt s.arena c.cur).isLeaf
    · simp only [hl, if_true]
      by_cases h1 : c.rem - 1 = 0
      · simp only [h1, if_true]
        rfl
      · simp only [h1, if_false]
        cases one
        · simp only [Bool.false_eq_true, if_false]
          rw [ih _ _ h1]
          simp only [e, h1, if_false]
          rfl
        · simp only [if_true]
          rw [ih _ _ h1]
          simp only [e, h1, if_false]
          rfl
    · simp only [hl, Bool.false_eq_true, if_false, h, List.nil_append]
      exact ih ⟨_, c.rem⟩ s h

/-- The payload ends before the last symbol is recognised (R192). -/
theorem legacyBytes_truncated (one : Bool) (tail : Tail) (bs : List Byte) (c : Cursor) (s : State) (h : c.rem ≠ 0)
    (hr : (runBits (legacyStep s.arena one) (payloadBits bs) c).2.1.rem ≠ 0) :
    legacyBytes one tail bs c s =
      .error (.truncated, (s.advance bs.length).outWriteAll
        (runBits (legacyStep s.arena one) (payloadBits bs) c).1) := by
  induction bs generalizing c s with
  | nil => simp [legacyBytes, runBits]
  | cons b bs ih =>
    rw [payloadBits_cons, runBits_append _ _ _ _ h] at hr ⊢
    rw [legacyBytes, legacyByte_eq _ _ _ _ _ _ h]
    simp only [State.consume_arena]
    by_cases h0 : (runBits (legacyStep s.arena one) (bitsOfByte b) c).2.1.rem = 0
    · simp [h0] at hr
    · simp only [h0, if_false] at hr ⊢
      rw [ih _ _ h0 (by simpa using hr)]
      rw [State.consume_eq, ← State.outWriteAll_advance]
      simp only [State.outWriteAll_arena]
      rw [← State.outWriteAll_append, State.advance_advance, List.length_cons, Nat.add_comm]
      rfl

/-- The last symbol is recognised within the byte before `q` (R192): the end condition decides. -/
theorem legacyBytes_finished (one : Bool) (tail : Tail) (p q : List Byte) (c : Cursor) (s : State) (h : c.rem ≠ 0)
    (hr : (runBits (legacyStep s.arena one) (payloadBits (p ++ q)) c).2.1.rem = 0)
    (h1 : 8 * q.length ≤ (runBits (legacyStep s.arena one) (payloadBits (p ++ q)) c).2.2.length)
    (h2 : (runBits (legacyStep s.arena one) (payloadBits (p ++ q)) c).2.2.length < 8 * q.length + 8) :
    legacyBytes one tail (p ++ q) c s =
      if tail.accepts q.isEmpty
          ((runBits (legacyStep s.arena one) (payloadBits (p ++ q)) c).2.2.length == 8 * q.length)
      then .ok ((s.advance p.length).outWriteAll (runBits (legacyStep s.arena one) (payloadBits (p ++ q)) c).1)
      else .error (.trailing,
        (s.advance p.length).outWriteAll (runBits (legacyStep s.arena one) (payloadBits (p ++ q)) c).1) := by
  induction p generalizing c s with
  | nil =>
    exfalso
    have h3 := runBits_left_length (legacyStep s.arena one) (payloadBits q) c
    rw [List.nil_append] at h1 hr
    rw [length_payloadBits] at h3
    cases q with
    | nil => simp [runBits] at hr; exact h hr
    | cons x q => rw [List.length_cons] at h1 h3; omega
  | cons b p ih =>
    rw [List.cons_append] at hr h1 h2 ⊢
    rw [payloadBits_cons, runBits_append _ _ _ _ h] at hr h1 h2 ⊢
    rw [legacyBytes, legacyByte_eq _ _ _ _ _ _ h]
    simp only [State.consume_arena]
    by_cases h0 : (runBits (legacyStep s.arena one) (bitsOfByte b) c).2.1.rem = 0
    · simp only [h0, if_true] at hr h1 h2 ⊢
      have h3 := runBits_left_length (legacyStep s.arena one) (bitsOfByte b) c
      rw [length_bitsOfByte] at h3
      rw [List.length_append, length_payloadBits, List.length_append] at h1 h2
      have hp : p = [] := List.length_eq_zero_iff.1 (by omega)
      subst hp
      have e : (runBits (legacyStep s.arena one) (bitsOfByte b) c).2.2.isEmpty =
          ((runBits (legacyStep s.arena one) (bitsOfByte b) c).2.2.length + 8 * q.length == 8 * q.length) := by
        rw [Bool.eq_iff_iff, List.isEmpty_iff, ← List.length_eq_zero_iff, beq_iff_eq]
        omega
      simp only [List.nil_append, State.consume_eq, e, List.length_append, length_payloadBits,
        State.outWriteAll_advance, List.length_singleton]
    · simp only [h0, if_false] at hr h1 h2 ⊢
      rw [ih _ _ h0 (by simpa using hr) (by simpa using h1) (by simpa using h2)]
      rw [State.consume_eq, ← State.outWriteAll_advance]
      simp only [State.outWriteAll_arena]
      rw [← State.outWriteAll_append, State.advance_advance, List.length_cons, Nat.add_comm]
      rfl

/-! ## Several symbols -/

section Built

variable {f : FreqTable}

/-- A path out of an internal node moves the cursor and emits nothing (R192). -/
theorem legacy_path {arena : List Node} {i j : Nat} {p : Bits} {rem : Nat} (hp : PathTo arena i p j) (hr : rem ≠ 0) :
    runBits (legacyStep arena false) p ⟨i, rem⟩ = ([], ⟨j, rem⟩, []) := by
  induction hp with
  | here i => rfl
  | @step i j bit p hi hp ih =>
    have e : legacyStep arena false bit ⟨i, rem⟩ = ([], ⟨childOf arena i bit, rem⟩) := by
      simp [legacyStep, isLeaf_of_internal hi]
    have ih' : runBits (legacyStep arena false) p ⟨childOf arena i bit, rem⟩ = ([], ⟨j, rem⟩, []) := ih
    rw [runBits, e]
    simp [hr, ih']

/-- A code read with the cursor at a leaf first emits that leaf (R192): the bit is used again from the root. -/
theorem legacy_path_at_leaf {arena : List Node} {i j : Nat} {p : Bits} {rem : Nat}
    (hp : PathTo arena (rootIdx arena) p j) (hne : p ≠ []) (hi : (nodeAt arena i).isInternal = false) (hr : 2 ≤ rem) :
    runBits (legacyStep arena false) p ⟨i, rem⟩ = ([(nodeAt arena i).sym], ⟨j, rem - 1⟩, []) := by
  obtain ⟨b, q, rfl⟩ := List.exists_cons_of_ne_nil hne
  obtain ⟨-, hq⟩ := PathTo.cons_iff.1 hp
  have h1 : rem - 1 ≠ 0 := by omega
  have e : legacyStep arena false b ⟨i, rem⟩ = ([(nodeAt arena i).sym], ⟨childOf arena (rootIdx arena) b, rem - 1⟩) := by
    simp [legacyStep, isLeaf_of_not_internal hi, h1]
  rw [runBits, e]
  simp [h1, legacy_path hq h1]

/-- The legacy decoder on the code bits of symbols, from a leaf: the last symbol is still in the cursor (R192). -/
theorem legacy_codeBits (hn : 2 ≤ (symbolsOf f).length) (xs : List Byte) (hx : ∀ x ∈ xs, freqAt f x ≠ 0#64)
    {j : Nat} {y : Byte} (hj : (symbolsOf f)[j]? = some y) {rem : Nat} (hr : xs.length < rem) :
    ∃ k, (nodeAt (buildArena f) k).isInternal = false ∧
      (nodeAt (buildArena f) k).sym = (y :: xs).getLast (by simp) ∧
      runBits (legacyStep (buildArena f) false) (codeBits (codesOf (buildArena f)) xs) ⟨j, rem⟩ =
        ((y :: xs).dropLast, ⟨k, rem - xs.length⟩, []) := by
  induction xs generalizing j y rem with
  | nil =>
    obtain ⟨_, he⟩ := symbol_leaf hj
    exact ⟨j, by rw [he]; rfl, by rw [he]; rfl, by simp [codeBits, runBits]⟩
  | cons x xs ih =>
    have hx0 := hx x (by simp)
    obtain ⟨jx, hjx⟩ := List.getElem?_of_mem ((mem_symbolsOf f x).2 hx0)
    obtain ⟨_, he⟩ := symbol_leaf hj
    rw [List.length_cons] at hr
    obtain ⟨k, h1, h2, h3⟩ := ih (fun z hz => hx z (List.mem_cons_of_mem _ hz)) hjx (rem := rem - 1) (by omega)
    refine ⟨k, h1, by rw [h2]; simp, ?_⟩
    have hp := legacy_path_at_leaf (codeAt_eq_path hn hjx) (codeAt_ne_nil hx0)
      (i := j) (by rw [he]; rfl) (show 2 ≤ rem by omega)
    rw [codeBits_cons, runBits_append _ _ _ _ (by simp only; omega), hp]
    have h0 : ¬ rem - 1 = 0 := by omega
    simp only [h0, if_false, h3, he, Node.sym, List.singleton_append]
    rw [show (y :: x :: xs).dropLast = y :: (x :: xs).dropLast from rfl]
    rw [List.length_cons, show rem - 1 - xs.length = rem - (xs.length + 1) by omega]

/-- The legacy decoder on all the symbols' code bits, from the root: all but the last are emitted (R192). -/
theorem legacy_payload (hn : 2 ≤ (symbolsOf f).length) {xs : List Byte} (hne : xs ≠ [])
    (hx : ∀ x ∈ xs, freqAt f x ≠ 0#64) :
    ∃ k, (nodeAt (buildArena f) k).isInternal = false ∧ (nodeAt (buildArena f) k).sym = xs.getLast hne ∧
      runBits (legacyStep (buildArena f) false) (codeBits (codesOf (buildArena f)) xs)
        ⟨rootIdx (buildArena f), xs.length⟩ = (xs.dropLast, ⟨k, 1⟩, []) := by
  obtain ⟨x, ys, rfl⟩ := List.exists_cons_of_ne_nil hne
  have hx0 := hx x (by simp)
  obtain ⟨j, hj⟩ := List.getElem?_of_mem ((mem_symbolsOf f x).2 hx0)
  obtain ⟨k, h1, h2, h3⟩ := legacy_codeBits hn ys (fun z hz => hx z (List.mem_cons_of_mem _ hz)) hj
    (rem := ys.length + 1) (by omega)
  refine ⟨k, h1, h2, ?_⟩
  rw [codeBits_cons, runBits_append _ _ _ _ (by simp), legacy_path (codeAt_eq_path hn hj) (by simp)]
  simp only [List.length_cons, Nat.add_eq_zero_iff, Nat.one_ne_zero, and_false, if_false, h3, List.nil_append]
  rw [show ys.length + 1 - ys.length = 1 by omega]

/-- The legacy decoder on a whole payload with several symbols (R192): the last symbol is recognised at the first pad bit,
or not at all when there is none. -/
theorem legacy_run (hn : 2 ≤ (symbolsOf f).length) {xs : List Byte} (hne : xs ≠ [])
    (hx : ∀ x ∈ xs, freqAt f x ≠ 0#64) (pad : Bits) :
    (pad = [] → ∃ k, runBits (legacyStep (buildArena f) false) (codeBits (codesOf (buildArena f)) xs ++ pad)
        ⟨rootIdx (buildArena f), xs.length⟩ = (xs.dropLast, ⟨k, 1⟩, [])) ∧
    (pad ≠ [] → runBits (legacyStep (buildArena f) false) (codeBits (codesOf (buildArena f)) xs ++ pad)
        ⟨rootIdx (buildArena f), xs.length⟩ = (xs, ⟨rootIdx (buildArena f), 0⟩, pad.tail)) := by
  obtain ⟨k, h1, h2, h3⟩ := legacy_payload hn hne hx
  constructor
  · rintro rfl
    exact ⟨k, by rw [List.append_nil, h3]⟩
  · intro hpad
    obtain ⟨b, pad, rfl⟩ := List.exists_cons_of_ne_nil hpad
    have hpos : xs.length ≠ 0 := fun h => hne (List.length_eq_zero_iff.1 h)
    rw [runBits_append _ _ _ _ hpos, h3]
    have e : legacyStep (buildArena f) false b ⟨k, 1⟩ = ([xs.getLast hne], ⟨rootIdx (buildArena f), 0⟩) := by
      simp [legacyStep, isLeaf_of_not_internal h1, h2]
    simp only [Nat.one_ne_zero, if_false, runBits, e, if_true, List.tail_cons]
    rw [List.dropLast_append_getLast]

/-- The legacy decoder on symbols and a part of a further code (R192): the last symbol is emitted only by a bit that
follows it. -/
theorem legacy_cut (hn : 2 ≤ (symbolsOf f).length) {ys : List Byte} (hy : ∀ y ∈ ys, freqAt f y ≠ 0#64) {b : Byte}
    {part rest : Bits} (hb : freqAt f b ≠ 0#64) (hc : codeAt (codesOf (buildArena f)) b = part ++ rest)
    {rem : Nat} (hr : ys.length < rem) :
    ∃ c : Cursor, c.rem ≠ 0 ∧
      runBits (legacyStep (buildArena f) false) (codeBits (codesOf (buildArena f)) ys ++ part)
        ⟨rootIdx (buildArena f), rem⟩ = (if part = [] then ys.dropLast else ys, c, []) := by
  obtain ⟨jb, hjb⟩ := List.getElem?_of_mem ((mem_symbolsOf f b).2 hb)
  obtain ⟨kb, hpart, -⟩ := PathTo.append_iff.1 (hc ▸ codeAt_eq_path hn hjb)
  cases ys with
  | nil =>
    refine ⟨⟨kb, rem⟩, by simp only; omega, ?_⟩
    rw [codeBits_nil, List.nil_append, legacy_path hpart (by omega)]
    simp
  | cons y ys =>
    obtain ⟨j, hj⟩ := List.getElem?_of_mem ((mem_symbolsOf f y).2 (hy y (by simp)))
    rw [List.length_cons] at hr
    obtain ⟨k, h1, h2, h3⟩ := legacy_codeBits hn ys (fun z hz => hy z (List.mem_cons_of_mem _ hz)) hj
      (rem := rem) (by omega)
    have hall : runBits (legacyStep (buildArena f) false) (codeBits (codesOf (buildArena f)) (y :: ys))
        ⟨rootIdx (buildArena f), rem⟩ = ((y :: ys).dropLast, ⟨k, rem - ys.length⟩, []) := by
      rw [codeBits_cons, runBits_append _ _ _ _ (by simp only; omega),
        legacy_path (codeAt_eq_path hn hj) (by omega)]
      simp only [show ¬ rem = 0 by omega, if_false, h3, List.nil_append]
    rw [runBits_append _ _ _ _ (by simp only; omega), hall]
    simp only [show ¬ rem - ys.length = 0 by omega, if_false]
    by_cases hp : part = []
    · exact ⟨⟨k, rem - ys.length⟩, by simp only; omega, by simp [hp, runBits]⟩
    · refine ⟨⟨kb, rem - ys.length - 1⟩, by simp only; omega, ?_⟩
      rw [legacy_path_at_leaf hpart hp h1 (by omega), h2, if_neg hp, List.dropLast_append_getLast]

/-! ## One symbol -/

/-- With one symbol every bit is that symbol, whatever its value (R194). -/
theorem legacy_one {arena : List Node} (hl : (nodeAt arena (rootIdx arena)).isInternal = false) (bits : Bits)
    (rem : Nat) (hr : rem ≠ 0) :
    runBits (legacyStep arena true) bits ⟨rootIdx arena, rem⟩ =
      (List.replicate (min bits.length rem) (nodeAt arena (rootIdx arena)).sym, ⟨rootIdx arena, rem - bits.length⟩,
        bits.drop rem) := by
  induction bits generalizing rem with
  | nil => simp [runBits]
  | cons bit bits ih =>
    have e : legacyStep arena true bit ⟨rootIdx arena, rem⟩ =
        ([(nodeAt arena (rootIdx arena)).sym], ⟨rootIdx arena, rem - 1⟩) := by
      simp only [legacyStep, isLeaf_of_not_internal hl, if_true]
      split
      · rename_i h; rw [h]
      · rfl
    rw [runBits, e]
    by_cases h1 : rem - 1 = 0
    · obtain rfl : rem = 1 := by omega
      simp [List.replicate_succ]
    · simp only [h1, if_false]
      rw [ih (rem - 1) h1]
      obtain ⟨m, rfl⟩ : ∃ m, rem = m + 1 := ⟨rem - 1, by omega⟩
      simp only [Nat.add_sub_cancel, List.length_cons, List.drop_succ_cons, Nat.add_sub_add_right,
        Nat.add_min_add_right, List.replicate_succ, List.singleton_append]

theorem root_single_leaf {b : Byte} (h : symbolsOf f = [b]) :
    (nodeAt (buildArena f) (rootIdx (buildArena f))).isInternal = false := by
  have hlen := length_buildArena (f := f) (by simp [h])
  rw [h] at hlen
  obtain ⟨_, he⟩ := symbol_leaf (show (symbolsOf f)[0]? = some b by simp [h])
  simp only [List.length_singleton] at hlen
  rw [rootIdx, hlen, show 2 * 1 - 1 - 1 = 0 by rfl, he]
  rfl

/-- With one symbol the code bits are as many as the symbols (R173). -/
theorem length_codeBits_single {b : Byte} (h : symbolsOf f = [b]) {xs : List Byte} (hx : ∀ x ∈ xs, x = b) :
    (codeBits (codesOf (buildArena f)) xs).length = xs.length := by
  induction xs with
  | nil => rfl
  | cons x xs ih =>
    rw [codeBits_cons, List.length_append, ih fun y hy => hx y (List.mem_cons_of_mem _ hy), hx x (by simp),
      codeAt_single h]
    simp [Nat.add_comm]

/-! ## What UnpackLegacy does -/

theorem unpackLegacy_empty {s : State} (h : s.remaining = []) (tail : Tail) (total distinct : Nat) :
    unpackLegacy tail total distinct s = .ok s := by
  rw [unpackLegacy, h]
  rfl

theorem unpackLegacy_eq_bytes {s : State} (tail : Tail) (total : Nat) (h : s.remaining ≠ [])
    (hd : (symbolsOf s.freq).length ≠ 0) :
    unpackLegacy tail total (distinctCount s.freq) s =
      legacyBytes ((symbolsOf s.freq).length == 1) tail s.remaining ⟨rootIdx s.arena, total⟩ s := by
  rw [unpackLegacy, distinctCount_eq, List.isEmpty_eq_false_iff.2 h, if_neg hd]
  simp

/-- Several symbols: a payload `p` of all the symbols, and the whole bytes `q` after it (R192, R196). -/
theorem unpackLegacy_payload {s : State} {xs p q : List Byte} (tail : Tail) (ha : s.arena = buildArena s.freq)
    (hn : 2 ≤ (symbolsOf s.freq).length) (hrem : s.remaining = p ++ q) (hlen : xs.length = totalCount s.freq)
    (hx : ∀ x ∈ xs, freqAt s.freq x ≠ 0#64) (hp : PayloadOf p (codeBits (codesOf s.arena) xs)) :
    unpackLegacy tail (totalCount s.freq) (distinctCount s.freq) s =
      if (codeBits (codesOf s.arena) xs).length % 8 = 0 then
        if q = [] then .error (.truncated, (s.advance p.length).outWriteAll xs.dropLast)
        else if tail.accepts (q.length == 1) false then .ok ((s.advance (p.length + 1)).outWriteAll xs)
        else .error (.trailing, (s.advance (p.length + 1)).outWriteAll xs)
      else if tail.accepts q.isEmpty ((codeBits (codesOf s.arena) xs).length % 8 == 7) then
        .ok ((s.advance p.length).outWriteAll xs)
      else .error (.trailing, (s.advance p.length).outWriteAll xs) := by
  obtain ⟨pad, hpad, hbits⟩ := hp
  have htot : totalCount s.freq ≠ 0 := fun h => by
    rw [← symbolsOf_eq_nil_iff] at h
    simp [h] at hn
  have hne : xs ≠ [] := fun h => htot (by rw [← hlen, h]; rfl)
  obtain ⟨x, ys, hxs⟩ := List.exists_cons_of_ne_nil hne
  have hpne : p ≠ [] := by
    rintro rfl
    rw [payloadBits_nil, hxs, codeBits_cons] at hbits
    exact codeAt_ne_nil (hx x (by simp [hxs]))
      (ha ▸ (List.append_eq_nil_iff.1 (List.append_eq_nil_iff.1 hbits.symm).1).1)
  have h8 := congrArg List.length hbits
  rw [length_payloadBits, List.length_append] at h8
  have e1 : ((symbolsOf s.freq).length == 1) = false := by simp; omega
  obtain ⟨r1, r2⟩ := legacy_run (f := s.freq) hn hne hx (pad ++ payloadBits q)
  rw [← ha, ← List.append_assoc, ← hbits, ← payloadBits_append, hlen] at r1 r2
  rw [unpackLegacy_eq_bytes _ _ (by rw [hrem]; simp [hpne]) (by omega), e1, hrem]
  by_cases h0 : (codeBits (codesOf s.arena) xs).length % 8 = 0
  · have hpad0 : pad = [] := List.length_eq_zero_iff.1 (by omega)
    subst hpad0
    rw [if_pos h0]
    cases q with
    | nil =>
      obtain ⟨k, r⟩ := r1 rfl
      rw [if_pos rfl, legacyBytes_truncated _ _ _ _ _ htot (by rw [r]; simp), r, List.append_nil]
    | cons b q =>
      have r := r2 (by simp [payloadBits_cons, bitsOfByte])
      have hl : (([] ++ payloadBits (b :: q)).tail : Bits).length = 8 * q.length + 7 := by
        rw [List.nil_append, List.length_tail, length_payloadBits, List.length_cons]
        omega
      rw [show p ++ b :: q = (p ++ [b]) ++ q by simp] at r ⊢
      rw [if_neg (by simp), legacyBytes_finished _ _ (p ++ [b]) q _ _ htot (by rw [r]) (by rw [r]; simp only [hl]; omega)
        (by rw [r]; simp only [hl]; omega), r]
      have e2 : (8 * q.length + 7 == 8 * q.length) = false := by simp
      have e3 : q.isEmpty = ((b :: q).length == 1) := by cases q <;> simp
      simp only [hl, e2, e3, List.length_append, List.length_singleton]
  · have hpad0 : pad ≠ [] := fun h => h0 (by rw [h] at h8; simp at h8; omega)
    have hpl : 0 < pad.length := List.length_pos_iff.2 hpad0
    have r := r2 (by simp [hpad0])
    have hl : ((pad ++ payloadBits q).tail : Bits).length = pad.length - 1 + 8 * q.length := by
      rw [List.length_tail, List.length_append, length_payloadBits]
      omega
    rw [if_neg h0, legacyBytes_finished _ _ p q _ _ htot (by rw [r]) (by rw [r]; simp only [hl]; omega)
      (by rw [r]; simp only [hl]; omega), r]
    have e2 : (pad.length - 1 + 8 * q.length == 8 * q.length) = ((codeBits (codesOf s.arena) xs).length % 8 == 7) := by
      rw [Bool.eq_iff_iff, beq_iff_eq, beq_iff_eq]
      omega
    simp only [hl, e2]

/-- Several symbols: a payload that ends before the last of them (R192). -/
theorem unpackLegacy_truncated {s : State} {ys : List Byte} {part rest : Bits} {b : Byte} (tail : Tail)
    (ha : s.arena = buildArena s.freq) (hn : 2 ≤ (symbolsOf s.freq).length) (hrem : s.remaining ≠ [])
    (hlt : ys.length < totalCount s.freq) (hy : ∀ y ∈ ys, freqAt s.freq y ≠ 0#64) (hb : freqAt s.freq b ≠ 0#64)
    (hc : codeAt (codesOf s.arena) b = part ++ rest)
    (hp : payloadBits s.remaining = codeBits (codesOf s.arena) ys ++ part) :
    unpackLegacy tail (totalCount s.freq) (distinctCount s.freq) s =
      .error (.truncated, (s.advance s.remaining.length).outWriteAll (if part = [] then ys.dropLast else ys)) := by
  have e1 : ((symbolsOf s.freq).length == 1) = false := by simp; omega
  obtain ⟨c, h0, r⟩ := legacy_cut hn hy hb (ha ▸ hc) hlt
  rw [← ha, ← hp] at r
  rw [unpackLegacy_eq_bytes _ _ hrem (by omega), e1,
    legacyBytes_truncated _ _ _ _ _ (by simp only; omega) (by rw [r]; exact h0), r]

/-- One symbol: its occurrences are the bits, whatever their values (R192, R194). -/
theorem unpackLegacy_one {s : State} {b : Byte} (tail : Tail) (ha : s.arena = buildArena s.freq)
    (h : symbolsOf s.freq = [b]) (hrem : s.remaining ≠ []) :
    unpackLegacy tail (totalCount s.freq) (distinctCount s.freq) s =
      if 8 * s.remaining.length < totalCount s.freq then
        .error (.truncated, (s.advance s.remaining.length).outWriteAll (List.replicate (8 * s.remaining.length) b))
      else if tail.accepts (8 * s.remaining.length < totalCount s.freq + 8) (totalCount s.freq % 8 == 0) then
        .ok ((s.advance ((totalCount s.freq + 7) / 8)).outWriteAll (List.replicate (totalCount s.freq) b))
      else
        .error (.trailing,
          (s.advance ((totalCount s.freq + 7) / 8)).outWriteAll (List.replicate (totalCount s.freq) b)) := by
  have htot : totalCount s.freq ≠ 0 := fun h0 => by
    rw [← symbolsOf_eq_nil_iff, h] at h0
    cases h0
  have r := legacy_one (root_single_leaf h) (payloadBits s.remaining) _ htot
  rw [root_single h, ← ha, length_payloadBits] at r
  rw [unpackLegacy_eq_bytes _ _ hrem (by simp [h]), h, show (([b] : List Byte).length == 1) = true by rfl]
  by_cases hlt : 8 * s.remaining.length < totalCount s.freq
  · rw [if_pos hlt, legacyBytes_truncated _ _ _ _ _ htot (by rw [r]; simp only; omega), r,
      Nat.min_eq_left (Nat.le_of_lt hlt)]
  · obtain ⟨hm, hl1, hl2⟩ : min (8 * s.remaining.length) (totalCount s.freq) = totalCount s.freq ∧
        (s.remaining.take ((totalCount s.freq + 7) / 8)).length = (totalCount s.freq + 7) / 8 ∧
        (s.remaining.drop ((totalCount s.freq + 7) / 8)).length =
          s.remaining.length - (totalCount s.freq + 7) / 8 := by
      rw [List.length_take, List.length_drop]
      omega
    have hsplit := List.take_append_drop ((totalCount s.freq + 7) / 8) s.remaining
    have hleft : ((payloadBits s.remaining).drop (totalCount s.freq)).length =
        8 * s.remaining.length - totalCount s.freq := by
      rw [List.length_drop, length_payloadBits]
    rw [if_neg hlt]
    have key := legacyBytes_finished true tail (s.remaining.take ((totalCount s.freq + 7) / 8))
      (s.remaining.drop ((totalCount s.freq + 7) / 8)) ⟨rootIdx s.arena, totalCount s.freq⟩ s htot
      (by rw [hsplit, r]; simp only; omega) (by rw [hsplit, r]; simp only [hl2, hleft]; omega)
      (by rw [hsplit, r]; simp only [hl2, hleft]; omega)
    rw [hsplit, r] at key
    rw [key, hl1, hm]
    have e1 : (s.remaining.drop ((totalCount s.freq + 7) / 8)).isEmpty =
        decide (8 * s.remaining.length < totalCount s.freq + 8) := by
      rw [Bool.eq_iff_iff, List.isEmpty_iff, ← List.length_eq_zero_iff, hl2, decide_eq_true_iff]
      omega
    have e2 : (((payloadBits s.remaining).drop (totalCount s.freq)).length ==
        8 * (s.remaining.drop ((totalCount s.freq + 7) / 8)).length) = (totalCount s.freq % 8 == 0) := by
      rw [Bool.eq_iff_iff, beq_iff_eq, beq_iff_eq, hleft, hl2]
      omega
    simp only [e1, e2]

/-- One symbol under UnpackExact: its occurrences are the bits, whatever their values (R191, R194). -/
theorem unpackExact_one {s : State} {b : Byte} (ha : s.arena = buildArena s.freq) (h : symbolsOf s.freq = [b]) :
    unpackExact (totalCount s.freq) (distinctCount s.freq) s =
      if 8 * s.remaining.length < totalCount s.freq then
        .error (.truncated, (s.advance s.remaining.length).outWriteAll (List.replicate (8 * s.remaining.length) b))
      else if 8 * s.remaining.length < totalCount s.freq + 8 then
        .ok ((s.advance ((totalCount s.freq + 7) / 8)).outWriteAll (List.replicate (totalCount s.freq) b))
      else
        .error (.trailing,
          (s.advance ((totalCount s.freq + 7) / 8)).outWriteAll (List.replicate (totalCount s.freq) b)) := by
  have htot : totalCount s.freq ≠ 0 := fun h0 => by
    rw [← symbolsOf_eq_nil_iff, h] at h0
    cases h0
  have r := runBits_one s.arena (payloadBits s.remaining) (rootIdx s.arena) _ htot
  rw [ha, root_single h, ← ha, length_payloadBits] at r
  rw [unpackExact, distinctCount_eq, h]
  simp only [List.length_singleton, Nat.one_ne_zero, if_false]
  by_cases hrem : s.remaining = []
  · rw [hrem]
    simp [Nat.pos_of_ne_zero htot]
  rw [List.isEmpty_eq_false_iff.2 hrem, show ((1 : Nat) == 1) = true by rfl]
  simp only [Bool.false_eq_true, if_false]
  by_cases hlt : 8 * s.remaining.length < totalCount s.freq
  · rw [if_pos hlt, exactBytes_truncated _ _ _ _ htot (by rw [r]; simp only; omega), r,
      Nat.min_eq_left (Nat.le_of_lt hlt)]
  · obtain ⟨hm, hl1, hl2⟩ : min (8 * s.remaining.length) (totalCount s.freq) = totalCount s.freq ∧
        (s.remaining.take ((totalCount s.freq + 7) / 8)).length = (totalCount s.freq + 7) / 8 ∧
        (s.remaining.drop ((totalCount s.freq + 7) / 8)).length =
          s.remaining.length - (totalCount s.freq + 7) / 8 := by
      rw [List.length_take, List.length_drop]
      omega
    have hsplit := List.take_append_drop ((totalCount s.freq + 7) / 8) s.remaining
    have hleft : ((payloadBits s.remaining).drop (totalCount s.freq)).length =
        8 * s.remaining.length - totalCount s.freq := by
      rw [List.length_drop, length_payloadBits]
    have key := exactBytes_finished true (s.remaining.take ((totalCount s.freq + 7) / 8))
      (s.remaining.drop ((totalCount s.freq + 7) / 8)) ⟨rootIdx s.arena, totalCount s.freq⟩ s htot
      (by rw [hsplit, r]; simp only; omega) (by rw [hsplit, r]; simp only [hl2, hleft]; omega)
      (by rw [hsplit, r]; simp only [hl2, hleft]; omega)
    rw [hsplit, r] at key
    have e1 : s.remaining.drop ((totalCount s.freq + 7) / 8) = [] ↔ 8 * s.remaining.length < totalCount s.freq + 8 := by
      rw [← List.length_eq_zero_iff, hl2]
      omega
    rw [if_neg hlt, key, hl1, hm]
    simp only [e1]

end Built

/-! ## How a decoder ends -/

/-- A decoder on `n` bytes with `rem` symbols to go ends in this body: it has read all the bytes unless it reports TRAILING,
and has written no more than `rem` symbols (R191, R192). -/
def Decoded (n rem : Nat) (s : State) (b : Body) : Prop :=
  ∃ k ys, k ≤ n ∧ ys.length ≤ rem ∧ (b.cause ≠ .trailing → k = n) ∧ b.state = (s.advance k).outWriteAll ys

/-- Each symbol written is one symbol less to go. -/
theorem runBits_written (step : Bool → Cursor → List Byte × Cursor)
    (hs : ∀ bit c, c.rem ≠ 0 → (step bit c).1.length + (step bit c).2.rem = c.rem) (bits : Bits) (c : Cursor)
    (h : c.rem ≠ 0) : (runBits step bits c).1.length + (runBits step bits c).2.1.rem = c.rem := by
  induction bits generalizing c with
  | nil => simp [runBits]
  | cons bit bits ih =>
    have hb := hs bit c h
    rw [runBits]
    split
    · exact hb
    · rename_i h0
      have := ih (step bit c).2 h0
      simp only [List.length_append]
      omega

theorem bitStep_written (arena : List Node) (one bit : Bool) (c : Cursor) (h : c.rem ≠ 0) :
    (bitStep arena one bit c).1.length + (bitStep arena one bit c).2.rem = c.rem := by
  rw [bitStep]
  split
  · simp only [List.length_singleton]
    omega
  · split
    · simp only [List.length_singleton]
      omega
    · simp

theorem legacyStep_written (arena : List Node) (one bit : Bool) (c : Cursor) (h : c.rem ≠ 0) :
    (legacyStep arena one bit c).1.length + (legacyStep arena one bit c).2.rem = c.rem := by
  rw [legacyStep]
  split
  · simp only [List.length_singleton]
    split
    · simp only
      omega
    · split <;> simp only <;> omega
  · simp

theorem Decoded.more {n rem rem' : Nat} {s : State} {ys : List Byte} {b : Body} (hr : ys.length + rem' = rem)
    (h : Decoded n rem' (s.consume.outWriteAll ys) b) : Decoded (n + 1) rem s b := by
  obtain ⟨k, zs, h1, h2, h3, h4⟩ := h
  refine ⟨k + 1, ys ++ zs, by omega, by rw [List.length_append]; omega, fun h => by rw [h3 h], ?_⟩
  rw [h4, State.consume_eq, State.outWriteAll_append, ← State.outWriteAll_advance, State.advance_advance, Nat.add_comm 1 k]

theorem Decoded.ended {n rem : Nat} {s : State} {ys : List Byte} {b : Body} (hr : ys.length ≤ rem)
    (hc : b.cause ≠ .trailing → n = 0) (hb : b.state = s.consume.outWriteAll ys) : Decoded (n + 1) rem s b :=
  ⟨1, ys, by omega, hr, fun h => by rw [hc h], by rw [hb, State.consume_eq]⟩

theorem exactBytes_decoded (one : Bool) (bs : List Byte) (c : Cursor) (s : State) (h : c.rem ≠ 0) :
    Decoded bs.length c.rem s (exactBytes one bs c s) := by
  induction bs generalizing c s with
  | nil => exact ⟨0, [], le_rfl, Nat.zero_le _, fun _ => rfl, by simp [exactBytes]⟩
  | cons b bs ih =>
    have hw := runBits_written _ (bitStep_written s.arena one) (bitsOfByte b) c h
    rw [exactBytes, exactByte_eq _ _ _ _ _ h]
    simp only [State.consume_arena, List.length_cons]
    by_cases h0 : (runBits (bitStep s.arena one) (bitsOfByte b) c).2.1.rem = 0
    · simp only [h0, if_true]
      cases bs <;> exact Decoded.ended (by omega) (by simp) rfl
    · simp only [h0, if_false]
      exact Decoded.more hw (ih _ _ h0)

theorem legacyBytes_decoded (one : Bool) (tail : Tail) (bs : List Byte) (c : Cursor) (s : State) (h : c.rem ≠ 0) :
    Decoded bs.length c.rem s (legacyBytes one tail bs c s) := by
  induction bs generalizing c s with
  | nil => exact ⟨0, [], le_rfl, Nat.zero_le _, fun _ => rfl, by simp [legacyBytes]⟩
  | cons b bs ih =>
    have hw := runBits_written _ (legacyStep_written s.arena one) (bitsOfByte b) c h
    rw [legacyBytes, legacyByte_eq _ _ _ _ _ _ h]
    simp only [State.consume_arena, List.length_cons]
    by_cases h0 : (runBits (legacyStep s.arena one) (bitsOfByte b) c).2.1.rem = 0
    · simp only [h0, if_true]
      cases bs with
      | nil =>
        by_cases ha : tail.accepts true (runBits (legacyStep s.arena one) (bitsOfByte b) c).2.2.isEmpty = true
        · simp only [List.isEmpty_nil, ha, if_true]
          exact Decoded.ended (by omega) (by simp) rfl
        · simp only [List.isEmpty_nil, ha]
          exact Decoded.ended (by omega) (by simp) rfl
      | cons x bs => cases tail <;> exact Decoded.ended (by omega) (by simp [Tail.accepts]) rfl
    · simp only [h0, if_false]
      exact Decoded.more hw (ih _ _ h0)

/-- How UNPACK's decoder ends, in every mode and on every payload (R190 to R192); its causes are those of
`unpackRemaining_ends`. -/
theorem unpackRemaining_decoded (s : State) :
    Decoded s.remaining.length (totalCount s.freq) s (unpackRemaining s) := by
  have hd : ¬ distinctCount s.freq = 0 → totalCount s.freq ≠ 0 := by
    rw [distinctCount_eq, List.length_eq_zero_iff, symbolsOf_eq_nil_iff]
    exact id
  have here : ∀ {b : Body}, b.state = s → (b.cause ≠ .trailing → s.remaining = []) →
      Decoded s.remaining.length (totalCount s.freq) s b := fun h1 h2 =>
    ⟨0, [], Nat.zero_le _, Nat.zero_le _, fun h => by rw [h2 h]; rfl, by simp [h1]⟩
  have hexact : Decoded s.remaining.length (totalCount s.freq) s
      (unpackExact (totalCount s.freq) (distinctCount s.freq) s) := by
    rw [unpackExact]
    split
    · split
      · rename_i h; exact here rfl fun _ => List.isEmpty_iff.1 h
      · exact here rfl (by simp)
    · split
      · rename_i h; exact here rfl fun _ => List.isEmpty_iff.1 h
      · rename_i h _; exact exactBytes_decoded _ _ ⟨_, _⟩ _ (hd h)
  have hleg : ∀ t, Decoded s.remaining.length (totalCount s.freq) s
      (unpackLegacy t (totalCount s.freq) (distinctCount s.freq) s) := by
    intro t
    rw [unpackLegacy]
    split
    · rename_i h; exact here rfl fun _ => List.isEmpty_iff.1 h
    · split
      · exact here rfl (by simp)
      · rename_i h; exact legacyBytes_decoded _ _ _ ⟨_, _⟩ _ (hd h)
  rw [unpackRemaining]
  split
  exacts [hexact, hleg _, hleg _]

end Sys2Proof.Machine
end

