-- ==== Sys2Proof/Laws/PerInstr.lean ====
section
/-! SUPPORT. Statements about every command as syntax, one lemma per constructor. -/

/-- A command is well formed, its word has no reserved bit set and its opcode maps back to it (spec/30_encoding.md R111
to R113). -/
def Sys2Proof.Laws.WordForm.Statement (i : Sys2Proof.Instr) : Prop :=
  i.wellFormed = true ∧ Sys2Proof.reservedClear (Sys2Proof.encode i) = true ∧
    Sys2Proof.commandOf (Sys2Proof.opcodeField (Sys2Proof.encode i)) = some i

theorem Sys2Proof.Laws.WordForm.nop : Sys2Proof.Laws.WordForm.Statement .nop := ⟨rfl, by decide, rfl⟩
theorem Sys2Proof.Laws.WordForm.softReset : Sys2Proof.Laws.WordForm.Statement .softReset := ⟨rfl, by decide, rfl⟩
theorem Sys2Proof.Laws.WordForm.inRewind : Sys2Proof.Laws.WordForm.Statement .inRewind := ⟨rfl, by decide, rfl⟩
theorem Sys2Proof.Laws.WordForm.histClear : Sys2Proof.Laws.WordForm.Statement .histClear := ⟨rfl, by decide, rfl⟩
theorem Sys2Proof.Laws.WordForm.histAccum : Sys2Proof.Laws.WordForm.Statement .histAccum := ⟨rfl, by decide, rfl⟩
theorem Sys2Proof.Laws.WordForm.hdrEmit : Sys2Proof.Laws.WordForm.Statement .hdrEmit := ⟨rfl, by decide, rfl⟩
theorem Sys2Proof.Laws.WordForm.hdrLoad : Sys2Proof.Laws.WordForm.Statement .hdrLoad := ⟨rfl, by decide, rfl⟩
theorem Sys2Proof.Laws.WordForm.treeBuild : Sys2Proof.Laws.WordForm.Statement .treeBuild := ⟨rfl, by decide, rfl⟩
theorem Sys2Proof.Laws.WordForm.codeGen : Sys2Proof.Laws.WordForm.Statement .codeGen := ⟨rfl, by decide, rfl⟩
theorem Sys2Proof.Laws.WordForm.pack : Sys2Proof.Laws.WordForm.Statement .pack := ⟨rfl, by decide, rfl⟩
theorem Sys2Proof.Laws.WordForm.unpack : Sys2Proof.Laws.WordForm.Statement .unpack := ⟨rfl, by decide, rfl⟩
theorem Sys2Proof.Laws.WordForm.compress : Sys2Proof.Laws.WordForm.Statement .compress := ⟨rfl, by decide, rfl⟩
theorem Sys2Proof.Laws.WordForm.decompress : Sys2Proof.Laws.WordForm.Statement .decompress := ⟨rfl, by decide, rfl⟩
end

