-- ==== Sys2Proof/Laws/Registers.lean ====
section
/-! SUPPORT. The register words bit by bit (spec/10_state.md R34, R36, R43, R44, R56). -/

namespace Sys2Proof.Machine

/-- A flag has its bit and no other (R36). -/
theorem flagAt_getLsbD (pos : Nat) (b : Bool) {i : Nat} (hi : i < 32) :
    (flagAt pos b).getLsbD i = (decide (i = pos) && b) := by
  rw [flagAt, BitVec.getLsbD_shiftLeft, BitVec.getLsbD_setWidth]
  by_cases h : i = pos
  · subst h; simp [hi]
  · by_cases h2 : i < pos
    · simp [h, h2]
    · have h3 : ¬ (i - pos = 0) := by omega
      simp [h, h2, h3]

/-- A field widened and shifted to its place has its own bits there and no other (R36). -/
theorem fieldAt_getLsbD {n : Nat} (v : BitVec n) (pos : Nat) {i : Nat} (hi : i < 32) :
    (v.setWidth 32 <<< pos).getLsbD i = (decide (pos ≤ i) && v.getLsbD (i - pos)) := by
  have h3 : i - pos < 32 := by omega
  rw [BitVec.getLsbD_shiftLeft, BitVec.getLsbD_setWidth]
  by_cases h : pos ≤ i
  · simp [hi, h, h3]
  · simp [h]

/-- Bit 31 - j of CODE_BITS is bit j of the selected word of the code (R56). -/
theorem codeBitsWord_getLsbD (c : Bits) (w : Nat) {j : Nat} (hj : j < 32) :
    (codeBitsWord c w).getLsbD (31 - j) = c.getD (32 * w + j) false := by
  have key : ∀ (ks : List Nat) (v : Word), (∀ k ∈ ks, k < 32) →
      (ks.foldl (fun v k => v ||| flagAt (31 - k) (c.getD (32 * w + k) false)) v).getLsbD (31 - j) =
        (v.getLsbD (31 - j) || (decide (j ∈ ks) && c.getD (32 * w + j) false)) := by
    intro ks
    induction ks with
    | nil => simp
    | cons k ks ih =>
      intro v hk
      rw [List.foldl_cons, ih _ fun x hx => hk x (List.mem_cons_of_mem _ hx), BitVec.getLsbD_or,
        flagAt_getLsbD _ _ (by omega)]
      have hkl := hk k (by simp)
      by_cases h : j = k
      · subst h
        cases v.getLsbD (31 - j) <;> cases c.getD (32 * w + j) false <;> simp
      · have h' : ¬ (31 - j = 31 - k) := by omega
        simp [h, h']
  rw [codeBitsWord, key _ _ fun k hk => List.mem_range.1 hk]
  simp [hj]

end Sys2Proof.Machine
end

