-- ==== Sys2Proof/Tests/Slice0.lean ====
section
/-! SUPPORT. Tests. Expected values come from the spec: the opcode map (spec/30_encoding.md R113), the register map
(spec/10_state.md R32) and the vectors of spec/95_test_vectors.md, named in each comment. Then, for every obligation with
hypotheses, a witness: concrete operands that meet them. -/

namespace Sys2Proof.Tests

open Sys2Proof Sys2Proof.Machine

/-! ## WellFormed: each check refuses an ill-formed term -/

-- A command has no operand, so no command is ill-formed (R112).
theorem test_commands_wellFormed :
    ([.nop, .softReset, .inRewind, .histClear, .histAccum, .hdrEmit, .hdrLoad, .treeBuild, .codeGen, .pack, .unpack,
      .compress, .decompress] : List Instr).all Instr.wellFormed = true := by decide
-- R111, R114: a bit of [31:8] set.
theorem test_reserved_bit_refused : reservedClear 0x00000100#32 = false := by decide
theorem test_top_reserved_bit_refused : reservedClear 0x80000000#32 = false := by decide
-- R88: narrower, wider, misaligned; R241: outside the window.
theorem test_narrow_access_refused : csrWidthOk 2 = false := by decide
theorem test_wide_access_refused : csrWidthOk 8 = false := by decide
theorem test_misaligned_access_refused : csrAligned 0x0E = false := by decide
theorem test_outside_window_refused : csrInWindow 0x100 = false := by decide
theorem test_access_refused : csrAccessOk 0x100 4 = false ∧ csrAccessOk 0x02 4 = false ∧ csrAccessOk 0x04 1 = false := by
  decide
theorem test_last_access_allowed : csrAccessOk 0xFC 4 = true := by decide
-- R246: an input of 2^64 bytes is too long; one of 2^64 - 1 fits.
theorem test_long_input_refused : ∀ xs : List Byte, xs.length = 2 ^ 64 → inputFits xs = false := by
  intro xs h; simp only [inputFits, h]; decide
theorem test_longest_input_fits : ∀ xs : List Byte, xs.length = 2 ^ 64 - 1 → inputFits xs = true := by
  intro xs h; simp only [inputFits, h]; decide

/-! ## Decoding: the words of R113, and the illegal words of V-ERR-1 -/

theorem test_decode_nop : decode 0b00000000000000000000000000000000#32 = .ok .nop := by decide
theorem test_decode_softReset : decode 0b00000000000000000000000000000001#32 = .ok .softReset := by decide
theorem test_decode_inRewind : decode 0b00000000000000000000000000000010#32 = .ok .inRewind := by decide
theorem test_decode_histClear : decode 0b00000000000000000000000000010000#32 = .ok .histClear := by decide
theorem test_decode_histAccum : decode 0b00000000000000000000000000010001#32 = .ok .histAccum := by decide
theorem test_decode_hdrEmit : decode 0b00000000000000000000000000010010#32 = .ok .hdrEmit := by decide
theorem test_decode_hdrLoad : decode 0b00000000000000000000000000010011#32 = .ok .hdrLoad := by decide
theorem test_decode_treeBuild : decode 0b00000000000000000000000000100000#32 = .ok .treeBuild := by decide
theorem test_decode_codeGen : decode 0b00000000000000000000000000110000#32 = .ok .codeGen := by decide
theorem test_decode_pack : decode 0b00000000000000000000000001000000#32 = .ok .pack := by decide
theorem test_decode_unpack : decode 0b00000000000000000000000001000001#32 = .ok .unpack := by decide
theorem test_decode_compress : decode 0b00000000000000000000000010000000#32 = .ok .compress := by decide
theorem test_decode_decompress : decode 0b00000000000000000000000010000001#32 = .ok .decompress := by decide
-- V-ERR-1: bad opcodes, and reserved bits before the opcode.
theorem test_decode_bad_opcodes :
    decode 0x00000003#32 = .error .badOpcode ∧ decode 0x00000042#32 = .error .badOpcode ∧
    decode 0x000000FF#32 = .error .badOpcode := by decide
theorem test_decode_reserved_bits :
    decode 0x00000100#32 = .error .reservedBits ∧ decode 0x00000180#32 = .error .reservedBits ∧
    decode 0x000001FF#32 = .error .reservedBits := by decide
theorem test_decodeTableWord : decodeTableWord 32 0x81 = some .decompress ∧ decodeTableWord 32 0x182 = none := by decide

/-! ## Small states -/

/-- Reset, with both handles usable: the start state of the vectors. -/
def ready : State := { State.reset with inUsable := true, outUsable := true }

/-- A completed outcome's state. -/
def resultOf (o : Host.Outcome State Fault Refusal) : State :=
  match o with
  | .next s => s
  | .fault _ => State.reset
  | .refused _ => State.reset

/-- Counts A = 1, B = 1 (V-TREE-2). -/
def countsAB : FreqTable := freqSet (freqSet freqZero 0x41#8 1#64) 0x42#8 1#64

/-- Counts a = 2, b = 1 (V-TREE-3). -/
def countsAab : FreqTable := freqSet (freqSet freqZero 0x61#8 2#64) 0x62#8 1#64

/-- Counts A = 1, B = 1, C = 2 (V-TREE-5). -/
def countsTie : FreqTable := freqSet countsAB 0x43#8 2#64

/-- The one symbol A, three times (V-TREE-9). -/
def countsA3 : FreqTable := freqSet freqZero 0x41#8 3#64

/-- Counts whose sum is 2^64 (V-TREE-12). -/
def countsOvf : FreqTable := freqSet (freqSet freqZero 0#8 0x8000000000000000#64) 1#8 0x8000000000000000#64

/-- Counts whose sum is 2^64 - 1 (V-TREE-13). -/
def countsMax : FreqTable := freqSet freqZero 0#8 0xFFFFFFFFFFFFFFFF#64

/-- The arena of V-TREE-2. -/
def arenaAB : List Node := [.leaf 0x41#8 1#64 0#9, .leaf 0x42#8 1#64 1#9, .internal 2#64 2#9 0#9 1#9]

/-- Codes from "ab": a = 1, b = 0 (V-PACK-7). -/
def codesab : CodeTable := codeSet (codeSet codesEmpty 0x61#8 [true]) 0x62#8 [false]

/-- `ready` with the tree of counts AB built. -/
def treeAB : State := { ready with freq := countsAB, arena := arenaAB, treeValid := true }

/-! ## Facts about the tables of the tests -/

/-- Counts A = 4, B = 4 (V-DEC-4, "ABABABAB"). -/
def counts44 : FreqTable := freqSet (freqSet freqZero 0x41#8 4#64) 0x42#8 4#64

/-- Counts A = 4, B = 3: seven code bits. -/
def counts43 : FreqTable := freqSet (freqSet freqZero 0x41#8 4#64) 0x42#8 3#64

/-- Counts A = 2, B = 2, C = 4: the code of C is `1`, of A `01`, of B `00`. -/
def counts224 : FreqTable := freqSet (freqSet (freqSet freqZero 0x41#8 2#64) 0x42#8 2#64) 0x43#8 4#64

/-- The one symbol A, eight times (V-DEC-6). -/
def countsA8 : FreqTable := freqSet freqZero 0x41#8 8#64

theorem symbols_one (a : Byte) (x : Count) (hx : x ≠ 0#64) :
    symbolsOf (freqSet freqZero a x) = allBytes.filter (fun c => a == c) := by
  rw [symbolsOf_eq]; congr 1; funext c
  rw [freqAt_freqSet, freqAt_freqZero]; split <;> simp_all

theorem symbols_two (a b : Byte) (x y : Count) (hx : x ≠ 0#64) (hy : y ≠ 0#64) :
    symbolsOf (freqSet (freqSet freqZero a x) b y) = allBytes.filter (fun c => b == c || a == c) := by
  rw [symbolsOf_eq]; congr 1; funext c
  rw [freqAt_freqSet, freqAt_freqSet, freqAt_freqZero]; split <;> (try split) <;> simp_all

theorem symbols_three (a b c : Byte) (x y z : Count) (hx : x ≠ 0#64) (hy : y ≠ 0#64) (hz : z ≠ 0#64) :
    symbolsOf (freqSet (freqSet (freqSet freqZero a x) b y) c z) =
      allBytes.filter (fun d => c == d || (b == d || a == d)) := by
  rw [symbolsOf_eq]; congr 1; funext d
  rw [freqAt_freqSet, freqAt_freqSet, freqAt_freqSet, freqAt_freqZero]
  split <;> (try split) <;> (try split) <;> simp_all

theorem countsOf_one (a : Byte) (n : Nat) (h : n < 2 ^ 64) :
    CountsOf (freqSet freqZero a (BitVec.ofNat 64 n)) (List.replicate n a) := fun c => by
  rw [freqAt_freqSet, freqAt_freqZero, List.count_replicate]
  split <;> simp_all

theorem countsOf_two (a b : Byte) (xs : List Byte) (hlt : xs.length < 2 ^ 64) (hx : ∀ c ∈ xs, c = a ∨ c = b) :
    CountsOf (freqSet (freqSet freqZero a (BitVec.ofNat 64 (xs.count a))) b (BitVec.ofNat 64 (xs.count b))) xs :=
  fun c => by
  have hc : xs.count c < 2 ^ 64 := Nat.lt_of_le_of_lt List.count_le_length hlt
  rw [freqAt_freqSet, freqAt_freqSet, freqAt_freqZero]
  split
  · subst_vars; exact Nat.mod_eq_of_lt hc
  · split
    · subst_vars; exact Nat.mod_eq_of_lt hc
    · exact (List.count_eq_zero_of_not_mem fun hm => by rcases hx c hm with h | h <;> simp_all).symm

theorem symbolsOf_zero : symbolsOf freqZero = [] := freqZero_symbols
theorem symbolsOf_AB : symbolsOf countsAB = [0x41#8, 0x42#8] := by
  rw [countsAB, symbols_two _ _ _ _ (by decide) (by decide)]; decide +kernel
theorem symbolsOf_aab : symbolsOf countsAab = [0x61#8, 0x62#8] := by
  rw [countsAab, symbols_two _ _ _ _ (by decide) (by decide)]; decide +kernel
theorem symbolsOf_44 : symbolsOf counts44 = [0x41#8, 0x42#8] := by
  rw [counts44, symbols_two _ _ _ _ (by decide) (by decide)]; decide +kernel
theorem symbolsOf_43 : symbolsOf counts43 = [0x41#8, 0x42#8] := by
  rw [counts43, symbols_two _ _ _ _ (by decide) (by decide)]; decide +kernel
theorem symbolsOf_ovf : symbolsOf countsOvf = [0#8, 1#8] := by
  rw [countsOvf, symbols_two _ _ _ _ (by decide) (by decide)]; decide +kernel
theorem symbolsOf_max : symbolsOf countsMax = [0#8] := by
  rw [countsMax, symbols_one _ _ (by decide)]; decide +kernel
theorem symbolsOf_A3 : symbolsOf countsA3 = [0x41#8] := by
  rw [countsA3, symbols_one _ _ (by decide)]; decide +kernel
theorem symbolsOf_A8 : symbolsOf countsA8 = [0x41#8] := by
  rw [countsA8, symbols_one _ _ (by decide)]; decide +kernel
theorem symbolsOf_tie : symbolsOf countsTie = [0x41#8, 0x42#8, 0x43#8] := by
  rw [countsTie, countsAB, symbols_three _ _ _ _ _ _ (by decide) (by decide) (by decide)]; decide +kernel
theorem symbolsOf_224 : symbolsOf counts224 = [0x41#8, 0x42#8, 0x43#8] := by
  rw [counts224, symbols_three _ _ _ _ _ _ (by decide) (by decide) (by decide)]; decide +kernel

theorem total_zero : totalCount freqZero = 0 := by rw [totalCount_symbols, symbolsOf_zero]; rfl
theorem total_AB : totalCount countsAB = 2 := by rw [totalCount_symbols, symbolsOf_AB]; decide +kernel
theorem total_A3 : totalCount countsA3 = 3 := by rw [totalCount_symbols, symbolsOf_A3]; decide +kernel
theorem total_A8 : totalCount countsA8 = 8 := by rw [totalCount_symbols, symbolsOf_A8]; decide +kernel
theorem total_224 : totalCount counts224 = 8 := by rw [totalCount_symbols, symbolsOf_224]; decide +kernel
theorem total_ovf : totalCount countsOvf = 2 ^ 64 := by rw [totalCount_symbols, symbolsOf_ovf]; decide +kernel
theorem total_max : totalCount countsMax = 2 ^ 64 - 1 := by rw [totalCount_symbols, symbolsOf_max]; decide +kernel

-- V-TREE-2, V-TREE-3 and V-TREE-5: the lighter node is the left child; a leaf beats an internal node of equal weight.
theorem arena_AB : buildArena countsAB = arenaAB := by rw [buildArena, leavesOf_eq, symbolsOf_AB]; decide +kernel
theorem arena_aab : buildArena countsAab =
    [.leaf 0x61#8 2#64 0#9, .leaf 0x62#8 1#64 1#9, .internal 3#64 2#9 1#9 0#9] := by
  rw [buildArena, leavesOf_eq, symbolsOf_aab]; decide +kernel
theorem arena_tie : buildArena countsTie =
    [.leaf 0x41#8 1#64 0#9, .leaf 0x42#8 1#64 1#9, .leaf 0x43#8 2#64 2#9, .internal 2#64 3#9 0#9 1#9,
     .internal 4#64 4#9 2#9 3#9] := by rw [buildArena, leavesOf_eq, symbolsOf_tie]; decide +kernel

/-! ## The instructions: vectors of spec/95_test_vectors.md -/

-- V-CTL-1, both usable and neither usable, and with IRQ_EN = 1.
theorem test_nop : (resultOf (exec .nop ready)).statusWord = 0x000C0002#32 ∧
    (resultOf (exec .nop State.reset)).statusWord = 0x00000002#32 := by decide
theorem test_nop_irq : (resultOf (exec .nop { ready with irqEn := true })).statusWord = 0x001C0002#32 := by decide
-- V-CTL-2: the count restarts, OUT and CTRL stay.
theorem test_softReset : (resultOf (exec .softReset { treeAB with output := [1#8], outCnt := 1#64, hdrBe := true })).outCnt = 0#64 ∧
    (resultOf (exec .softReset { treeAB with output := [1#8], outCnt := 1#64, hdrBe := true })).output = [1#8] ∧
    (resultOf (exec .softReset { treeAB with output := [1#8], outCnt := 1#64, hdrBe := true })).hdrBe = true ∧
    (resultOf (exec .softReset { treeAB with overrun := true })).statusWord = 0x000C0002#32 := by decide
-- V-CTL-3.
theorem test_inRewind : (resultOf (exec .inRewind { ready with input := [1#8], inPtr := 1#64 })).inPtr = 0#64 ∧
    (resultOf (exec .inRewind { State.reset with input := [1#8], inPtr := 1#64 })).inPtr = 1#64 := by decide
-- R134's example, with its valid bits.
theorem test_histClear : freqAt (resultOf (exec .histClear treeAB)).freq 0x41#8 = 0#64 ∧
    (resultOf (exec .histClear treeAB)).treeValid = false ∧ (resultOf (exec .histClear treeAB)).arena = arenaAB := by
  decide +kernel
-- V-HIST-3 ("aab", twice) and V-HIST-4.
theorem test_histAccum :
    freqAt (resultOf (exec .histAccum { ready with freq := countsAab, input := [0x61#8, 0x61#8, 0x62#8] })).freq 0x61#8
      = 4#64 ∧
    freqAt (resultOf (exec .histAccum { ready with freq := countsAab, input := [0x61#8, 0x61#8, 0x62#8] })).freq 0x62#8
      = 2#64 := by decide +kernel
theorem test_histAccum_unusable :
    (resultOf (exec .histAccum { State.reset with outUsable := true, input := [1#8] })).statusWord = 0x00080112#32 := by
  decide
-- V-HDR-1, both byte orders.
theorem test_hdrEmit :
    ((resultOf (exec .hdrEmit { ready with freq := freqSet freqZero 1#8 0x0102030405060708#64 })).output.drop 8).take 8
      = [8#8, 7#8, 6#8, 5#8, 4#8, 3#8, 2#8, 1#8] := by decide +kernel
theorem test_hdrEmit_bigEndian :
    ((resultOf (exec .hdrEmit { ready with freq := freqSet freqZero 1#8 0x0102030405060708#64, lHdrBe := true })).output.drop 8).take 8
      = [1#8, 2#8, 3#8, 4#8, 5#8, 6#8, 7#8, 8#8] := by decide +kernel
-- V-HDR-5, and V-HDR-4's first load (FREQ[0x41] = 2 is at offset 0x208).
theorem test_hdrLoad_short : (resultOf (exec .hdrLoad { ready with input := (List.replicate 100 0#8) })).info = 100#64 ∧
    (resultOf (exec .hdrLoad { ready with input := List.replicate 100 0#8 })).statusWord = 0x000C0312#32 := by
  decide +kernel
theorem test_hdrLoad :
    freqAt (resultOf (exec .hdrLoad { ready with input := (List.replicate 4096 0#8).set 0x208 2#8 })).freq 0x41#8 = 2#64 ∧
    (resultOf (exec .hdrLoad { ready with input := (List.replicate 4096 0#8).set 0x208 2#8 })).inPtr = 2048#64 := by
  decide +kernel
-- V-TREE-3, and V-TREE-12: the sum reaches 2^64.
theorem test_treeBuild (s : State) (h : s.freq = countsAab) : exec .treeBuild s = .next ({ s with
    arena := [.leaf 0x61#8 2#64 0#9, .leaf 0x62#8 1#64 1#9, .internal 3#64 2#9 1#9 0#9]
    treeValid := true, codeValid := false } : State).completedOk := by
  have ht : totalOvf countsAab = false := by
    rw [totalOvf, totalCount_symbols, symbolsOf_aab]; decide +kernel
  simp only [exec, execTreeBuild, buildTree, h, ht, Bool.false_eq_true, if_false, arena_aab]; rfl
theorem test_treeBuild_overflow (s : State) (h : s.freq = countsOvf) : exec .treeBuild s = .next (({ s with
    arena := [], treeValid := false, codeValid := false } : State).completedInvalid .weightOverflow) := by
  have ht : totalOvf countsOvf = true := by rw [totalOvf, total_ovf]; rfl
  simp only [exec, execTreeBuild, buildTree, h, ht, if_true]; rfl
-- V-CODE-2 and V-CODE-11.
theorem test_codeGen : codeAt (resultOf (exec .codeGen treeAB)).codes 0x41#8 = [true] ∧
    codeAt (resultOf (exec .codeGen treeAB)).codes 0x42#8 = [false] ∧
    codeAt (resultOf (exec .codeGen treeAB)).codes 0x43#8 = [] := by decide +kernel
theorem test_codeGen_noTree : (resultOf (exec .codeGen { ready with pending := some 0x30#32 })).statusWord = 0x000C0832#32 ∧
    (resultOf (exec .codeGen { ready with pending := some 0x30#32 })).info = 0x30#64 := by decide
-- V-PACK-7 and V-PACK-8.
theorem test_pack : (resultOf (exec .pack { ready with
      codes := codesab, codeValid := true, input := [0x61#8, 0x62#8, 0x61#8, 0x62#8, 0x61#8, 0x62#8, 0x61#8, 0x62#8, 0x63#8] })).output = [0xAA#8] ∧
    (resultOf (exec .pack { ready with
      codes := codesab, codeValid := true, input := [0x61#8, 0x62#8, 0x61#8, 0x62#8, 0x61#8, 0x62#8, 0x61#8, 0x62#8, 0x63#8] })).info = 8#64 := by
  decide +kernel
theorem test_pack_drops_partial : (resultOf (exec .pack { ready with
      codes := codesab, codeValid := true, input := [0x61#8, 0x62#8, 0x63#8, 0x61#8, 0x62#8] })).output = [] ∧
    (resultOf (exec .pack { ready with
      codes := codesab, codeValid := true, input := [0x61#8, 0x62#8, 0x63#8, 0x61#8, 0x62#8] })).info = 2#64 := by decide +kernel
-- V-DEC-4: `AA` is "ABABABAB" in EXACT, and loses its last symbol in the legacy modes.
theorem test_unpack_exact : (resultOf (exec .unpack { treeAB with
      freq := freqSet (freqSet freqZero 0x41#8 4#64) 0x42#8 4#64, input := [0xAA#8] })).output =
    [0x41#8, 0x42#8, 0x41#8, 0x42#8, 0x41#8, 0x42#8, 0x41#8, 0x42#8] := by decide +kernel
theorem test_unpack_legacy : (resultOf (exec .unpack { treeAB with
      freq := freqSet (freqSet freqZero 0x41#8 4#64) 0x42#8 4#64, input := [0xAA#8], lDecMode := .legacyByte })).statusWord
    = 0x000D0612#32 := by decide +kernel
-- R192: at the first bit of a byte after `AA`, the last "B" is recognised: OK in LEGACY_BYTE, TRAILING in LEGACY_BIT.
theorem test_unpack_legacy_tail : (resultOf (exec .unpack { treeAB with
      freq := freqSet (freqSet freqZero 0x41#8 4#64) 0x42#8 4#64, input := [0xAA#8, 0#8], lDecMode := .legacyByte })).statusWord
    = 0x000D0002#32 ∧ (resultOf (exec .unpack { treeAB with
      freq := freqSet (freqSet freqZero 0x41#8 4#64) 0x42#8 4#64, input := [0xAA#8, 0#8], lDecMode := .legacyBit })).statusWord
    = 0x000D0712#32 := by decide +kernel
-- V-CMP-2 and V-CMP-8.
theorem test_compress : (resultOf (exec .compress { ready with input := [0x41#8, 0x42#8] })).output.drop 2048 = [0x80#8] := by
  decide +kernel
theorem test_compress_unusable : (resultOf (exec .compress { State.reset with inUsable := true })).statusWord = 0x00040212#32 := by
  decide
-- V-DEC-1 (`H(A=1,B=1) ++ 80`), through the lemma on the header, and V-DEC-13.
theorem test_decompress (s : State) (h : s.input = headerOf s.lHdrBe countsAB ++ [0x80#8]) :
    decompressBody s = unpackRemaining
      { s with freq := countsAB, arena := arenaAB, treeValid := true, codeValid := false, inPtr := 2048#64 } := by
  have hov : totalOvf countsAB = false := by rw [totalOvf, total_AB]; rfl
  rw [decompressBody, decompress_tables h, hov, arena_AB]; rfl
theorem test_decompress_short : (resultOf (exec .decompress ready)).statusWord = 0x000C0312#32 := by decide

/-! ## Registers, issue and steps -/

-- V-CTL-4.
theorem test_ctrl_writes : (ready.writeOffset 0x04 0xFFFFFFFF#32).ctrlWord = 0x00000009#32 ∧
    (ready.writeOffset 0x04 0x00000005#32).ctrlWord = 0x00000005#32 ∧
    (ready.writeOffset 0x04 0x00000002#32).ctrlWord = 0x00000002#32 := by decide
-- V-CTL-5.
theorem test_constant_registers : (ready.readOffset 0x00).1 = 0x48554646#32 ∧ (ready.readOffset 0x08).1 = 0#32 ∧
    (ready.readOffset 0x4C).1 = 0#32 ∧ (ready.readOffset 0x6C).1 = 0#32 ∧ (ready.readOffset 0x80).1 = 0#32 := by decide
-- V-CTL-6.
theorem test_status_write : ({ ready with done := true, overrun := true }.writeOffset 0x0C 0x2#32).statusWord = 0x000C0004#32 ∧
    ({ ready with done := true, overrun := true }.writeOffset 0x0C 0x4#32).statusWord = 0x000C0002#32 ∧
    ({ ready with done := true, overrun := true }.writeOffset 0x0C 0#32).statusWord = 0x000C0006#32 := by decide
-- V-TREE-15's shape of row: a leaf, an internal node, an index beyond, on the arena of V-TREE-2.
theorem test_node_window : (treeAB.readOffset 0x54).1 = 0x80004100#32 ∧
    ((treeAB.writeOffset 0x50 2#32).readOffset 0x54).1 = 0x80000001#32 ∧
    ((treeAB.writeOffset 0x50 0xFFFF#32).readOffset 0x50).1 = 0x1FF#32 ∧
    ((treeAB.writeOffset 0x50 0xFFFF#32).readOffset 0x54).1 = 0#32 := by decide
-- V-TREE-2 and V-HDR-8.
theorem test_summary_registers : (treeAB.readOffset 0x3C).1 = 0x00020003#32 ∧
    ({ ready with freq := countsOvf }.readOffset 0x38).1 = 0x00010002#32 ∧
    ({ ready with freq := countsOvf }.readOffset 0x34).1 = 0#32 := by decide +kernel
-- R56's example, `0 1 1`; R175's, `001`.
theorem test_code_bits : codeBitsWord [false, true, true] 0 = 0x60000000#32 ∧
    codeBitsWord [false, false, true] 0 = 0x20000000#32 ∧ codeBitsWord [false, false, true] 1 = 0#32 := by decide
-- V-ERR-3: the second write is dropped.
theorem test_overrun : ((ready.issue 0x80#32).issue 0#32).overrun = true ∧
    ((ready.issue 0x80#32).issue 0#32).pending = some 0x80#32 := by decide
-- V-ERR-1, as a step from reset with both usable.
theorem test_step_illegal : (resultOf (step (ready.withFetchWord 32 0x180))).statusWord = 0x000C0B22#32 ∧
    (resultOf (step (ready.withFetchWord 32 0x180))).info = 0x180#64 := by decide
-- R239, R249: the word just issued is what the next step runs.
theorem test_step_runs_issued : (resultOf (step (ready.withFetchWord 32 0x00))).done = true ∧
    (resultOf (step (ready.withFetchWord 32 0x00))).pending = none := by decide
-- R304.
theorem test_run_ends : step State.reset = .fault .runEnded := by rfl
-- R118: a host program step, `wr CTRL, 1`.
theorem test_host_step : (resultOf (step (State.launch [] [] true true [.wr 0x04 4 1#32, .halt]))).irqEn = true ∧
    (resultOf (step (State.launch [] [] true true [.wr 0x04 4 1#32, .halt]))).host.pc = 1 := by decide

-- R120: CSR accesses and host actions are encoded in order, control flow is not; R120's example follows its `wait`.
theorem test_encode_program :
    encodeProgram ([.bindIn [0x41#8], .bindOut, .usable true true] ++ pseudoRun 3 0 .compress ++ [.readOut, .halt]) =
      [.bindIn [0x41#8], .bindOut, .usable true true, .w 0x08 0x00000080#32, .r 0x0C, .readOut] := by decide
theorem test_performed_records :
    performedRecords 4 { State.launch [] [] false false (pseudoRun 0 0 .compress) with turns := [.host, .core] } =
      [.w 0x08 0x00000080#32, .r 0x0C] := by rfl

/-! ## Witnesses: for each statement with hypotheses, operands that meet them, clause by clause -/

/-! ### Payload bits of the witnesses -/

theorem codes_AB : codeBits (codesOf (buildArena countsAB)) [0x41#8, 0x42#8] = [true, false] := by
  rw [arena_AB]; decide +kernel

/-- `ready` with the tree of a table built and a remaining input. -/
def decoding (f : FreqTable) (mode : DecMode) (input : List Byte) : State :=
  { ready with freq := f, arena := buildArena f, treeValid := true, lDecMode := mode, input := input }

/-- The hypotheses that the statements about UNPACK share. -/
def ReadyToDecode (mode : DecMode) (s : State) : Prop :=
  s.inUsable = true ∧ s.outUsable = true ∧ s.treeValid = true ∧ s.lDecMode = mode ∧ s.arena = buildArena s.freq ∧
    s.inPtr.toNat ≤ s.input.length ∧ s.input.length ≤ 2 ^ 64 - 1

theorem decoding_ready (f : FreqTable) (mode : DecMode) (input : List Byte) (h : input.length ≤ 2 ^ 64 - 1) :
    ReadyToDecode mode (decoding f mode input) ∧ (decoding f mode input).freq = f ∧
      (decoding f mode input).arena = buildArena f ∧
      (decoding f mode input).input.drop (decoding f mode input).inPtr.toNat = input :=
  ⟨⟨rfl, rfl, rfl, rfl, rfl, Nat.zero_le _, h⟩, rfl, rfl, rfl⟩

/-! ### Encoding, reset and the step -/

theorem witness_DecodingIsTotal :
    (0x00000100#32).extractLsb' 8 24 ≠ 0#24 ∧ (0x00000081#32).extractLsb' 8 24 = 0#24 ∧
    (0x000000FF#32).extractLsb' 8 24 = 0#24 ∧ ∀ i, encode i ≠ 0x000000FF#32 :=
  ⟨by decide, by decide, by decide, by intro i; cases i <;> decide⟩

theorem witness_LaunchMeetsInvariants :
    ([] : List Byte).length ≤ 2 ^ 64 - 1 ∧ ∃ xs : List Byte, xs.length = 2 ^ 64 - 1 :=
  ⟨Nat.zero_le _, _, List.length_replicate (n := 2 ^ 64 - 1) (a := 0#8)⟩

theorem reset_inv : State.reset.Inv where
  nodeCount := .inl rfl
  seqIsIndex i h := absurd h (Nat.not_lt_zero i)
  childrenBelow i h := absurd h (Nat.not_lt_zero i)
  busyIsPending := by decide
  ptrInRange := by decide
  inputFits := by decide
  treeIsBuilt h := absurd h (by decide)
  codesAreGenerated h := absurd h (by decide)

/-- Reset with an accepted word still to run. -/
theorem pending_inv : (State.reset.withFetchWord 32 0x20).Inv where
  nodeCount := .inl rfl
  seqIsIndex i h := absurd h (Nat.not_lt_zero i)
  childrenBelow i h := absurd h (Nat.not_lt_zero i)
  busyIsPending := by decide
  ptrInRange := by decide
  inputFits := by decide
  treeIsBuilt h := absurd h (by decide)
  codesAreGenerated h := absurd h (by decide)

theorem witness_StepKeepsInvariants :
    (State.reset.withFetchWord 32 0x20).Inv ∧ (∃ t, step (State.reset.withFetchWord 32 0x20) = .next t) ∧
    ([1#8] : List Byte).length ≤ 2 ^ 64 - 1 ∧
    ∃ t, Reaches { State.launch [1#8] [] true true [.wr 0x08 4 0x11#32] with turns := [.host] } t ∧
      t.pending = some 0x11#32 :=
  ⟨pending_inv, ⟨_, rfl⟩, by decide, _, .next .here rfl, by decide⟩

theorem witness_StepKeepsHostForm :
    State.reset.HostForm ∧ (State.reset.withFetchWord 32 0x20).HostForm ∧
    ∃ t, step (State.reset.withFetchWord 32 0x20) = .next t :=
  ⟨⟨rfl, fun h => absurd rfl h⟩, ⟨rfl, fun _ => rfl⟩, _, rfl⟩

/-- `ready` driven by a host program, with a word pending or none, and a list of turns. -/
def driven (pending : Option Word) (prog : List HostStep) (turns : List Agent) : State :=
  { ready with pending := pending, host := { HostAgent.idle with prog }, turns := turns }

theorem witness_StepRunsPendingCommand :
    (driven (some 0x01#32) [] []).pending = some 0x01#32 ∧ decode 0x01#32 = .ok .softReset ∧
    Instr.softReset.wellFormed = true ∧ (driven (some 0x01#32) [] []).hostMove = none ∧
    (driven (some 0x01#32) [.bindOut] [.core]).turn = .core := by
  decide

theorem witness_IllegalWordsComplete :
    (driven (some 0x1FF#32) [] []).pending = some 0x1FF#32 ∧ (driven (some 0x1FF#32) [] []).hostMove = none ∧
    (0x1FF#32).extractLsb' 8 24 ≠ 0#24 ∧ (0xFF#32).extractLsb' 8 24 = 0#24 ∧ ∀ i, encode i ≠ 0xFF#32 :=
  ⟨by decide, by decide, by decide, by decide, by intro i; cases i <;> decide⟩

theorem witness_HostMovesInTurn :
    (driven none [.readOut] []).hostMove = some .readOut ∧ (driven none [.readOut] []).pending = none ∧
    (driven (some 0#32) [.readOut] [.host]).hostMove = some .readOut ∧
    (driven (some 0#32) [.readOut] [.host]).turn = .host ∧
    (driven (some 0#32) [.readOut] [.host, .core]).turns = .host :: [.core] ∧
    (driven (some 0#32) [.readOut] []).turns = [] ∧ (driven (some 0#32) [.readOut] []).pending = some 0#32 := by decide

theorem witness_RunEndsWhenIdle :
    (driven none [.halt] []).host.prog[0]? = some .halt ∧ (driven none [] []).host.prog[0]? = none ∧
    (driven none [.halt] []).pending = none ∧ (driven (some 0#32) [.halt] []).pending ≠ none := by decide

theorem witness_OnlyMeaninglessMovesRefused :
    (¬ (2 = 4 ∧ 0x0C % 4 = 0 ∧ 0x0C < 256)) ∧ (¬ (4 = 4 ∧ 0x0E % 4 = 0 ∧ 0x0E < 256)) ∧
    (¬ (4 = 4 ∧ 0x100 % 4 = 0 ∧ 0x100 < 256)) ∧
    step (driven none [.wr 0x08 1 0#32] []) = .refused .csrWidth ∧
    step (driven none [.rd 0x0E 4 0] []) = .refused .csrMisaligned ∧
    step (driven none [.rd 0x100 4 0] []) = .refused .csrOutsideWindow ∧
    step (driven (some 0#32) [.bindIn []] [.host]) = .refused .streamMoveWhileBusy ∧
    step (driven (some 0#32) [.bindOut] [.host]) = .refused .streamMoveWhileBusy ∧
    step (driven (some 0#32) [.usable true false] [.host]) = .refused .streamMoveWhileBusy ∧
    (driven (some 0#32) [] []).pending ≠ none ∧ (∃ xs : List Byte, xs.length = 2 ^ 64) ∧
    (∃ xs, step (driven none [.bindIn xs] []) = .refused .inputTooLong) := by
  refine ⟨by decide, by decide, by decide, rfl, rfl, rfl, rfl, rfl, rfl, by decide,
    ⟨_, List.length_replicate (n := 2 ^ 64) (a := 0#8)⟩, ?_⟩
  obtain ⟨xs, h⟩ : ∃ xs : List Byte, xs.length = 2 ^ 64 := ⟨_, List.length_replicate (n := 2 ^ 64) (a := 0#8)⟩
  refine ⟨xs, ?_⟩
  show (if inputFits xs then Host.Outcome.next (State.bindInput _ xs).hostNext
    else Host.Outcome.refused Refusal.inputTooLong) = _
  rw [test_long_input_refused xs h]
  rfl

/-! ### Whole-machine rules -/

/-- A word is pending, and the command's body succeeds or raises. -/
theorem witness_EveryCommandCompletes :
    (ready.accept 0x11#32).pending = some 0x11#32 ∧
    (resultOf (exec .histAccum (ready.accept 0x11#32))).statusCode = .ok ∧
    (resultOf (exec .histAccum (State.reset.accept 0x11#32))).statusCode = .invalidArguments ∧
    (resultOf (exec .codeGen (ready.accept 0x30#32))).statusCode = .sequenceError := by decide

theorem witness_CausesOfEachCommand :
    ready.input.length ≤ 2 ^ 64 - 1 ∧ ∃ t, exec .unpack ready = .next t ∧ t.statusCause = .noTree :=
  ⟨by decide, _, rfl, by decide⟩

/-- A failing UNPACK and a NOP stand in none of the lists that name what they leave alone. -/
theorem witness_CommandFrame :
    (∃ t, exec .compress ready = .next t) ∧ Instr.compress ≠ .softReset ∧
    (∃ t, exec .unpack { treeAB with input := [0x80#8, 0#8] } = .next t ∧ t.statusCause = .trailing) ∧
    Instr.unpack ∉ [Instr.softReset, .histClear, .histAccum, .hdrLoad, .compress, .decompress] ∧
    Instr.unpack ∉ [Instr.softReset, .treeBuild, .compress, .decompress] ∧
    Instr.unpack ∉ [Instr.softReset, .codeGen, .compress] ∧
    Instr.unpack ∉ [Instr.softReset, .histClear, .histAccum, .hdrLoad, .treeBuild, .codeGen, .compress, .decompress] ∧
    Instr.nop ∉ [Instr.softReset, .inRewind, .histAccum, .hdrLoad, .pack, .unpack, .compress, .decompress] ∧
    Instr.nop ∉ [Instr.softReset, .hdrEmit, .pack, .unpack, .compress, .decompress] :=
  ⟨⟨_, rfl⟩, by decide, ⟨_, rfl, by decide +kernel⟩, by decide, by decide, by decide, by decide, by decide, by decide⟩

/-- The core moves; the host resets while no command is pending, and on its turn while one is. -/
theorem witness_StageBits_step :
    (∃ t, step { treeAB with pending := some 0x10#32 } = .next t ∧ t.treeValid ≠ treeAB.treeValid) ∧
    (∃ t, step { treeAB with host := { HostAgent.idle with prog := [.hardReset] } } = .next t ∧
      t.treeValid ≠ treeAB.treeValid) ∧
    ∃ t, step { treeAB with
        pending := some 0#32, host := { HostAgent.idle with prog := [.hardReset] }, turns := [.host] } = .next t ∧
      t.treeValid ≠ treeAB.treeValid :=
  ⟨⟨_, rfl, by decide⟩, ⟨_, rfl, by decide⟩, _, rfl, by decide⟩

theorem witness_StageBits_commands :
    (resultOf (exec .histAccum ready)).statusCode = .ok ∧
    (resultOf (exec .histAccum State.reset)).statusCode ≠ .ok ∧
    (resultOf (exec .compress State.reset)).statusCode ≠ .ok ∧ ready.input.length ≤ 2 ^ 64 - 1 ∧
    (resultOf (exec .decompress ready)).statusCause ∈ [Cause.inUnusable, .outUnusable, .hdrShort] := by decide

theorem witness_StageBits_compress : ∃ t, exec .compress ready = .next t ∧ t.statusCode = .ok := by
  obtain ⟨p, k, h, -⟩ := compressBody_ok (s := ready) (by decide)
  exact ⟨finishBody (compressBody ready), rfl, by rw [h]; rfl⟩

/-- DECOMPRESS of a header that overflows: a cause raised after the header is loaded (R218). -/
theorem witness_StageBits_decompress (s : State) (hi : s.inUsable = true) (ho : s.outUsable = true)
    (h : s.input = headerOf s.lHdrBe countsOvf ++ []) :
    ∃ t, exec .decompress s = .next t ∧ t.statusCause ∉ [Cause.inUnusable, .outUnusable, .hdrShort] := by
  have hov : totalOvf countsOvf = true := by rw [totalOvf, total_ovf]; rfl
  have hb := decompress_tables h
  rw [hov, if_pos rfl] at hb
  refine ⟨finishBody (decompressBody s), ?_, ?_⟩
  · simp [exec, execDecompress, complete, hi, ho]
  · have hc : (finishBody (decompressBody s)).statusCause = .weightOverflow := by rw [decompressBody, hb]; rfl
    rw [hc]; decide

theorem witness_PendingCommandIsStable :
    (∃ t, step (driven (some 0x81#32) [.rd 0x0C 4 0] [.host]) = .next t ∧ t.pending = some 0x81#32) ∧
    (∃ t, step (driven (some 0x81#32) [.rd 0x0C 4 0] [.core]) = .next t ∧ t.pending = none) ∧
    (∃ t, step (driven (some 0x81#32) [.hardReset] [.host]) = .next t ∧ t.pending = none ∧ t.done = false) :=
  ⟨⟨_, rfl, by rfl⟩, ⟨_, rfl, by rfl⟩, _, rfl, by rfl, by rfl⟩

theorem witness_HostStepsLeaveTables :
    HostStep.bindIn [1#8] ≠ .hardReset ∧ (∃ t, execHost (.bindIn [1#8]) ready = .next t) ∧
    (∀ bytes, HostStep.bindOut ≠ .bindIn bytes) ∧ (∃ t, execHost .bindOut ready = .next t) :=
  ⟨by decide, ⟨_, rfl⟩, (fun _ h => by cases h), _, rfl⟩

/-! ### Commands -/

-- R239, R249: from reset with the word issued, the first step runs each command.
theorem test_first_step (i : Instr) : ∃ t, step (State.reset.withFetchWord 32 (encode i).toNat) = .next t := by
  cases i <;> exact ⟨_, rfl⟩

/-- Both handles usable, and each alone unusable: ControlCommandsComplete, PackAndUnpackChecksInOrder, CompressCompletes,
DecompressFailures. -/
theorem witness_usable_signals :
    ready.inUsable = true ∧ ready.outUsable = true ∧ State.reset.inUsable = false ∧ State.reset.outUsable = false ∧
    ({ State.reset with inUsable := true } : State).inUsable = true ∧
    ({ State.reset with inUsable := true } : State).outUsable = false := by decide

/-- `ready` with one byte bound, read or not. -/
def oneByte (ptr : Count) : State := { ready with input := [0x61#8], inPtr := ptr, codes := codesab, codeValid := true }

theorem witness_HistAccumCounts :
    State.reset.inUsable = false ∧
    (oneByte 0#64).inUsable = true ∧ (oneByte 0#64).inPtr.toNat ≤ (oneByte 0#64).input.length ∧
    (oneByte 0#64).input.length ≤ 2 ^ 64 - 1 ∧
    (oneByte 1#64).inUsable = true ∧ (oneByte 1#64).inPtr.toNat ≤ (oneByte 1#64).input.length := by decide

theorem witness_HistogramOfAnInput :
    ready.inUsable = true ∧ ready.inPtr = 0#64 ∧ ready.input.length < 2 ^ 64 ∧ ∀ b, freqAt ready.freq b = 0#64 :=
  ⟨by decide, by decide, by decide, fun b => freqAt_freqZero b⟩

theorem witness_HdrEmitWritesHeader : ready.outUsable = true ∧ State.reset.outUsable = false ∧ 0 < 8 ∧ 7 < 8 := by decide

/-- The two sides of the boundary: 2047 bytes are a short header, 2048 are not. -/
theorem witness_HdrLoad (n : Nat) : ∃ s : State, s.inUsable = true ∧ s.input.length - s.inPtr.toNat = n := by
  obtain ⟨xs, h⟩ : ∃ xs : List Byte, xs.length = n := ⟨List.replicate n 0#8, List.length_replicate⟩
  exact ⟨{ ready with input := xs }, rfl, h⟩

theorem witness_HdrLoad_boundary : 2047 < 2048 ∧ 2048 ≤ 2048 := by decide

theorem witness_HeaderLoadsBack :
    ∃ (s u t : State) (rest : List Byte), u.outUsable = true ∧ u.output = [] ∧ exec .hdrEmit u = .next t ∧
      s.inUsable = true ∧ s.lHdrBe = u.lHdrBe ∧ s.input.drop s.inPtr.toNat = t.output ++ rest :=
  ⟨{ ready with input := (resultOf (exec .hdrEmit treeAB)).output ++ [0x80#8] }, treeAB,
    resultOf (exec .hdrEmit treeAB), [0x80#8], rfl, rfl, rfl, rfl, rfl, rfl⟩

theorem witness_TreeBuildCompletes :
    2 ^ 64 ≤ totalCount countsOvf ∧ totalCount countsMax < 2 ^ 64 ∧ totalCount freqZero < 2 ^ 64 := by
  rw [total_ovf, total_max, total_zero]; decide

theorem witness_LeavesInSymbolOrder :
    freqAt countsAB 0x42#8 ≠ 0#64 ∧ freqAt countsAB 0x43#8 = 0#64 ∧ 0 < 1 ∧
    (symbolsOf countsAB)[0]? = some 0x41#8 ∧ (symbolsOf countsAB)[1]? = some 0x42#8 := by
  rw [symbolsOf_AB]; decide +kernel

theorem witness_ArenaShape :
    (symbolsOf freqZero).length = 0 ∧ 1 ≤ (symbolsOf countsA3).length ∧ 1 ≤ (symbolsOf countsAB).length ∧
    2 < (buildArena countsAB).length := by
  rw [symbolsOf_zero, symbolsOf_A3, symbolsOf_AB, arena_AB]; decide

theorem witness_MergesTakeLeastKeys :
    totalCount countsAB < 2 ^ 64 ∧ (symbolsOf countsAB).length ≤ 2 ∧ 2 < (buildArena countsAB).length := by
  rw [total_AB, symbolsOf_AB, arena_AB]; decide

theorem witness_TreeProperties :
    totalCount countsAB < 2 ^ 64 ∧ 2 ≤ (symbolsOf countsAB).length ∧ 2 < (buildArena countsAB).length ∧
    (nodeAt (buildArena countsAB) 2).isInternal = true ∧ 0 < (symbolsOf countsAB).length ∧
    (symbolsOf countsAB).length ≤ 2 ∧
    PathTo (buildArena countsAB) (rootIdx (buildArena countsAB)) [true] 0 := by
  rw [total_AB, symbolsOf_AB, arena_AB]
  refine ⟨by decide, by decide, by decide, by decide, by decide, by decide, .step (by decide) (.here 0)⟩

theorem witness_CodeGenCompletes :
    treeAB.treeValid = true ∧ (ready.accept 0x30#32).treeValid = false ∧
    (ready.accept 0x30#32).pending = some 0x30#32 := by decide

theorem witness_CodesArePaths : 2 ≤ (symbolsOf countsAB).length ∧ freqAt countsAB 0x41#8 ≠ 0#64 := by
  rw [symbolsOf_AB]; decide +kernel

theorem witness_DegenerateCodes :
    (symbolsOf freqZero).length = 0 ∧ symbolsOf countsA3 = [0x41#8] ∧ (0x42#8 : Byte) ≠ 0x41#8 := by
  rw [symbolsOf_zero, symbolsOf_A3]; decide

theorem witness_CodeTableProperties :
    (symbolsOf countsA3).length = 1 ∧ 0x41#8 ∈ symbolsOf countsA3 ∧ 2 ≤ (symbolsOf countsAB).length ∧
    0x41#8 ∈ symbolsOf countsAB ∧ 0x42#8 ∈ symbolsOf countsAB ∧ (0x41#8 : Byte) ≠ 0x42#8 := by
  rw [symbolsOf_A3, symbolsOf_AB]; decide

theorem witness_PackAndUnpackChecksInOrder :
    (ready.accept 0x40#32).pending = some 0x40#32 ∧ (ready.accept 0x40#32).inUsable = true ∧
    (ready.accept 0x40#32).outUsable = true ∧ (ready.accept 0x40#32).codeValid = false ∧
    (ready.accept 0x40#32).treeValid = false ∧ (State.reset.accept 0x40#32).inUsable = false := by decide

/-- With a byte to pack, and with none. -/
theorem witness_PackWritesPayload (ptr : Count) (h : ptr = 0#64 ∨ ptr = 1#64) :
    (oneByte ptr).inUsable = true ∧ (oneByte ptr).outUsable = true ∧ (oneByte ptr).codeValid = true ∧
    (oneByte ptr).inPtr.toNat ≤ (oneByte ptr).input.length ∧ (oneByte ptr).input.length ≤ 2 ^ 64 - 1 ∧
    (∀ b ∈ (oneByte ptr).input.drop (oneByte ptr).inPtr.toNat, codeAt (oneByte ptr).codes b ≠ []) := by
  rcases h with rfl | rfl <;> decide +kernel

theorem witness_PackStopsAtUncodedByte :
    ∃ s : State, s.inUsable = true ∧ s.outUsable = true ∧ s.codeValid = true ∧
      s.input.drop s.inPtr.toNat = [0x61#8] ++ 0x63#8 :: [] ∧ (∀ x ∈ [0x61#8], codeAt s.codes x ≠ []) ∧
      codeAt s.codes 0x63#8 = [] :=
  ⟨{ ready with codes := codesab, codeValid := true, input := [0x61#8, 0x63#8] }, rfl, rfl, rfl, rfl,
    by decide +kernel, by decide +kernel⟩

theorem payload_AB : PayloadOf [0x80#8] (codeBits (codesOf (buildArena countsAB)) [0x41#8, 0x42#8]) := by
  rw [codes_AB]; exact ⟨List.replicate 6 false, by decide, by decide⟩

theorem witness_ExactDecodesPayload :
    ∃ (s : State) (xs : List Byte), ReadyToDecode .exact s ∧ xs.length = totalCount s.freq ∧
      (∀ b ∈ xs, freqAt s.freq b ≠ 0#64) ∧
      PayloadOf (s.input.drop s.inPtr.toNat) (codeBits (codesOf s.arena) xs) := by
  have h := decoding_ready countsAB .exact [0x80#8] (by decide)
  refine ⟨_, [0x41#8, 0x42#8], h.1, ?_⟩
  rw [h.2.1, h.2.2.1, h.2.2.2, total_AB]
  exact ⟨rfl, by decide +kernel, payload_AB⟩

/-- A payload that ends inside the code of B (`56` = A A A C and the `0` of B's `00`). -/
theorem witness_ExactReportsTruncation :
    ∃ (s : State) (ys : List Byte) (part rest : Bits) (b : Byte), ReadyToDecode .exact s ∧
      ys.length < totalCount s.freq ∧ (∀ y ∈ ys, freqAt s.freq y ≠ 0#64) ∧ freqAt s.freq b ≠ 0#64 ∧
      codeAt (codesOf s.arena) b = part ++ rest ∧ rest ≠ [] ∧
      payloadBits (s.input.drop s.inPtr.toNat) = codeBits (codesOf s.arena) ys ++ part := by
  have h := decoding_ready counts224 .exact [0x56#8] (by decide)
  refine ⟨_, [0x41#8, 0x41#8, 0x41#8, 0x43#8], [false], [false], 0x42#8, h.1, ?_⟩
  rw [h.2.1, h.2.2.1, h.2.2.2, total_224, buildArena, leavesOf_eq, symbolsOf_224]
  decide +kernel

/-- A payload of no byte at all. -/
theorem witness_ExactReportsTruncation_empty :
    ∃ s : State, ReadyToDecode .exact s ∧ 0 < totalCount s.freq ∧ freqAt s.freq 0x41#8 ≠ 0#64 ∧
      codeAt (codesOf s.arena) 0x41#8 = [] ++ [true] ∧
      payloadBits (s.input.drop s.inPtr.toNat) = codeBits (codesOf s.arena) [] ++ [] := by
  have h := decoding_ready countsAB .exact [] (by decide)
  refine ⟨_, h.1, ?_⟩
  rw [h.2.1, h.2.2.1, h.2.2.2, total_AB, arena_AB]
  decide +kernel

theorem witness_ExactReportsTrailing :
    ∃ (s : State) (xs p q : List Byte), ReadyToDecode .exact s ∧ xs.length = totalCount s.freq ∧
      (∀ b ∈ xs, freqAt s.freq b ≠ 0#64) ∧ xs ≠ [] ∧ q ≠ [] ∧ s.input.drop s.inPtr.toNat = p ++ q ∧
      PayloadOf p (codeBits (codesOf s.arena) xs) := by
  have h := decoding_ready countsAB .exact [0x80#8, 0#8] (by decide)
  refine ⟨_, [0x41#8, 0x42#8], [0x80#8], [0#8], h.1, ?_⟩
  rw [h.2.1, h.2.2.1, h.2.2.2, total_AB]
  exact ⟨rfl, by decide +kernel, by decide, by decide, rfl, payload_AB⟩

/-- No symbol, with no payload and with one byte. -/
theorem witness_DegenerateDecoding_none (input : List Byte) (hi : input = [] ∨ input = [0x55#8]) :
    ∃ s : State, ReadyToDecode .exact s ∧ symbolsOf s.freq = [] ∧ s.input.drop s.inPtr.toNat = input := by
  have h := decoding_ready freqZero .exact input (by rcases hi with rfl | rfl <;> decide)
  refine ⟨_, h.1, ?_⟩
  rw [h.2.1, h.2.2.2]
  exact ⟨symbolsOf_zero, rfl⟩

/-- One symbol, three times (bits left over) and eight times (none), with one byte, in each mode. -/
theorem witness_DegenerateDecoding_one (mode : DecMode) :
    (∃ s : State, ReadyToDecode mode s ∧ symbolsOf s.freq = [0x41#8] ∧
      8 * (s.input.drop s.inPtr.toNat).length < totalCount s.freq + 8 ∧
      totalCount s.freq < 8 * (s.input.drop s.inPtr.toNat).length) ∧
    (∃ s : State, ReadyToDecode mode s ∧ symbolsOf s.freq = [0x41#8] ∧
      totalCount s.freq = 8 * (s.input.drop s.inPtr.toNat).length) := by
  have h := decoding_ready countsA3 mode [0xFF#8] (by decide)
  have k := decoding_ready countsA8 mode [0xFF#8] (by decide)
  refine ⟨⟨_, h.1, ?_⟩, ⟨_, k.1, ?_⟩⟩
  · rw [h.2.1, h.2.2.2, total_A3]; exact ⟨symbolsOf_A3, by decide, by decide⟩
  · rw [k.2.1, k.2.2.2, total_A8]; exact ⟨symbolsOf_A8, by decide⟩

/-- One symbol and fewer bits than its count: no byte at all (V-DEC-11), and one byte (V-DEC-12's shape); whole bytes left:
the least number of them for a count of eight. -/
theorem witness_DegenerateDecoding_lengths (mode : DecMode) :
    (∃ s : State, ReadyToDecode .exact s ∧ symbolsOf s.freq = [0x41#8] ∧ s.lDecMode = .exact ∧
      8 * (s.input.drop s.inPtr.toNat).length < totalCount s.freq) ∧
    (∃ s : State, ReadyToDecode mode s ∧ symbolsOf s.freq = [0#8] ∧ s.input.drop s.inPtr.toNat ≠ [] ∧
      8 * (s.input.drop s.inPtr.toNat).length < totalCount s.freq) ∧
    (∃ s : State, ReadyToDecode mode s ∧ symbolsOf s.freq = [0x41#8] ∧
      totalCount s.freq + 8 ≤ 8 * (s.input.drop s.inPtr.toNat).length) := by
  have h := decoding_ready countsA3 .exact [] (by decide)
  have k := decoding_ready countsMax mode [0xFF#8] (by decide)
  have l := decoding_ready countsA8 mode [0#8, 0#8] (by decide)
  refine ⟨⟨_, h.1, ?_⟩, ⟨_, k.1, ?_⟩, ⟨_, l.1, ?_⟩⟩
  · rw [h.2.1, h.2.2.2, total_A3]; exact ⟨symbolsOf_A3, rfl, by decide⟩
  · rw [k.2.1, k.2.2.2, total_max]; exact ⟨symbolsOf_max, by decide, by decide⟩
  · rw [l.2.1, l.2.2.2, total_A8]; exact ⟨symbolsOf_A8, by decide⟩

theorem countsOf_zero : CountsOf freqZero [] := fun b => by rw [freqAt_freqZero]; rfl
theorem countsOf_A3 : CountsOf countsA3 (List.replicate 3 0x41#8) := countsOf_one _ 3 (by decide)
theorem countsOf_A8 : CountsOf countsA8 (List.replicate 8 0x41#8) := countsOf_one _ 8 (by decide)
theorem countsOf_AB : CountsOf countsAB [0x41#8, 0x42#8] := countsOf_two _ _ [0x41#8, 0x42#8] (by decide) (by decide)
theorem countsOf_44 : CountsOf counts44 [0x41#8, 0x42#8, 0x41#8, 0x42#8, 0x41#8, 0x42#8, 0x41#8, 0x42#8] :=
  countsOf_two 0x41#8 0x42#8 [0x41#8, 0x42#8, 0x41#8, 0x42#8, 0x41#8, 0x42#8, 0x41#8, 0x42#8] (by decide) (by decide)
theorem countsOf_43 : CountsOf counts43 [0x41#8, 0x41#8, 0x41#8, 0x41#8, 0x42#8, 0x42#8, 0x42#8] :=
  countsOf_two 0x41#8 0x42#8 [0x41#8, 0x41#8, 0x41#8, 0x41#8, 0x42#8, 0x42#8, 0x42#8] (by decide) (by decide)

theorem codes_A3 : codeBits (codesOf (buildArena countsA3)) (List.replicate 3 0x41#8) = [false, false, false] := by
  rw [buildArena, leavesOf_eq, symbolsOf_A3]; decide +kernel
theorem codes_A8 : codeBits (codesOf (buildArena countsA8)) (List.replicate 8 0x41#8) = List.replicate 8 false := by
  rw [buildArena, leavesOf_eq, symbolsOf_A8]; decide +kernel
theorem codes_44 : codeBits (codesOf (buildArena counts44))
    [0x41#8, 0x42#8, 0x41#8, 0x42#8, 0x41#8, 0x42#8, 0x41#8, 0x42#8] =
      [true, false, true, false, true, false, true, false] := by
  rw [buildArena, leavesOf_eq, symbolsOf_44]; decide +kernel
theorem codes_43 : codeBits (codesOf (buildArena counts43))
    [0x41#8, 0x41#8, 0x41#8, 0x41#8, 0x42#8, 0x42#8, 0x42#8] =
      [false, false, false, false, true, true, true] := by
  rw [buildArena, leavesOf_eq, symbolsOf_43]; decide +kernel

/-- The hypotheses of LegacyByteOutcomes and LegacyBitOutcomes on a payload of all the symbols counted. -/
def WellFormedPayload (mode : DecMode) (s : State) (xs : List Byte) : Prop :=
  ReadyToDecode mode s ∧ xs.length = totalCount s.freq ∧ (∀ b ∈ xs, freqAt s.freq b ≠ 0#64) ∧
    PayloadOf (s.input.drop s.inPtr.toNat) (codeBits (codesOf s.arena) xs)

theorem decoding_payload {f : FreqTable} (mode : DecMode) {input xs : List Byte} (hl : input.length ≤ 2 ^ 64 - 1)
    (hc : CountsOf f xs) (hp : PayloadOf input (codeBits (codesOf (buildArena f)) xs)) :
    WellFormedPayload mode (decoding f mode input) xs := by
  have h := decoding_ready f mode input hl
  rw [WellFormedPayload, h.2.1, h.2.2.1, h.2.2.2]
  exact ⟨h.1, hc.total.symm, fun b hb => (hc.mem b).2 hb, hp⟩

/-- At most one symbol; several symbols with L mod 8 = 2, and with L mod 8 = 0 (V-DEC-4). -/
theorem witness_LegacyByteOutcomes (mode : DecMode) :
    (WellFormedPayload mode (decoding countsA3 mode [0#8]) (List.replicate 3 0x41#8) ∧
      (symbolsOf countsA3).length ≤ 1) ∧
    (WellFormedPayload mode (decoding countsAB mode [0x80#8]) [0x41#8, 0x42#8] ∧
      2 ≤ (symbolsOf countsAB).length ∧
      (codeBits (codesOf (buildArena countsAB)) [0x41#8, 0x42#8]).length % 8 = 2) ∧
    (WellFormedPayload mode (decoding counts44 mode [0xAA#8])
        [0x41#8, 0x42#8, 0x41#8, 0x42#8, 0x41#8, 0x42#8, 0x41#8, 0x42#8] ∧
      2 ≤ (symbolsOf counts44).length ∧ (codeBits (codesOf (buildArena counts44))
        [0x41#8, 0x42#8, 0x41#8, 0x42#8, 0x41#8, 0x42#8, 0x41#8, 0x42#8]).length % 8 = 0) := by
  refine ⟨⟨decoding_payload mode (by decide) countsOf_A3 ?_, ?_⟩,
    ⟨decoding_payload mode (by decide) countsOf_AB payload_AB, ?_, ?_⟩,
    ⟨decoding_payload mode (by decide) countsOf_44 ?_, ?_, ?_⟩⟩
  · rw [codes_A3]; exact ⟨List.replicate 5 false, by decide, by decide⟩
  · rw [symbolsOf_A3]; decide
  · rw [symbolsOf_AB]; decide
  · rw [codes_AB]; decide
  · rw [codes_44]; exact ⟨[], by decide, by decide⟩
  · rw [symbolsOf_44]; decide
  · rw [codes_44]; decide

/-- Beside those: no symbol, one symbol eight times, and several symbols with L = 7. -/
theorem witness_LegacyBitOutcomes (mode : DecMode) :
    WellFormedPayload mode (decoding freqZero mode []) [] ∧
    (WellFormedPayload mode (decoding countsA8 mode [0#8]) (List.replicate 8 0x41#8) ∧
      (symbolsOf countsA8).length = 1) ∧
    (WellFormedPayload mode (decoding counts43 mode [0x0E#8])
        [0x41#8, 0x41#8, 0x41#8, 0x41#8, 0x42#8, 0x42#8, 0x42#8] ∧
      2 ≤ (symbolsOf counts43).length ∧ (codeBits (codesOf (buildArena counts43))
        [0x41#8, 0x41#8, 0x41#8, 0x41#8, 0x42#8, 0x42#8, 0x42#8]).length % 8 = 7) := by
  refine ⟨decoding_payload mode (by decide) countsOf_zero ⟨[], by decide, rfl⟩,
    ⟨decoding_payload mode (by decide) countsOf_A8 ?_, ?_⟩,
    ⟨decoding_payload mode (by decide) countsOf_43 ?_, ?_, ?_⟩⟩
  · rw [codes_A8]; exact ⟨[], by decide, by decide⟩
  · rw [symbolsOf_A8]; decide
  · rw [codes_43]; exact ⟨[false], by decide, by decide⟩
  · rw [symbolsOf_43]; decide
  · rw [codes_43]; decide

/-- An empty payload with symbols declared (V-DEC-7, V-DEC-11). -/
theorem witness_Legacy_empty (mode : DecMode) :
    ∃ s : State, ReadyToDecode mode s ∧ symbolsOf s.freq = [0x41#8, 0x42#8] ∧ s.input.drop s.inPtr.toNat = [] := by
  have h := decoding_ready countsAB mode [] (by decide)
  refine ⟨_, h.1, ?_⟩
  rw [h.2.1, h.2.2.2]
  exact ⟨symbolsOf_AB, rfl⟩

/-- A payload cut short inside a code (`56` = A A A C and the `0` of B's `00`), and after one (`55` = A A A A). -/
theorem witness_Legacy_cut (mode : DecMode) :
    (∃ (s : State) (rest : Bits), ReadyToDecode mode s ∧ 2 ≤ (symbolsOf s.freq).length ∧
      s.input.drop s.inPtr.toNat ≠ [] ∧ [0x41#8, 0x41#8, 0x41#8, 0x43#8].length < totalCount s.freq ∧
      (∀ y ∈ [0x41#8, 0x41#8, 0x41#8, 0x43#8], freqAt s.freq y ≠ 0#64) ∧ freqAt s.freq 0x42#8 ≠ 0#64 ∧
      codeAt (codesOf s.arena) 0x42#8 = [false] ++ rest ∧ rest ≠ [] ∧
      payloadBits (s.input.drop s.inPtr.toNat) =
        codeBits (codesOf s.arena) [0x41#8, 0x41#8, 0x41#8, 0x43#8] ++ [false]) ∧
    (∃ (s : State) (rest : Bits), ReadyToDecode mode s ∧ 2 ≤ (symbolsOf s.freq).length ∧
      s.input.drop s.inPtr.toNat ≠ [] ∧ [0x41#8, 0x41#8, 0x41#8, 0x41#8].length < totalCount s.freq ∧
      (∀ y ∈ [0x41#8, 0x41#8, 0x41#8, 0x41#8], freqAt s.freq y ≠ 0#64) ∧ freqAt s.freq 0x42#8 ≠ 0#64 ∧
      codeAt (codesOf s.arena) 0x42#8 = [] ++ rest ∧ rest ≠ [] ∧
      payloadBits (s.input.drop s.inPtr.toNat) =
        codeBits (codesOf s.arena) [0x41#8, 0x41#8, 0x41#8, 0x41#8] ++ []) := by
  have h := decoding_ready counts224 mode [0x56#8] (by decide)
  have k := decoding_ready counts224 mode [0x55#8] (by decide)
  refine ⟨⟨_, [false], h.1, ?_⟩, ⟨_, [false, false], k.1, ?_⟩⟩
  · rw [h.2.1, h.2.2.1, h.2.2.2, total_224, buildArena, leavesOf_eq, symbolsOf_224]
    decide +kernel
  · rw [k.2.1, k.2.2.1, k.2.2.2, total_224, buildArena, leavesOf_eq, symbolsOf_224]
    decide +kernel

/-- The hypotheses of LegacyByteOutcomes and LegacyBitOutcomes on a payload `p` and the whole bytes `q` after it. -/
def WithTail (mode : DecMode) (s : State) (xs p q : List Byte) : Prop :=
  ReadyToDecode mode s ∧ 2 ≤ (symbolsOf s.freq).length ∧ xs.length = totalCount s.freq ∧
    (∀ b ∈ xs, freqAt s.freq b ≠ 0#64) ∧ q ≠ [] ∧ s.input.drop s.inPtr.toNat = p ++ q ∧
    PayloadOf p (codeBits (codesOf s.arena) xs)

theorem decoding_tail {f : FreqTable} (mode : DecMode) {xs p q : List Byte} (hl : (p ++ q).length ≤ 2 ^ 64 - 1)
    (hn : 2 ≤ (symbolsOf f).length) (hc : CountsOf f xs) (hq : q ≠ [])
    (hp : PayloadOf p (codeBits (codesOf (buildArena f)) xs)) : WithTail mode (decoding f mode (p ++ q)) xs p q := by
  have h := decoding_ready f mode (p ++ q) hl
  rw [WithTail, h.2.1, h.2.2.1, h.2.2.2]
  exact ⟨h.1, hn, hc.total.symm, fun b hb => (hc.mem b).2 hb, hq, rfl, hp⟩

/-- L mod 8 = 2 with one byte after (V-DEC-9's shape), and L mod 8 = 0 with one and with two. -/
theorem witness_Legacy_tail (mode : DecMode) :
    (WithTail mode (decoding countsAB mode ([0x80#8] ++ [0#8])) [0x41#8, 0x42#8] [0x80#8] [0#8] ∧
      (codeBits (codesOf (buildArena countsAB)) [0x41#8, 0x42#8]).length % 8 = 2) ∧
    (∀ q, q = [0#8] ∨ q = [0#8, 0#8] →
      WithTail mode (decoding counts44 mode ([0xAA#8] ++ q))
        [0x41#8, 0x42#8, 0x41#8, 0x42#8, 0x41#8, 0x42#8, 0x41#8, 0x42#8] [0xAA#8] q) ∧
    (codeBits (codesOf (buildArena counts44))
      [0x41#8, 0x42#8, 0x41#8, 0x42#8, 0x41#8, 0x42#8, 0x41#8, 0x42#8]).length % 8 = 0 := by
  refine ⟨⟨decoding_tail mode (by decide) ?_ countsOf_AB (by decide) payload_AB, ?_⟩,
    fun q hq => decoding_tail mode ?_ ?_ countsOf_44 ?_ ?_, ?_⟩
  · rw [symbolsOf_AB]; decide
  · rw [codes_AB]; decide
  · rcases hq with rfl | rfl <;> decide
  · rw [symbolsOf_44]; decide
  · rcases hq with rfl | rfl <;> decide
  · rw [codes_44]; exact ⟨[], by decide, by decide⟩
  · rw [codes_44]; decide

theorem witness_DegenerateCompression :
    ready.input = [] ∧ 1 ≤ 2 ^ 64 - 1 ∧ ({ ready with input := [0x41#8] } : State).input = List.replicate 1 0x41#8 := by
  decide

theorem witness_DecompressFailures :
    ∃ s : State, s.inUsable = true ∧ s.outUsable = true ∧ s.input = headerOf s.lHdrBe countsOvf ++ [] ∧
      2 ^ 64 ≤ totalCount countsOvf ∧ (List.replicate 2047 0#8).length < 2048 := by
  refine ⟨{ ready with input := headerOf false countsOvf ++ [] }, rfl, rfl, rfl, by rw [total_ovf], ?_⟩
  rw [List.length_replicate]; decide

theorem witness_DecompressDecodes :
    ∃ s : State, s.inUsable = true ∧ s.outUsable = true ∧ s.lDecMode = .exact ∧
      s.input = headerOf s.lHdrBe countsAB ++ [0x80#8] ∧ totalCount countsAB < 2 ^ 64 ∧
      [0x41#8, 0x42#8].length = totalCount countsAB ∧ (∀ b ∈ [0x41#8, 0x42#8], freqAt countsAB b ≠ 0#64) ∧
      PayloadOf [0x80#8] (codeBits (codesOf (buildArena countsAB)) [0x41#8, 0x42#8]) :=
  ⟨{ ready with input := headerOf false countsAB ++ [0x80#8] }, rfl, rfl, rfl, rfl, by rw [total_AB]; decide,
    by rw [total_AB]; rfl, by decide +kernel, payload_AB⟩

/-- A header and no payload, in the legacy modes (V-DEC-7). -/
theorem witness_DecompressDecodes_legacy (mode : DecMode) (h : mode = .legacyByte ∨ mode = .legacyBit) :
    ∃ s : State, s.inUsable = true ∧ s.outUsable = true ∧ s.lDecMode = mode ∧ s.lDecMode ≠ .exact ∧
      s.input = headerOf s.lHdrBe countsAB ++ [] ∧ totalCount countsAB < 2 ^ 64 :=
  ⟨{ ready with input := headerOf false countsAB ++ [], lDecMode := mode }, rfl, rfl, rfl,
    (by rcases h with rfl | rfl <;> decide), rfl, by rw [total_AB]; decide⟩

/-- CompressDecompressRoundTrip: the first machine's output is the second's input. DamagedFilesAreRejected: that output
with its last byte removed, and with a byte appended. -/
theorem witness_RoundTrip :
    ∃ s t : State, s.inUsable = true ∧ s.outUsable = true ∧ s.input.length ≤ 2 ^ 64 - 1 ∧ s.output = [] ∧
      s.input ≠ [] ∧ exec .compress s = .next t ∧
      ∀ file, file = t.output ∨ file = t.output.dropLast ∨ file = t.output ++ [0#8] →
        ∃ u : State, u.inUsable = true ∧ u.outUsable = true ∧ u.input = file ∧ u.output = [] ∧
          u.lHdrBe = s.lHdrBe ∧ u.lDecMode = .exact := by
  obtain ⟨t, ht⟩ : ∃ t, exec .compress { ready with input := [0x41#8, 0x42#8] } = .next t := ⟨_, rfl⟩
  exact ⟨_, t, rfl, rfl, by decide, rfl, by decide, ht,
    fun file _ => ⟨{ ready with input := file }, rfl, rfl, rfl, rfl, rfl, rfl⟩⟩

/-! ### Host access -/

/-- BUSY = 0 and BUSY = 1: the register reads, the issue, the stream actions. -/
theorem witness_pending : ready.pending = none ∧ (ready.accept 0#32).pending ≠ none ∧ [1#8].length ≤ 2 ^ 64 - 1 := by
  decide

theorem witness_SummaryRegisterReads :
    treeAB.arena.length ≤ 511 ∧ (List.replicate 511 (Node.leaf 0#8 0#64 0#9)).length ≤ 511 := by
  rw [List.length_replicate]; decide

/-- A leaf, an internal node, the first index beyond NODES, and the largest index. -/
theorem witness_NodeWindowReads :
    treeAB.arena[({ treeAB with nodeIdx := 1#9 } : State).nodeIdx.toNat]? = some (.leaf 0x42#8 1#64 1#9) ∧
    treeAB.arena[({ treeAB with nodeIdx := 2#9 } : State).nodeIdx.toNat]? = some (.internal 2#64 2#9 0#9 1#9) ∧
    treeAB.arena.length ≤ ({ treeAB with nodeIdx := 3#9 } : State).nodeIdx.toNat ∧
    treeAB.arena.length ≤ ({ treeAB with nodeIdx := 511#9 } : State).nodeIdx.toNat := by decide

/-- The first and the last unmapped offset of 0x80..0xFC: IdleRegisterReads and BusyReads. -/
theorem witness_IdleRegisterReads :
    (0x80 ≤ 0x80 ∧ 0x80 < 0x100 ∧ 0x80 % 4 = 0) ∧ (0x80 ≤ 0xFC ∧ 0xFC < 0x100 ∧ 0xFC % 4 = 0) := by decide

theorem witness_RegisterWrites :
    (0x00 % 4 = 0 ∧ 0x00 < 0x100 ∧ 0x00 ∉ [0x04, 0x08, 0x0C, 0x40, 0x50, 0x70, 0x78]) ∧
    (0xFC % 4 = 0 ∧ 0xFC < 0x100 ∧ 0xFC ∉ [0x04, 0x08, 0x0C, 0x40, 0x50, 0x70, 0x78]) := by decide

theorem witness_InterruptOutput :
    (∃ t, exec .nop ready = .next t) ∧
    (∃ t, execHost (.wr 0x0C 4 0x2#32) ready = .next t) ∧ (0x2#32).getLsbD 1 = true ∧
    (ready.pending = none ∧ ∃ t, execHost (.wr 0x08 4 0#32) ready = .next t) ∧
    (∃ t, execHost (.wr 0x04 4 0#32) ready = .next t) ∧ (0#32).getLsbD 0 = false :=
  ⟨⟨_, rfl⟩, ⟨_, rfl⟩, by decide, ⟨rfl, _, rfl⟩, ⟨_, rfl⟩, by decide⟩

end Sys2Proof.Tests
end

section
/-! SUPPORT. The registers as the host reads them and the stage-valid bits: the statements on block state and CSR reads
(spec/10_state.md R32 to R66, R37). -/

namespace Sys2Proof.Machine

/-! ## The register map -/

/-- A mapped offset is aligned, below 0x80, and neither of the two gaps (R32, R57). -/
theorem csrAt_mapped {off : Nat} {r : Csr} (h : csrAt off = some r) :
    off % 4 = 0 ∧ off < 0x80 ∧ off ≠ 0x4C ∧ off ≠ 0x6C := by
  unfold csrAt at h
  split at h <;> first | decide | cases h

/-- 0x4C, 0x6C and everything from 0x80 on are unmapped (R57). -/
theorem csrAt_unmapped {off : Nat} (h : off = 0x4C ∨ off = 0x6C ∨ 0x80 ≤ off) : csrAt off = none := by
  rw [Option.eq_none_iff_forall_ne_some]
  intro r hr
  have hmapped := csrAt_mapped hr
  omega

/-- A register reads as `csrValue` says while BUSY = 0, its offset being aligned and in the window. -/
theorem readsAs_register {s : State} {off t : Nat} {r : Csr} (h : s.pending = none) (hr : csrAt off = some r) :
    ReadsAs s off t (s.csrValue r) := by
  have hmapped := csrAt_mapped hr
  exact readsAs_idle h (by omega) (by omega) hr

/-- A register that R65 leaves defined reads as `csrValue` says, idle or busy. -/
theorem readsAs_always {s : State} {off t : Nat} {r : Csr} (hr : csrAt off = some r) (hm : r.freeMask = 0#32) :
    ReadsAs s off t (s.csrValue r) := by
  have hmapped := csrAt_mapped hr
  exact readsAs_defined (by omega) (by omega) hr hm

/-- The unmapped offsets of the window read 0, idle or busy (R57). -/
theorem readsAs_unmappedOffset {s : State} {off t : Nat}
    (h : off = 0x4C ∨ off = 0x6C ∨ (0x80 ≤ off ∧ off < 0x100 ∧ off % 4 = 0)) : ReadsAs s off t 0#32 :=
  readsAs_unmapped (by omega) (by omega) (csrAt_unmapped (by omega))

/-! ## Fields of a register word -/

/-- Two words that agree on the bits of a field have the same field. -/
theorem extractLsb'_congr {v w : Word} {start len : Nat}
    (h : ∀ j, j < len → v.getLsbD (start + j) = w.getLsbD (start + j)) :
    v.extractLsb' start len = w.extractLsb' start len := by
  apply BitVec.eq_of_getLsbD_eq
  intro j hj
  rw [BitVec.getLsbD_extractLsb', BitVec.getLsbD_extractLsb', h j hj]

/-- A flag is 0 in every field that its bit is not in (R36). -/
theorem flagAt_extractLsb'_outside {pos start len : Nat} (b : Bool) (hw : start + len ≤ 32)
    (h : pos < start ∨ start + len ≤ pos) : (flagAt pos b).extractLsb' start len = 0#len := by
  apply BitVec.eq_of_getLsbD_eq
  intro j hj
  have hne : ¬ start + j = pos := by omega
  rw [BitVec.getLsbD_extractLsb', flagAt_getLsbD _ _ (by omega)]
  simp [hne]

/-- A field put at its place is 0 in every other field (R36). -/
theorem fieldAt_extractLsb'_outside {n pos start len : Nat} (v : BitVec n) (hw : start + len ≤ 32)
    (h : pos + n ≤ start ∨ start + len ≤ pos) : (v.setWidth 32 <<< pos).extractLsb' start len = 0#len := by
  apply BitVec.eq_of_getLsbD_eq
  intro j hj
  rw [BitVec.getLsbD_extractLsb', fieldAt_getLsbD _ _ (by omega)]
  rcases h with h | h
  · simp [BitVec.getLsbD_of_ge v (start + j - pos) (by omega)]
  · simp [show ¬ pos ≤ start + j by omega]

/-- A field reads back at its place (R36). -/
theorem fieldAt_extractLsb'_same {n pos : Nat} (v : BitVec n) (hw : pos + n ≤ 32) :
    (v.setWidth 32 <<< pos).extractLsb' pos n = v := by
  apply BitVec.eq_of_getLsbD_eq
  intro j hj
  rw [BitVec.getLsbD_extractLsb', fieldAt_getLsbD _ _ (by omega)]
  simp [hj]

/-- The number in a word of two 16-bit halves. -/
theorem toNat_halves {lo hi : Nat} (hlo : lo < 2 ^ 16) (hhi : hi < 2 ^ 16) :
    (BitVec.ofNat 32 lo ||| (BitVec.ofNat 32 hi <<< 16)).toNat = 2 ^ 16 * hi + lo := by
  have hshift : (BitVec.ofNat 32 hi <<< 16).toNat = 2 ^ 16 * hi := by
    rw [BitVec.toNat_shiftLeft, BitVec.toNat_ofNat, Nat.shiftLeft_eq]
    omega
  rw [BitVec.toNat_or, hshift, BitVec.toNat_ofNat, Nat.mod_eq_of_lt (by omega), Nat.lor_comm,
    Nat.two_pow_add_eq_or_of_lt hlo]

/-- A field of a word, by the number the word holds. -/
theorem extractLsb'_toNat_of_toNat {v : Word} {n start len k : Nat} (hv : v.toNat = n)
    (hk : n / 2 ^ start % 2 ^ len = k) : (v.extractLsb' start len).toNat = k := by
  rw [BitVec.extractLsb'_toNat, hv, Nat.shiftRight_eq_div_pow, hk]

/-- A field of a word that is 0, by the number the word holds. -/
theorem extractLsb'_eq_zero_of_toNat {v : Word} {n start len : Nat} (hv : v.toNat = n)
    (hk : n / 2 ^ start % 2 ^ len = 0) : v.extractLsb' start len = 0#len := by
  apply BitVec.eq_of_toNat_eq
  rw [extractLsb'_toNat_of_toNat hv hk, BitVec.toNat_zero]

/-! ## STATUS and CTRL -/

/-- STATUS bit by bit (R36). -/
theorem statusWord_getLsbD (s : State) {i : Nat} (hi : i < 32) :
    s.statusWord.getLsbD i =
      (decide (i = 0) && s.busy || decide (i = 1) && s.done || decide (i = 2) && s.overrun
        || decide (4 ≤ i) && s.statusCode.toField.getLsbD (i - 4)
        || decide (8 ≤ i) && s.statusCause.toField.getLsbD (i - 8)
        || decide (i = 16) && s.treeValid || decide (i = 17) && s.codeValid
        || decide (i = 18) && s.inUsable || decide (i = 19) && s.outUsable || decide (i = 20) && s.irq) := by
  simp only [State.statusWord, BitVec.getLsbD_or, flagAt_getLsbD _ _ hi, fieldAt_getLsbD _ _ hi]

/-- The one-bit fields of STATUS, and its reserved bit 3 (R36). -/
theorem statusWord_flags (s : State) :
    s.statusWord.getLsbD 0 = s.busy ∧ s.statusWord.getLsbD 1 = s.done ∧ s.statusWord.getLsbD 2 = s.overrun ∧
    s.statusWord.getLsbD 3 = false ∧ s.statusWord.getLsbD 16 = s.treeValid ∧ s.statusWord.getLsbD 17 = s.codeValid ∧
    s.statusWord.getLsbD 18 = s.inUsable ∧ s.statusWord.getLsbD 19 = s.outUsable ∧
    s.statusWord.getLsbD 20 = (s.done && s.irqEn) := by
  refine ⟨?_, ?_, ?_, ?_, ?_, ?_, ?_, ?_, ?_⟩ <;> rw [statusWord_getLsbD s (by decide)] <;> simp [State.irq]

/-- STATUS[7:4] is CODE (R36). -/
theorem statusWord_code (s : State) : s.statusWord.extractLsb' 4 4 = s.statusCode.toField := by
  simp (disch := decide) only [State.statusWord, BitVec.extractLsb'_or, flagAt_extractLsb'_outside,
    fieldAt_extractLsb'_outside, fieldAt_extractLsb'_same, BitVec.or_zero, BitVec.zero_or]

/-- STATUS[15:8] is CAUSE (R36). -/
theorem statusWord_cause (s : State) : s.statusWord.extractLsb' 8 8 = s.statusCause.toField := by
  simp (disch := decide) only [State.statusWord, BitVec.extractLsb'_or, flagAt_extractLsb'_outside,
    fieldAt_extractLsb'_outside, fieldAt_extractLsb'_same, BitVec.or_zero, BitVec.zero_or]

/-- STATUS[31:21] is reserved (R36). -/
theorem statusWord_reserved (s : State) : s.statusWord.extractLsb' 21 11 = 0#11 := by
  simp (disch := decide) only [State.statusWord, BitVec.extractLsb'_or, flagAt_extractLsb'_outside,
    fieldAt_extractLsb'_outside, BitVec.or_zero]

/-- CTRL bit by bit (R34). -/
theorem ctrlWord_getLsbD (s : State) {i : Nat} (hi : i < 32) :
    s.ctrlWord.getLsbD i =
      (decide (i = 0) && s.irqEn || decide (1 ≤ i) && s.decMode.toField.getLsbD (i - 1) || decide (i = 3) && s.hdrBe) := by
  simp only [State.ctrlWord, BitVec.getLsbD_or, flagAt_getLsbD _ _ hi, fieldAt_getLsbD _ _ hi]

/-- The one-bit fields of CTRL (R34). -/
theorem ctrlWord_flags (s : State) : s.ctrlWord.getLsbD 0 = s.irqEn ∧ s.ctrlWord.getLsbD 3 = s.hdrBe := by
  constructor <;> rw [ctrlWord_getLsbD s (by decide)] <;> simp

/-- CTRL[2:1] is DEC_MODE (R34). -/
theorem ctrlWord_decMode (s : State) : s.ctrlWord.extractLsb' 1 2 = s.decMode.toField := by
  simp (disch := decide) only [State.ctrlWord, BitVec.extractLsb'_or, flagAt_extractLsb'_outside,
    fieldAt_extractLsb'_same, BitVec.or_zero, BitVec.zero_or]

/-- CTRL[31:4] is reserved (R34). -/
theorem ctrlWord_reserved (s : State) : s.ctrlWord.extractLsb' 4 28 = 0#28 := by
  simp (disch := decide) only [State.ctrlWord, BitVec.extractLsb'_or, flagAt_extractLsb'_outside,
    fieldAt_extractLsb'_outside, BitVec.or_zero]

/-! ## The summary registers -/

/-- TOTAL_LO is the sum of the counts modulo 2^32 (R42, R84). -/
theorem loHalf_totalWord (f : FreqTable) : loHalf (totalWord f) = BitVec.ofNat 32 (totalCount f) := by
  apply BitVec.eq_of_toNat_eq
  simp only [loHalf, totalWord, BitVec.extractLsb'_toNat, BitVec.toNat_ofNat, Nat.shiftRight_zero]
  omega

/-- TOTAL_HI is bits [63:32] of the sum of the counts (R42, R84). -/
theorem hiHalf_totalWord (f : FreqTable) : hiHalf (totalWord f) = BitVec.ofNat 32 (totalCount f / 2 ^ 32) := by
  apply BitVec.eq_of_toNat_eq
  simp only [hiHalf, totalWord, BitVec.extractLsb'_toNat, BitVec.toNat_ofNat, Nat.shiftRight_eq_div_pow]
  omega

/-- HIST_INFO as a number: DISTINCT, and TOTAL_OVF at bit 16 (R43). -/
theorem histInfoWord_toNat (f : FreqTable) :
    (histInfoWord f).toNat = 2 ^ 16 * (totalOvf f).toNat + (symbolsOf f).length := by
  have hdistinct := length_symbolsOf_le f
  have hflag : flagAt 16 (totalOvf f) = BitVec.ofNat 32 (totalOvf f).toNat <<< 16 := by cases totalOvf f <;> rfl
  rw [histInfoWord, hflag, distinctCount_eq,
    toNat_halves (by omega) ((Bool.toNat_lt _).trans (by decide))]

/-- HIST_INFO[16] is TOTAL_OVF (R43). -/
theorem histInfoWord_ovf (f : FreqTable) : (histInfoWord f).getLsbD 16 = true ↔ 2 ^ 64 ≤ totalCount f := by
  have hdistinct := length_symbolsOf_le f
  rw [← decide_eq_true_iff (p := 2 ^ 64 ≤ totalCount f), ← totalOvf, BitVec.getLsbD, histInfoWord_toNat,
    Nat.testBit_eq_decide_div_mod_eq, decide_eq_true_iff]
  cases totalOvf f
  · simp; omega
  · simp; omega

/-- TREE_INFO as a number: NODES, and ROOT at bit 16 (R44). -/
theorem treeInfoWord_toNat {arena : List Node} (h : arena.length ≤ 511) :
    (treeInfoWord arena).toNat = 2 ^ 16 * (arena.length - 1) + arena.length :=
  toNat_halves (by omega) (by rw [rootIdx]; omega)

/-! ## The node window -/

/-- NODE_KIND of a leaf: SYM and PRESENT (R48). -/
theorem nodeKindWord_leaf (a : Byte) (w : Count) (q : NodeIdx) :
    nodeKindWord (some (.leaf a w q)) = 0x80000000#32 ||| (a.setWidth 32 <<< 8) := by
  have hzero : flagAt 0 false = 0#32 := rfl
  have hpresent : flagAt 31 true = 0x80000000#32 := rfl
  rw [nodeKindWord, Node.isInternal, Node.sym, hzero, hpresent, BitVec.zero_or, BitVec.or_comm]

/-- NODE_KIND of an internal node: INTERNAL and PRESENT, SYM being 0 (R48). -/
theorem nodeKindWord_internal (w : Count) (q l r : NodeIdx) :
    nodeKindWord (some (.internal w q l r)) = 0x80000001#32 := by
  rw [nodeKindWord, Node.isInternal, Node.sym]
  decide

/-! ## Free draws -/

/-- Each bit of a mixed value comes from the draw under the mask and from the value elsewhere (R65). -/
theorem mixFree_getLsbD (mask v free : Word) {i : Nat} (hi : i < 32) :
    (mixFree mask v free).getLsbD i = if mask.getLsbD i then free.getLsbD i else v.getLsbD i := by
  rw [mixFree, BitVec.getLsbD_or, BitVec.getLsbD_and, BitVec.getLsbD_and, BitVec.getLsbD_not]
  cases mask.getLsbD i <;> simp [hi]

/-- Under a mask of ones the whole value is the draw. -/
theorem mixFree_ones (v free : Word) : mixFree 0xFFFFFFFF#32 v free = free := by
  rw [mixFree, show (0xFFFFFFFF#32 : Word) = BitVec.allOnes 32 from rfl, BitVec.not_allOnes, BitVec.and_zero,
    BitVec.zero_or, BitVec.and_allOnes]

/-- A register that R65 leaves open in every bit reads the next free draw while BUSY = 1. -/
theorem drawsAs_freeWord {s : State} {off t : Nat} (h : s.pending ≠ none)
    (hr : (csrAt off).map Csr.freeMask = some 0xFFFFFFFF#32) : DrawsAs s off t (Config.freeWord s.draws) := by
  obtain ⟨r, hoff, hmask⟩ := Option.map_eq_some_iff.1 hr
  have hmapped := csrAt_mapped hoff
  have hdraw : DrawsAs s off t (mixFree r.freeMask (s.csrValue r) (Config.freeWord s.draws)) :=
    drawsAs_busy h (by omega) (by omega) hoff (by rw [hmask]; decide)
  rwa [hmask, mixFree_ones] at hdraw

/-- The bits of STATUS that R65 leaves open are 4 to 17. -/
theorem statusFreeMask_getLsbD : ∀ i, i < 32 → statusFreeMask.getLsbD i = decide (4 ≤ i ∧ i < 18) := by decide

/-- STATUS keeps its own bits outside 4 to 17 while BUSY = 1 (R65). -/
theorem mixFree_status_defined (v free : Word) {i : Nat} (hi : i < 32) (h : i < 4 ∨ 18 ≤ i) :
    (mixFree statusFreeMask v free).getLsbD i = v.getLsbD i := by
  rw [mixFree_getLsbD _ _ _ hi, statusFreeMask_getLsbD i hi, decide_eq_false (by omega), if_neg Bool.false_ne_true]

/-- STATUS reads bits 4 to 17 from the draw while BUSY = 1 (R65). -/
theorem mixFree_status_open (v free : Word) {i : Nat} (h4 : 4 ≤ i) (h18 : i < 18) :
    (mixFree statusFreeMask v free).getLsbD i = free.getLsbD i := by
  rw [mixFree_getLsbD _ _ _ (by omega), statusFreeMask_getLsbD i (by omega), decide_eq_true ⟨h4, h18⟩, if_pos rfl]

/-! ## The stage-valid bits -/

/-- Both stage-valid bits of `t` are those of `s` (R37). -/
def SameStages (s t : State) : Prop := t.treeValid = s.treeValid ∧ t.codeValid = s.codeValid

/-- The commands that R37 names. -/
def stageCommands : List Instr :=
  [.histClear, .histAccum, .hdrLoad, .softReset, .treeBuild, .codeGen, .compress, .decompress]

/-- Reading and writing the streams leaves the stage-valid bits. -/
theorem Moves.sameStages {n : Nat} {s t : State} (h : Moves n s t) : SameStages s t := by
  obtain ⟨k, bs, -, rfl⟩ := h
  exact ⟨rfl, rfl⟩

/-- The commands that R37 does not name leave the stage-valid bits. -/
theorem bodyOf_sameStages {i : Instr} (s : State) (hi : i ∉ stageCommands) :
    SameStages s (bodyOf i s).state := by
  have same : ∀ c : Cause, SameStages s (Body.state (.error (c, s))) := fun _ => ⟨rfl, rfl⟩
  cases i with
  | nop => exact ⟨rfl, rfl⟩
  | inRewind =>
    rw [bodyOf]; split
    · exact ⟨rfl, rfl⟩
    · exact same _
  | hdrEmit =>
    rw [bodyOf]; split
    · exact ⟨rfl, rfl⟩
    · exact same _
  | pack =>
    rw [bodyOf]; split; · exact same _
    split; · exact same _
    split; · exact same _
    exact (packRemaining_ends s).1.sameStages
  | unpack =>
    rw [bodyOf]; split; · exact same _
    split; · exact same _
    split; · exact same _
    exact (unpackRemaining_ends s).1.sameStages
  | histClear | histAccum | hdrLoad | softReset | treeBuild | codeGen | compress | decompress =>
    exact absurd (by decide) hi

/-- No host step but hardware reset changes a table, a valid bit or the recorded status (R83, R89). -/
theorem execHost_keeps {h : HostStep} {s t : State} (hr : h ≠ .hardReset) (e : execHost h s = .next t) :
    HostKeeps s t := by
  obtain ⟨off, v, -, -, -, rfl⟩ | ⟨off, n, -, -, -, rfl⟩ | ⟨_, -, -, -, rfl⟩ | ⟨-, -, rfl⟩ | ⟨_, _, -, -, rfl⟩ |
    ⟨-, rfl⟩ | ⟨_, rfl⟩ | ⟨rfl, -⟩ := execHost_cases e
  · obtain ⟨hkeep⟩ := writeOffset_keeps s off v
    exact ⟨hkeep.freq, hkeep.arena, hkeep.codes, hkeep.treeValid, hkeep.codeValid, hkeep.statusCode,
      hkeep.statusCause, hkeep.info⟩
  · obtain hs | ⟨-, hs⟩ := readOffset_state s off <;> rw [hs] <;> constructor <;> rfl
  · constructor <;> rfl
  · constructor <;> rfl
  · constructor <;> rfl
  · rw [State.readOutput]; split <;> constructor <;> rfl
  · constructor <;> rfl
  · exact absurd rfl hr

/-- A step that changes a stage-valid bit is the core step of a command that R37 names, or hardware reset (R291). -/
theorem step_sameStages_or {s t : State} (e : step s = .next t) :
    SameStages s t ∨
    (∃ w i, s.pending = some w ∧ (s.hostMove = none ∨ s.turn = .core) ∧ decode w = .ok i ∧ i ∈ stageCommands) ∨
    (s.hostMove = some .hardReset ∧ (s.pending = none ∨ s.turn = .host)) := by
  obtain ⟨-, -, hstop⟩ | ⟨w, hw, hturn, hcore⟩ | ⟨h, hmove, hturn, hhost⟩ := step_cases e
  · cases hstop
  · cases hcore
    rw [finishBody_eq, bodyOfWord]
    cases hd : decode w with
    | error _ => exact .inl ⟨rfl, rfl⟩
    | ok i =>
      by_cases hi : i ∈ stageCommands
      · exact .inr (.inl ⟨w, i, hw, hturn, hd, hi⟩)
      · exact .inl (bodyOf_sameStages s.nextTurn hi)
  · by_cases hr : h = .hardReset
    · subst hr
      exact .inr (.inr ⟨hmove, hturn⟩)
    · have hkeep := execHost_keeps hr hhost.symm
      exact .inl ⟨hkeep.treeValid, hkeep.codeValid⟩

/-- OK is the code of NONE alone (R263). -/
theorem Cause.code_eq_ok {c : Cause} : c.code = .ok ↔ c = .noCause := by cases c <;> decide

/-- HDR_LOAD's body: a short remainder leaves the stage-valid bits, a loaded header clears them (R137, R37). -/
theorem loadHeader_stages (s : State) :
    (∃ t, loadHeader s = .error (.hdrShort, t) ∧ SameStages s t) ∨
    (∃ t, loadHeader s = .ok t ∧ t.treeValid = false ∧ t.codeValid = false) := by
  rw [loadHeader]
  split
  · exact .inl ⟨_, rfl, rfl, rfl⟩
  · exact .inr ⟨_, rfl, rfl, rfl⟩

/-- TREE_BUILD's body: CODE_VALID is cleared, and TREE_VALID is set exactly without an overflow (R153, R37). -/
theorem buildTree_stages (s : State) :
    (∃ t, buildTree s = .error (.weightOverflow, t) ∧ t.treeValid = false ∧ t.codeValid = false) ∨
    (∃ t, buildTree s = .ok t ∧ t.treeValid = true ∧ t.codeValid = false) := by
  rw [buildTree]
  split
  · exact .inl ⟨_, rfl, rfl, rfl⟩
  · exact .inr ⟨_, rfl, rfl, rfl⟩

/-- A body that clears both stage-valid bits when it succeeds and leaves them when it fails (R37). -/
def ClearsStages (s : State) (b : Body) : Prop :=
  (b.cause = .noCause → b.state.treeValid = false ∧ b.state.codeValid = false) ∧
  (b.cause ≠ .noCause → SameStages s b.state)

theorem clearsStages_error {s t : State} {c : Cause} (hc : c ≠ .noCause) (h : SameStages s t) :
    ClearsStages s (.error (c, t)) := ⟨fun h0 => absurd h0 hc, fun _ => h⟩

theorem clearsStages_ok {s t : State} (h : t.treeValid = false ∧ t.codeValid = false) : ClearsStages s (.ok t) :=
  ⟨fun _ => h, fun h0 => absurd rfl h0⟩

/-- HIST_ACCUM and HDR_LOAD clear both stage-valid bits on success (R37). -/
theorem bodyOf_clearsStages {i : Instr} (s : State) (hi : i = .histAccum ∨ i = .hdrLoad) :
    ClearsStages s (bodyOf i s) := by
  have unusable : ClearsStages s (.error (.inUnusable, s)) := clearsStages_error (by decide) ⟨rfl, rfl⟩
  obtain rfl | rfl := hi <;> rw [bodyOf] <;> split
  · exact clearsStages_ok ⟨rfl, rfl⟩
  · exact unusable
  · obtain ⟨t, hload, hsame⟩ | ⟨t, hload, hclear⟩ := loadHeader_stages s <;> rw [hload]
    · exact clearsStages_error (by decide) hsame
    · exact clearsStages_ok hclear
  · exact unusable

/-- CODE_GEN succeeds exactly with a valid tree, keeps TREE_VALID, and then sets CODE_VALID (R171, R37). -/
theorem genCodes_stages (s : State) :
    ((genCodes s).cause = .noCause ↔ s.treeValid = true) ∧ (genCodes s).state.treeValid = s.treeValid ∧
    (genCodes s).state.codeValid = (s.treeValid || s.codeValid) := by
  rw [genCodes]
  cases htree : s.treeValid <;> simp [htree]

/-- COMPRESS on an input that can be bound: it sets both stage-valid bits, or a handle is unusable and it leaves them
(R216, R37). -/
theorem bodyOf_compress_stages {s : State} (h : s.input.length ≤ 2 ^ 64 - 1) :
    ((bodyOf .compress s).cause = .noCause →
      (bodyOf .compress s).state.treeValid = true ∧ (bodyOf .compress s).state.codeValid = true) ∧
    ((bodyOf .compress s).cause ≠ .noCause → SameStages s (bodyOf .compress s).state) := by
  rw [bodyOf]; split
  · exact ⟨fun h0 => (by cases h0), fun _ => ⟨rfl, rfl⟩⟩
  split
  · exact ⟨fun h0 => (by cases h0), fun _ => ⟨rfl, rfl⟩⟩
  obtain ⟨p, k, hok, -, -⟩ := compressBody_ok h
  rw [hok]
  exact ⟨fun _ => ⟨rfl, rfl⟩, fun h0 => absurd rfl h0⟩

/-- What DECOMPRESS leaves of the stage-valid bits: what they were before the header is loaded, else CODE_VALID 0 and
TREE_VALID the tree's (R218, R37). -/
def DecompressStages (s : State) (b : Body) : Prop :=
  (b.cause ∈ [Cause.inUnusable, .outUnusable, .hdrShort] → SameStages s b.state) ∧
  (b.cause ∉ [Cause.inUnusable, .outUnusable, .hdrShort] →
    b.state.codeValid = false ∧ (b.state.treeValid = true ↔ b.cause ≠ .weightOverflow))

theorem decompressStages_early {s t : State} {c : Cause} (hc : c ∈ [Cause.inUnusable, .outUnusable, .hdrShort])
    (h : SameStages s t) : DecompressStages s (.error (c, t)) := ⟨fun _ => h, fun h0 => absurd hc h0⟩

/-- An overflow after the header is loaded leaves both stage-valid bits 0 (R153). -/
theorem decompressStages_overflow (s : State) {t : State} (htree : t.treeValid = false) (hcode : t.codeValid = false) :
    DecompressStages s (.error (.weightOverflow, t)) :=
  ⟨fun h0 => absurd (show Cause.weightOverflow ∈ _ from h0) (by decide), fun _ => ⟨hcode, by simp [htree]⟩⟩

/-- The decoder, run on a tree just built, leaves TREE_VALID 1 and CODE_VALID 0 however it ends (R195). -/
theorem decompressStages_decoded (s : State) {t : State} (htree : t.treeValid = true) (hcode : t.codeValid = false) :
    DecompressStages s (unpackRemaining t) := by
  obtain ⟨hmoves, hcause⟩ := unpackRemaining_ends t
  obtain ⟨hsameTree, hsameCode⟩ := hmoves.sameStages
  have hlate : ∀ c ∈ [Cause.noCause, .truncated, .trailing],
      c ∉ [Cause.inUnusable, .outUnusable, .hdrShort] ∧ c ≠ .weightOverflow := by decide
  obtain ⟨hnotEarly, hnoOverflow⟩ := hlate _ hcause
  exact ⟨fun h0 => absurd h0 hnotEarly,
    fun _ => ⟨hsameCode.trans hcode, iff_of_true (hsameTree.trans htree) hnoOverflow⟩⟩

theorem decompressBody_stages (s : State) : DecompressStages s (decompressBody s) := by
  rw [decompressBody]
  obtain ⟨t, hload, hsame⟩ | ⟨t, hload, -⟩ := loadHeader_stages s.rewind <;> rw [hload]
  · exact decompressStages_early (by decide) hsame
  · rw [Except.bind]
    obtain ⟨u, hbuild, htree, hcode⟩ | ⟨u, hbuild, htree, hcode⟩ := buildTree_stages t <;> rw [hbuild]
    · exact decompressStages_overflow s htree hcode
    · exact decompressStages_decoded s htree hcode

theorem bodyOf_decompress_stages (s : State) : DecompressStages s (bodyOf .decompress s) := by
  rw [bodyOf]; split
  · exact decompressStages_early (by decide) ⟨rfl, rfl⟩
  split
  · exact decompressStages_early (by decide) ⟨rfl, rfl⟩
  exact decompressBody_stages s

/-- A command's outcome, in terms of its body: the status of the body's cause, and the body's stage-valid bits (R266). -/
theorem exec_next {i : Instr} {s t : State} (e : exec i s = .next t) :
    (t.statusCode = .ok ↔ (bodyOf i s).cause = .noCause) ∧ t.statusCause = (bodyOf i s).cause ∧
    t.treeValid = (bodyOf i s).state.treeValid ∧ t.codeValid = (bodyOf i s).state.codeValid := by
  rw [exec_eq, finishBody_eq] at e
  cases e
  exact ⟨Cause.code_eq_ok, rfl, rfl, rfl⟩

/-! ## The statements -/

/-- Settles O16: no body outside R37's list and no host step but reset touches a stage-valid bit, and each listed body
sets them as its own lemma says. -/
theorem stageBitsChangeOnlyAsListed : Obligations.StageBitsChangeOnlyAsListed := by
  refine ⟨fun s t e hchange => ?_, fun i s t e => ?_, fun s t e => ?_⟩
  · obtain ⟨htree, hcode⟩ | hlisted := step_sameStages_or e
    · exact (hchange.elim (fun h => h htree) fun h => h hcode).elim
    · exact hlisted
  · obtain ⟨hok, hcause, htree, hcode⟩ := exec_next e
    simp only [ne_eq, hok, hcause, htree, hcode]
    refine ⟨?_, bodyOf_clearsStages s, ?_, ?_, ?_, ?_⟩
    · rintro (rfl | rfl) <;> exact ⟨rfl, rfl⟩
    · rintro rfl
      obtain ⟨u, hbuild, hu, hv⟩ | ⟨u, hbuild, hu, hv⟩ := buildTree_stages s <;> simp [bodyOf, hbuild, hu, hv]
    · rintro rfl
      exact genCodes_stages s
    · rintro rfl
      exact bodyOf_compress_stages
    · rintro rfl
      exact bodyOf_decompress_stages s
  · cases e
    exact ⟨rfl, rfl⟩

/-- Settles O52: TOTAL is the two halves of the sum; HIST_INFO and TREE_INFO are read by the number the word holds. -/
theorem summaryRegisterReads : Obligations.SummaryRegisterReads := by
  intro s t h
  refine ⟨?_, ?_, ⟨histInfoWord s.freq, readsAs_register (r := .histInfo) h rfl, ?_⟩,
    fun hnodes => ⟨treeInfoWord s.arena, readsAs_register (r := .treeInfo) h rfl, ?_⟩⟩
  · rw [← loHalf_totalWord]
    exact readsAs_register (r := .totalLo) h rfl
  · rw [← hiHalf_totalWord]
    exact readsAs_register (r := .totalHi) h rfl
  · have hword := histInfoWord_toNat s.freq
    have hdistinct := length_symbolsOf_le s.freq
    have hflag := Bool.toNat_lt (totalOvf s.freq)
    exact ⟨extractLsb'_toNat_of_toNat hword (by omega), extractLsb'_eq_zero_of_toNat hword (by omega),
      histInfoWord_ovf s.freq, extractLsb'_eq_zero_of_toNat hword (by omega)⟩
  · have hword := treeInfoWord_toNat hnodes
    have hroot : (2 ^ 16 * (s.arena.length - 1) + s.arena.length) / 2 ^ 16 = s.arena.length - 1 := by omega
    have habove : (2 ^ 16 * (s.arena.length - 1) + s.arena.length) / 2 ^ 25 = 0 := by omega
    exact ⟨extractLsb'_toNat_of_toNat hword (by omega), extractLsb'_eq_zero_of_toNat hword (by omega),
      extractLsb'_toNat_of_toNat hword (by rw [hroot]; omega),
      extractLsb'_eq_zero_of_toNat hword (by rw [habove, Nat.zero_mod])⟩

/-- Settles O54, by the bits of `codeBitsWord`. -/
theorem codeWindowReads : Obligations.CodeWindowReads := by
  intro s t h
  refine ⟨readsAs_register (r := .codeLen) h rfl, _, readsAs_register (r := .codeBits) h rfl, fun j hj => ?_⟩
  rw [State.csrValue, codeBitsWord_getLsbD _ _ hj, List.getD_eq_getElem?_getD]

/-- Settles O3: the fields of `State.reset`, the two tables being 256 copies of their empty entry. -/
theorem resetValues : Obligations.ResetValues :=
  ⟨rfl, rfl, rfl, rfl, rfl, rfl, rfl, rfl, rfl, rfl, rfl, rfl, rfl, rfl, freqAt_freqZero, rfl, codeAt_codesEmpty,
    rfl, rfl, rfl, rfl, rfl, rfl, rfl, rfl⟩

/-- Settles O50: STATUS and CTRL read as their words, whose fields are read bit by bit. -/
theorem statusAndControlFields : Obligations.StatusAndControlFields := by
  refine ⟨⟨rfl, rfl, rfl, rfl⟩, ⟨rfl, rfl, rfl, rfl, rfl, rfl, rfl, rfl, rfl, rfl, rfl, rfl⟩, fun s t h => ⟨?_, ?_⟩⟩
  · obtain ⟨hbusy, hdone, hoverrun, hreserved, htree, hcode, hin, hout, hirq⟩ := statusWord_flags s
    have hidle : s.busy = false := by rw [State.busy, h]; rfl
    exact ⟨s.statusWord, readsAs_register (r := .status) h rfl, hbusy.trans hidle, hdone, hoverrun, hreserved,
      statusWord_code s, statusWord_cause s, htree, hcode, hin, hout, hirq, statusWord_reserved s⟩
  · obtain ⟨hirqEn, hhdrBe⟩ := ctrlWord_flags s
    refine ⟨s.ctrlWord, readsAs_register (r := .ctrl) h rfl, hirqEn, ?_, hhdrBe, ctrlWord_reserved s⟩
    rw [ctrlWord_decMode]
    cases s.decMode <;> rfl

/-- Settles O51, register by register. -/
theorem idleRegisterReads : Obligations.IdleRegisterReads := fun _ _ h =>
  ⟨readsAs_register (r := .id) h rfl, readsAs_register (r := .cmd) h rfl,
    readsAs_register (r := .infoLo) h rfl, readsAs_register (r := .infoHi) h rfl,
    readsAs_register (r := .inPtrLo) h rfl, readsAs_register (r := .inPtrHi) h rfl,
    readsAs_register (r := .inLenLo) h rfl, readsAs_register (r := .inLenHi) h rfl,
    readsAs_register (r := .outCntLo) h rfl, readsAs_register (r := .outCntHi) h rfl,
    readsAs_register (r := .freqIdx) h rfl, readsAs_register (r := .freqLo) h rfl,
    readsAs_register (r := .freqHi) h rfl, readsAs_register (r := .nodeIdx) h rfl,
    readsAs_register (r := .codeIdx) h rfl, readsAs_register (r := .codeWsel) h rfl,
    fun _ hoff => readsAs_unmappedOffset hoff⟩

/-- Settles O53: the node that NODE_IDX selects decides all six registers. -/
theorem nodeWindowReads : Obligations.NodeWindowReads := by
  intro s t h
  have window : ReadsAs s 0x54 t (nodeKindWord s.selectedNode) ∧
      ReadsAs s 0x58 t (nodeField s.selectedNode fun n => n.seq.setWidth 32) ∧
      ReadsAs s 0x5C t (nodeField s.selectedNode fun n => n.left.setWidth 32) ∧
      ReadsAs s 0x60 t (nodeField s.selectedNode fun n => n.right.setWidth 32) ∧
      ReadsAs s 0x64 t (nodeField s.selectedNode fun n => loHalf n.weight) ∧
      ReadsAs s 0x68 t (nodeField s.selectedNode fun n => hiHalf n.weight) :=
    ⟨readsAs_register (r := .nodeKind) h rfl, readsAs_register (r := .nodeSeq) h rfl,
      readsAs_register (r := .nodeLeft) h rfl, readsAs_register (r := .nodeRight) h rfl,
      readsAs_register (r := .nodeWLo) h rfl, readsAs_register (r := .nodeWHi) h rfl⟩
  refine ⟨fun a w q hnode => ?_, fun w q l r hnode => ?_, fun hbeyond => ?_⟩
  · rw [State.selectedNode, hnode, nodeKindWord_leaf] at window
    exact window
  · rw [State.selectedNode, hnode, nodeKindWord_internal] at window
    exact window
  · rw [State.selectedNode, List.getElem?_eq_none hbeyond] at window
    exact window

/-- Settles O55: the result registers draw under a mask of ones, STATUS under the mask of bits 4 to 17, and the other
registers under none. -/
theorem busyReads : Obligations.BusyReads := by
  intro s t h
  have results : ∀ off ∈ [0x10, 0x14, 0x18, 0x1C, 0x28, 0x2C, 0x30, 0x34, 0x38, 0x3C, 0x44, 0x48,
      0x54, 0x58, 0x5C, 0x60, 0x64, 0x68, 0x74, 0x7C],
      (csrAt off).map Csr.freeMask = some 0xFFFFFFFF#32 := by decide
  refine ⟨fun off hoff => drawsAs_freeWord h (results off hoff),
    ⟨mixFree statusFreeMask s.statusWord (Config.freeWord s.draws), ?_⟩,
    readsAs_always (r := .id) rfl rfl, readsAs_always (r := .ctrl) rfl rfl, readsAs_always (r := .cmd) rfl rfl,
    readsAs_always (r := .inLenLo) rfl rfl, readsAs_always (r := .inLenHi) rfl rfl,
    readsAs_always (r := .freqIdx) rfl rfl, readsAs_always (r := .nodeIdx) rfl rfl,
    readsAs_always (r := .codeIdx) rfl rfl, readsAs_always (r := .codeWsel) rfl rfl,
    fun _ hoff => readsAs_unmappedOffset hoff⟩
  obtain ⟨hbusy, hdone, hoverrun, hreserved, -, -, hin, hout, hirq⟩ := statusWord_flags s
  have defined : ∀ {i : Nat} {b : Bool}, s.statusWord.getLsbD i = b → i < 32 → i < 4 ∨ 18 ≤ i →
      (mixFree statusFreeMask s.statusWord (Config.freeWord s.draws)).getLsbD i = b :=
    fun hbit hi hout => (mixFree_status_defined _ _ hi hout).trans hbit
  refine ⟨drawsAs_busy (r := .status) h (by decide) (by decide) rfl (by decide),
    defined (hbusy.trans (s.busy_iff.2 h)) (by decide) (by decide), defined hdone (by decide) (by decide),
    defined hoverrun (by decide) (by decide), defined hreserved (by decide) (by decide),
    extractLsb'_congr fun j hj => mixFree_status_open _ _ (by omega) (by omega), defined hin (by decide) (by decide),
    defined hout (by decide) (by decide), defined hirq (by decide) (by decide), ?_⟩
  rw [← statusWord_reserved s]
  exact extractLsb'_congr fun j hj => mixFree_status_defined _ _ (by omega) (by omega)

end Sys2Proof.Machine
end

section
/-! SUPPORT. The host's steps and their order: the moves that have no meaning, what a host step leaves alone, and the
turns that a pending command waits (spec/20_memory.md R83 to R99, spec/70_reset_and_hazards.md R297 to R302). -/

namespace Sys2Proof.Machine

/-! ## The moves that have no meaning -/

/-- The host moves that the spec puts outside the model (R88, R246, R247, R297). -/
def HostStep.OutsideSpec (s : State) : HostStep → Prop
  | .wr off width _ | .rd off width _ => ¬ (width = 4 ∧ off % 4 = 0 ∧ off < 256)
  | .bindIn bytes => s.pending ≠ none ∨ 2 ^ 64 - 1 < bytes.length
  | .bindOut | .usable _ _ => s.pending ≠ none
  | .readOut | .beq _ _ _ _ | .bne _ _ _ _ | .halt | .hardReset => False

/-- A host step other than `halt` is refused when it is outside the spec, and goes on when it is not. -/
theorem execHost_answers {h : HostStep} (s : State) (hhalt : h ≠ .halt) :
    (h.OutsideSpec s ∧ ∃ r, execHost h s = .refused r) ∨ (¬ h.OutsideSpec s ∧ ∃ t, execHost h s = .next t) := by
  cases h with
  | wr off width v =>
    rw [execHost, hostWrite, HostStep.OutsideSpec, ← csrRefusal_eq_none]
    cases csrRefusal off width <;> simp
  | rd off width t =>
    rw [execHost, hostRead, HostStep.OutsideSpec, ← csrRefusal_eq_none]
    cases csrRefusal off width <;> simp
  | bindIn bytes =>
    rw [execHost, hostBindIn, HostStep.OutsideSpec, ← s.busy_iff, ← not_le,
      show bytes.length ≤ 2 ^ 64 - 1 ↔ inputFits bytes = true from decide_eq_true_iff.symm]
    cases s.busy <;> cases inputFits bytes <;> simp
  | bindOut =>
    rw [execHost, hostBindOut, HostStep.OutsideSpec, ← s.busy_iff]
    cases s.busy <;> simp
  | usable x y =>
    rw [execHost, hostUsable, HostStep.OutsideSpec, ← s.busy_iff]
    cases s.busy <;> simp
  | readOut | beq _ _ _ _ | bne _ _ _ _ | hardReset => exact .inr ⟨id, _, rfl⟩
  | halt => exact absurd rfl hhalt

/-- The host's step is refused exactly when it is outside the spec. -/
theorem execHost_refused_iff {h : HostStep} {s : State} :
    (∃ r, execHost h s = .refused r) ↔ h.OutsideSpec s := by
  by_cases hhalt : h = .halt
  · subst hhalt
    exact iff_of_false (fun ⟨_, e⟩ => nomatch e) id
  obtain ⟨hout, hrefused⟩ | ⟨hin, t, hnext⟩ := execHost_answers s hhalt
  · exact iff_of_true hrefused hout
  · exact iff_of_false (fun ⟨_, e⟩ => nomatch hnext.symm.trans e) hin

/-! ## What a host step leaves alone -/

/-- Only a bind moves IN_PTR or replaces IN, and only a bind empties OUT or its count (R39, R89). -/
theorem execHost_streams {h : HostStep} {s t : State} (hr : h ≠ .hardReset) (e : execHost h s = .next t) :
    ((∀ bytes, h ≠ .bindIn bytes) → t.inPtr = s.inPtr ∧ t.input = s.input) ∧
    (h ≠ .bindOut → t.output = s.output ∧ t.outCnt = s.outCnt) := by
  obtain ⟨off, v, -, -, -, rfl⟩ | ⟨off, n, -, -, -, rfl⟩ | ⟨bytes, hbind, -, -, rfl⟩ | ⟨hbind, -, rfl⟩ |
    ⟨_, _, -, -, rfl⟩ | ⟨-, rfl⟩ | ⟨_, rfl⟩ | ⟨hreset, -⟩ := execHost_cases e
  · have hkeep := writeOffset_keeps s off v
    exact ⟨fun _ => ⟨hkeep.inPtr, hkeep.input⟩, fun _ => ⟨hkeep.output, hkeep.outCnt⟩⟩
  · obtain hs | ⟨-, hs⟩ := readOffset_state s off <;> rw [hs] <;> exact ⟨fun _ => ⟨rfl, rfl⟩, fun _ => ⟨rfl, rfl⟩⟩
  · exact ⟨fun hno => absurd hbind (hno bytes), fun _ => ⟨rfl, rfl⟩⟩
  · exact ⟨fun _ => ⟨rfl, rfl⟩, fun hno => absurd hbind hno⟩
  · exact ⟨fun _ => ⟨rfl, rfl⟩, fun _ => ⟨rfl, rfl⟩⟩
  · rw [State.readOutput]; split <;> exact ⟨fun _ => ⟨rfl, rfl⟩, fun _ => ⟨rfl, rfl⟩⟩
  · exact ⟨fun _ => ⟨rfl, rfl⟩, fun _ => ⟨rfl, rfl⟩⟩
  · exact absurd hreset hr

/-- The pending word, its latched fields, the usable signals and the turns to come are the same in both states. -/
structure CommandHeld (s t : State) : Prop where
  pending : t.pending = s.pending
  lDecMode : t.lDecMode = s.lDecMode
  lHdrBe : t.lHdrBe = s.lHdrBe
  inUsable : t.inUsable = s.inUsable
  outUsable : t.outUsable = s.outUsable
  turns : t.turns = s.turns

/-- The host going on leaves the command. -/
theorem CommandHeld.hostNext {s t : State} (h : CommandHeld s t) : CommandHeld s t.hostNext := { h with }

/-- A register write while a command is pending leaves the command: one to CMD is dropped (R240), and no other register
holds any part of it. -/
theorem csrWrite_commandHeld {s : State} (hp : s.pending ≠ none) (r : Csr) (v : Word) :
    CommandHeld s (s.csrWrite r v) := by
  cases r
  case cmd =>
    rw [State.csrWrite, State.issue, if_pos (s.busy_iff.2 hp)]
    constructor <;> rfl
  all_goals constructor <;> rfl

theorem writeOffset_commandHeld {s : State} (hp : s.pending ≠ none) (off : Nat) (v : Word) :
    CommandHeld s (s.writeOffset off v) := by
  rw [State.writeOffset]
  split
  · exact csrWrite_commandHeld hp _ v
  · constructor <;> rfl

/-- While a command is pending, no host step but hardware reset ends it or moves its data (R99, R240, R298). -/
theorem execHost_commandHeld {h : HostStep} {s t : State} (hp : s.pending ≠ none) (hr : h ≠ .hardReset)
    (e : execHost h s = .next t) : CommandHeld s t := by
  obtain ⟨off, v, -, -, -, rfl⟩ | ⟨off, n, -, -, -, rfl⟩ | ⟨_, -, hidle, -⟩ | ⟨-, hidle, -⟩ | ⟨_, _, -, hidle, -⟩ |
    ⟨-, rfl⟩ | ⟨_, rfl⟩ | ⟨hreset, -⟩ := execHost_cases e
  · exact (writeOffset_commandHeld hp off v).hostNext
  · obtain hs | ⟨-, hs⟩ := readOffset_state s off <;> rw [hs] <;> constructor <;> rfl
  · exact absurd hidle hp
  · exact absurd hidle hp
  · exact absurd hidle hp
  · rw [State.readOutput]; split <;> constructor <;> rfl
  · constructor <;> rfl
  · exact absurd hreset hr

/-- A host step that goes on while a command is pending is no bind (R246, R297). -/
theorem execHost_no_bind {h : HostStep} {s t : State} (hp : s.pending ≠ none) (e : execHost h s = .next t) :
    (∀ bytes, h ≠ .bindIn bytes) ∧ h ≠ .bindOut := by
  have hin : ¬ h.OutsideSpec s := fun hout => by
    obtain ⟨r, hr⟩ := execHost_refused_iff.2 hout
    exact nomatch e.symm.trans hr
  exact ⟨fun bytes hb => hin (hb ▸ .inl hp), fun hb => hin (hb ▸ hp)⟩

/-! ## Turns -/

/-- The host's step runs when the host has one and no command is pending or the turn is the host's (R95). -/
theorem step_host {s : State} {h : HostStep} (hmove : s.hostMove = some h) (hturn : s.pending = none ∨ s.turn = .host) :
    step s = execHost h s.nextTurn := by
  obtain ⟨-, hnone, -⟩ | ⟨w, hw, hcore, -⟩ | ⟨h', hmove', -, e⟩ := step_cases (s := s) rfl
  · exact nomatch hmove.symm.trans hnone
  · obtain hidle | hhost := hturn
    · exact nomatch hw.symm.trans hidle
    · obtain hnone | hturn := hcore
      · exact nomatch hmove.symm.trans hnone
      · exact nomatch hhost.symm.trans hturn
  · cases hmove.symm.trans hmove'
    exact e

/-- A drawn round begins with the host's turn unless its latency is 0 (R302). -/
theorem drawnRound_headD (n : Nat) :
    (drawnRound n).headD .core = if Config.latency n = 0 then .core else .host := by
  rw [drawnRound]
  cases Config.latency n <;> rfl

/-- A drawn round holds a turn of the core (R302). -/
theorem core_mem_drawnRound (n : Nat) : .core ∈ drawnRound n :=
  List.mem_append_right _ (List.mem_singleton.2 rfl)

/-- A run goes on from its first step. -/
theorem Reaches.head {s t u : State} (e : step s = .next t) (h : Reaches t u) : Reaches s u := by
  induction h with
  | here => exact .next .here e
  | next _ e' ih => exact .next ih e'

/-- A pending command's wait ends here: its core step is next, or the host resets the block or makes a refused move. -/
def State.WaitOver (s : State) : Prop :=
  s.hostMove = none ∨ s.turn = .core ∨ s.hostMove = some .hardReset ∨ ∃ r, step s = .refused r

/-- From `s` the pending word `w` stays pending up to a state in which its wait ends. -/
def WaitEnds (s : State) (w : Word) : Prop := ∃ u, Reaches s u ∧ u.pending = some w ∧ u.WaitOver

theorem WaitEnds.head {s t : State} {w : Word} (e : step s = .next t) (h : WaitEnds t w) : WaitEnds s w := by
  obtain ⟨u, hreach, hpending, hover⟩ := h
  exact ⟨u, hreach.head e, hpending, hover⟩

/-- A step in a pending command's wait: the wait is over, or the host moves, the command stays and a turn is used up. -/
theorem wait_step {s : State} {w : Word} (hw : s.pending = some w) :
    s.WaitOver ∨ ∃ t, step s = .next t ∧ t.pending = some w ∧ t.turns = s.coming.tail := by
  obtain ⟨hidle, -⟩ | ⟨_, -, hcore, -⟩ | ⟨h, hmove, -, e⟩ := step_cases (s := s) rfl
  · exact nomatch hw.symm.trans hidle
  · exact .inl (hcore.imp id .inl)
  · obtain ⟨-, r, hrefused⟩ | ⟨-, t, hnext⟩ := execHost_answers s.nextTurn (hostMove_ne_halt hmove)
    · exact .inl (.inr (.inr (.inr ⟨r, e.trans hrefused⟩)))
    · by_cases hr : h = .hardReset
      · exact .inl (.inr (.inr (.inl (hr ▸ hmove))))
      · have hheld := execHost_commandHeld (s := s.nextTurn) (Option.ne_none_iff_exists'.2 ⟨w, hw⟩) hr hnext
        exact .inr ⟨t, e.trans hnext, hheld.pending.trans hw, hheld.turns⟩

/-- The wait ends when the core's turn is among the coming ones. -/
theorem waitEnds_of_core_mem {s : State} {w : Word} (hw : s.pending = some w) (hcore : .core ∈ s.coming) :
    WaitEnds s w := by
  generalize hl : s.coming = l at hcore
  induction l generalizing s with
  | nil => cases hcore
  | cons a l ih =>
    obtain hover | ⟨t, e, ht, hturns⟩ := wait_step hw
    · exact ⟨s, .here, hw, hover⟩
    rw [hl, List.tail_cons] at hturns
    obtain rfl | hrest : .core = a ∨ .core ∈ l := List.mem_cons.1 hcore
    · exact ⟨s, .here, hw, .inr (.inl (by rw [State.turn, hl]; rfl))⟩
    · have hcoming : t.coming = l := by
        rw [State.coming, hturns]
        cases l with
        | nil => cases hrest
        | cons => rfl
      exact .head e (ih ht hcoming hrest)

/-- The wait ends whatever turns are listed: when they are used up, a drawn round holds a turn of the core (R302). -/
theorem waitEnds {s : State} {w : Word} (hw : s.pending = some w) : WaitEnds s w := by
  generalize hl : s.turns = l
  induction l generalizing s with
  | nil =>
    refine waitEnds_of_core_mem hw ?_
    rw [State.coming, hl]
    exact core_mem_drawnRound s.rounds
  | cons a l ih =>
    obtain hover | ⟨t, e, ht, hturns⟩ := wait_step hw
    · exact ⟨s, .here, hw, hover⟩
    · rw [State.coming, hl] at hturns
      exact .head e (ih ht hturns)

/-! ## The statements -/

/-- Settles O18: `execHost_keeps` for the tables and the status, `execHost_streams` for the streams. -/
theorem hostStepsLeaveTables : Obligations.HostStepsLeaveTables := by
  intro h s t hr e
  have hkeep := execHost_keeps hr e
  exact ⟨hkeep.freq, hkeep.arena, hkeep.codes, hkeep.treeValid, hkeep.codeValid, hkeep.statusCode, hkeep.statusCause,
    hkeep.info, execHost_streams hr e⟩

/-- Settles O17: the step is the core's, which completes the command, or hardware reset, or another host step, which
holds the command and its data. -/
theorem pendingCommandIsStable : Obligations.PendingCommandIsStable := by
  intro s t w hw e
  have hp : s.nextTurn.pending ≠ none := Option.ne_none_iff_exists'.2 ⟨w, hw⟩
  obtain ⟨-, -, hstop⟩ | ⟨_, -, hturn, hcore⟩ | ⟨h, hmove, hturn, hhost⟩ := step_cases e
  · cases hstop
  · cases hcore
    rw [finishBody_eq]
    exact .inr (.inl ⟨rfl, rfl, hturn⟩)
  · by_cases hr : h = .hardReset
    · subst hr
      cases hhost
      exact .inr (.inr ⟨rfl, rfl, hmove, hturn.resolve_left hp⟩)
    · have hheld := execHost_commandHeld hp hr hhost.symm
      have hkeep := execHost_keeps hr hhost.symm
      obtain ⟨hnoIn, hnoOut⟩ := execHost_no_bind hp hhost.symm
      obtain ⟨hin, hout⟩ := execHost_streams hr hhost.symm
      obtain ⟨hptr, hinput⟩ := hin hnoIn
      obtain ⟨houtput, hcnt⟩ := hout hnoOut
      exact .inl ⟨hheld.pending.trans hw, hheld.lDecMode, hheld.lHdrBe, hinput, hptr, houtput, hcnt,
        hheld.inUsable, hheld.outUsable, hkeep.freq, hkeep.arena, hkeep.codes⟩

/-- Settles O12: the refused host steps are those outside the spec, and only a host step is refused. -/
theorem onlyMeaninglessMovesRefused : Obligations.OnlyMeaninglessMovesRefused := by
  refine ⟨fun s off width t v hbad => ⟨execHost_refused_iff.2 hbad, execHost_refused_iff.2 hbad⟩,
    fun s bytes x y hp => ⟨execHost_refused_iff.2 (.inl hp), execHost_refused_iff.2 hp, execHost_refused_iff.2 hp⟩,
    fun s bytes hlong => execHost_refused_iff.2 (.inr hlong), fun s r e => ?_⟩
  obtain ⟨-, -, hstop⟩ | ⟨_, -, -, hcore⟩ | ⟨h, hmove, hturn, hhost⟩ := step_cases e
  · cases hstop
  · cases hcore
  refine ⟨h, hmove, hturn, ?_⟩
  have hout : h.OutsideSpec s.nextTurn := execHost_refused_iff.1 ⟨r, hhost.symm⟩
  cases h with
  | wr off width v => exact .inl ⟨off, width, v, rfl, hout⟩
  | rd off width t => exact .inr (.inl ⟨off, width, t, rfl, hout⟩)
  | bindIn bytes =>
    obtain hp | hlong := hout
    · exact .inr (.inr (.inl ⟨hp, .inl ⟨bytes, rfl⟩⟩))
    · exact .inr (.inr (.inr ⟨bytes, rfl, hlong⟩))
  | bindOut => exact .inr (.inr (.inl ⟨hout, .inr (.inl rfl)⟩))
  | usable x y => exact .inr (.inr (.inl ⟨hout, .inr (.inr ⟨x, y, rfl⟩)⟩))
  | readOut | beq _ _ _ _ | bne _ _ _ _ | halt | hardReset => exact hout.elim

/-- Settles O10: the host's step on its turn, the listed and the drawn turns, and the end of every wait. -/
theorem hostMovesInTurn : Obligations.HostMovesInTurn := by
  refine ⟨fun s h => step_host, fun s a rest => turn_listed, fun s hnone => ?_, fun s w => waitEnds⟩
  obtain ⟨hturn, hnext⟩ := turn_drawn hnone
  exact ⟨hturn.trans (drawnRound_headD s.rounds), hnext⟩

end Sys2Proof.Machine
end

section
/-! SUPPORT. Illegal command words, from the word to its completion (spec/30_encoding.md R114 to R116), and host programs:
the branches, and the records that `run OP` makes while it polls STATUS (R118 to R120). -/

namespace Sys2Proof

/-! ## Words that do not decode -/

/-- The reserved-bits check rejects before the opcode is looked at (R114). -/
theorem decode_reservedBits {w : Word} (h : w.extractLsb' 8 24 ≠ 0#24) : decode w = .error .reservedBits := by
  rw [decode, if_neg fun hclear => h ((reservedClear_iff w).1 hclear)]

/-- A word with RSV = 0 whose opcode maps to a command is that command's word (R111, R113). -/
theorem encode_of_commandOf {w : Word} {i : Instr} (h : w.extractLsb' 8 24 = 0#24)
    (hi : commandOf (opcodeField w) = some i) : encode i = w := by
  rw [encode, opcode_of_commandOf hi, word_of_opcode h]

/-- A word with RSV = 0 that is no command's word has an opcode outside the map (R115). -/
theorem decode_badOpcode {w : Word} (h : w.extractLsb' 8 24 = 0#24) (hno : ∀ i, encode i ≠ w) :
    decode w = .error .badOpcode := by
  rw [decode, if_pos ((reservedClear_iff w).2 h)]
  cases hi : commandOf (opcodeField w) with
  | none => rfl
  | some i => exact absurd (encode_of_commandOf h hi) (hno i)

end Sys2Proof

namespace Sys2Proof.Machine

/-! ## The core's step -/

/-- The core's step runs when a command is pending and the host has no step or the turn is the core's (R95, R249). -/
theorem step_core {s : State} {w : Word} (hw : s.pending = some w) (hturn : s.hostMove = none ∨ s.turn = .core) :
    step s = .next (finishBody (bodyOfWord w s.nextTurn)) := by
  obtain ⟨hidle, -⟩ | ⟨w', hw', -, e⟩ | ⟨h, hmove, hhost, -⟩ := step_cases (s := s) rfl
  · exact nomatch hw.symm.trans hidle
  · cases hw.symm.trans hw'
    exact e
  · obtain hnone | hcore := hturn
    · exact nomatch hmove.symm.trans hnone
    · obtain hidle | hturn := hhost
      · exact nomatch hw.symm.trans hidle
      · exact nomatch hcore.symm.trans hturn

/-- Each illegal outcome of decoding has a cause of ILLEGAL_COMMAND (R263). -/
theorem causeOfIllegal_code (e : Illegal) : (causeOfIllegal e).code = .illegalCommand := by cases e <;> rfl

/-- The core step on a word that does not decode is its illegal completion and nothing else (R114 to R116, R249). -/
theorem step_illegal {s : State} {w : Word} {e : Illegal} (hw : s.pending = some w)
    (hturn : s.hostMove = none ∨ s.turn = .core) (he : decode w = .error e) :
    step s = .next (s.nextTurn.completed .illegalCommand (causeOfIllegal e) (w.setWidth 64)) := by
  have hbody : bodyOfWord w s.nextTurn = .error (causeOfIllegal e, s.nextTurn) := by rw [bodyOfWord, he]
  have hpending : s.nextTurn.pending = some w := hw
  rw [step_core hw hturn, hbody, finishBody_illegal (causeOfIllegal_code e) hpending]

/-- The core's step on any word ends the command and leaves the host. -/
theorem step_core_completes {s : State} {w : Word} (hw : s.pending = some w)
    (hturn : s.hostMove = none ∨ s.turn = .core) : ∃ t, step s = .next t ∧ t.pending = none ∧ t.host = s.host := by
  refine ⟨_, step_core hw hturn, ?_⟩
  rw [finishBody_eq, State.finish_pending, State.finish_host, bodyOfWord]
  cases decode w with
  | ok i => exact ⟨rfl, (bodyOf_keeps i s.nextTurn).1.host⟩
  | error e => exact ⟨rfl, rfl⟩

/-! ## The host's branches -/

theorem execHost_beq (s : State) (t : Nat) (m v : Word) (target : Nat) :
    execHost (.beq t m v target) s = .next { s with host := { s.host with
      pc := if tempGet s.host.temps t &&& m = v then target else s.host.pc + 1 } } := by
  rw [execHost, hostBranch, State.tempTest]
  by_cases h : tempGet s.host.temps t &&& m = v <;> simp [h, State.hostJump, State.hostNext]

theorem execHost_bne (s : State) (t : Nat) (m v : Word) (target : Nat) :
    execHost (.bne t m v target) s = .next { s with host := { s.host with
      pc := if tempGet s.host.temps t &&& m = v then s.host.pc + 1 else target } } := by
  rw [execHost, hostBranch, State.tempTest]
  by_cases h : tempGet s.host.temps t &&& m = v <;> simp [h, State.hostJump, State.hostNext]

/-! ## One round of `wait` -/

/-- The step at the host's place in its program is its move, unless it is `halt`. -/
theorem hostMove_of_prog {s : State} {h : HostStep} (hprog : s.host.prog[s.host.pc]? = some h) (hhalt : h ≠ .halt) :
    s.hostMove = some h := by
  rw [State.hostMove, hprog]
  cases h
  case halt => exact absurd rfl hhalt
  all_goals rfl

/-- Masking with 1 leaves 0 exactly when bit 0 is 0. -/
theorem and_one_eq_zero_iff (v : Word) : v &&& 0x1#32 = 0x0#32 ↔ v.getLsbD 0 = false := by
  rw [BitVec.and_one_eq_setWidth_ofBool_getLsbD]
  cases v.getLsbD 0 <;> decide

/-- A read of STATUS gives BUSY in bit 0, while BUSY = 1 too, and changes no more than the count of free draws (R65). -/
theorem execHost_readStatus (s : State) (t : Nat) : ∃ (v : Word) (d : Nat), v.getLsbD 0 = s.busy ∧
    execHost (.rd 0x0C 4 t) s = .next ({ s with draws := d }.setTemp t v).hostNext := by
  have hbusy : s.statusWord.getLsbD 0 = s.busy := (statusWord_flags s).1
  by_cases hp : s.pending = none
  · exact ⟨s.statusWord, s.draws, hbusy, readsAs_register (r := .status) hp rfl⟩
  · exact ⟨mixFree statusFreeMask s.statusWord (Config.freeWord s.draws), s.draws + 1,
      (mixFree_status_defined _ _ (by decide) (by decide)).trans hbusy,
      drawsAs_busy (r := .status) hp (by decide) (by decide) rfl (by decide)⟩

/-- A write to CMD while BUSY = 0 is accepted, and the host goes on (R239). -/
theorem execHost_issue {s : State} (h : s.pending = none) (w : Word) :
    execHost (.wr 0x08 4 w) s = .next (s.accept w).hostNext := by
  have hidle : ¬ s.busy = true := fun hb => s.busy_iff.1 hb h
  rw [hostWrite_eq (by decide) (by decide), State.writeOffset]
  simp only [csrAt, State.csrWrite, State.issue, if_neg hidle]

/-- The host is at the first step of a `wait` on temporary `t`, which stands at index `k` of its program (R119). -/
structure State.AtWait (s : State) (k t : Nat) : Prop where
  pc : s.host.pc = k
  poll : s.host.prog[k]? = some (.rd 0x0C 4 t)
  test : s.host.prog[k + 1]? = some (.bne t 0x1#32 0x0#32 k)
  temps : tempsWf s.host.temps = true

/-- The next `m` steps are the host's, as far as turns decide it: the core has none, or `m` turns of the host are listed
before `rest`. -/
def State.HostFirst (s : State) (m : Nat) (rest : List Agent) : Prop :=
  s.pending = none ∨ s.turns = List.replicate m .host ++ rest

theorem State.HostFirst.turn {s : State} {m : Nat} {rest : List Agent} (h : s.HostFirst (m + 1) rest) :
    s.pending = none ∨ s.turn = .host :=
  h.imp id fun hl => (turn_listed hl).1

theorem State.HostFirst.nextTurn {s : State} {m : Nat} {rest : List Agent} (h : s.HostFirst (m + 1) rest) :
    s.nextTurn.HostFirst m rest :=
  h.imp id fun hl => congrArg State.turns (turn_listed hl).2

/-- A step of the host puts its record first. -/
theorem performedRecords_host {s t : State} {h : HostStep} (n : Nat) (hmove : s.hostMove = some h)
    (hturn : s.pending = none ∨ s.turn = .host) (e : execHost h s.nextTurn = .next t) :
    performedRecords (n + 1) s = h.record.toList ++ performedRecords n t := by
  rw [performedRecords_succ n ((step_host hmove hturn).trans e), hostMoving_host hturn, hmove]
  rfl

/-- A step of the core makes no record. -/
theorem performedRecords_core {s t : State} (n : Nat) (hp : s.pending ≠ none) (hturn : s.turn = .core)
    (e : step s = .next t) : performedRecords (n + 1) s = performedRecords n t := by
  rw [performedRecords_succ n e, hostMoving_core hp hturn]
  rfl

/-- One round of `wait` reads STATUS once, and goes back to its first step while BUSY = 1 (R119, R120). -/
theorem performedRecords_poll {s : State} {k t m : Nat} {rest : List Agent} (n : Nat) (hwait : s.AtWait k t)
    (hfirst : s.HostFirst (m + 2) rest) : ∃ u : State, performedRecords (n + 2) s = .r 0x0C :: performedRecords n u ∧
      u.pending = s.pending ∧ u.HostFirst m rest ∧ (s.pending ≠ none → u.AtWait k t) := by
  obtain ⟨rfl, hpoll, htest, htemps⟩ := hwait
  obtain ⟨v, d, hv, hread⟩ := execHost_readStatus s.nextTurn t
  have hrecords := performedRecords_host (n + 1) (hostMove_of_prog hpoll (by simp)) hfirst.turn hread
  generalize ha : ({ s.nextTurn with draws := d }.setTemp t v).hostNext = a at hrecords
  have hpending : a.pending = s.pending := by simp [← ha]
  have hhost : a.host = { s.host with pc := s.host.pc + 1, temps := tempSet s.host.temps t v } := by simp [← ha]
  have hfirstRead : a.HostFirst (m + 1) rest := by rw [← ha]; exact hfirst.nextTurn
  have hmove : a.hostMove = some (.bne t 0x1#32 0x0#32 s.host.pc) :=
    hostMove_of_prog (by rw [hhost]; exact htest) (by simp)
  have hbit : (tempGet a.host.temps t).getLsbD 0 = s.busy := by
    rw [hhost, tempGet_tempSet t t v htemps, if_pos rfl]
    exact hv
  have hback : s.pending ≠ none → ¬ tempGet a.host.temps t &&& 0x1#32 = 0x0#32 := fun hp => by
    rw [and_one_eq_zero_iff, hbit, s.busy_iff.2 hp]
    decide
  rw [hrecords, performedRecords_host n hmove hfirstRead.turn (execHost_bne ..)]
  refine ⟨_, rfl, hpending, hfirstRead.nextTurn, fun hp => ⟨if_neg (hback hp), ?_, ?_, ?_⟩⟩
  · simpa [hhost] using hpoll
  · simpa [hhost] using htest
  · simpa [hhost] using tempSet_wf t v htemps

/-! ## `wait` and `run` -/

/-- While a command is pending, `n` rounds of `wait` in the host's turns are `n` reads of STATUS. -/
theorem performedRecords_polls {s : State} {k t : Nat} {w : Word} {rest : List Agent} (n m : Nat)
    (hwait : s.AtWait k t) (hw : s.pending = some w) (hturns : s.turns = List.replicate (2 * n) .host ++ rest) :
    ∃ u : State, performedRecords (2 * n + m) s = List.replicate n (.r 0x0C) ++ performedRecords m u ∧
      u.pending = some w ∧ u.turns = rest ∧ u.AtWait k t := by
  induction n generalizing s with
  | zero => exact ⟨s, by simp, hw, hturns, hwait⟩
  | succ n ih =>
    have hp : s.pending ≠ none := Option.ne_none_iff_exists'.2 ⟨w, hw⟩
    obtain ⟨a, hrecords, hpending, hfirst, hback⟩ := performedRecords_poll (2 * n + m) hwait (.inr hturns)
    have hwa : a.pending = some w := hpending.trans hw
    obtain ⟨u, hu, hrest⟩ := ih (hback hp) hwa (hfirst.resolve_left (hpending ▸ hp))
    refine ⟨u, ?_, hrest⟩
    rw [show 2 * (n + 1) + m = 2 * n + m + 2 by omega, hrecords, hu]
    rfl

/-- `wait`, when the core moves after `n` rounds: the last round finds BUSY = 0 (R119, R120). -/
theorem performedRecords_wait {s : State} {k t : Nat} {w : Word} {rest : List Agent} (n : Nat) (hwait : s.AtWait k t)
    (hw : s.pending = some w) (hturns : s.turns = List.replicate (2 * n) .host ++ .core :: rest) :
    performedRecords (2 * n + 3) s = List.replicate (n + 1) (.r 0x0C) := by
  obtain ⟨a, hpolls, hwa, hturnsA, hwaitA⟩ := performedRecords_polls n 3 hwait hw hturns
  have hcore : a.turn = .core := (turn_listed hturnsA).1
  obtain ⟨b, hstep, hidle, hhost⟩ := step_core_completes hwa (.inr hcore)
  have hwaitB : b.AtWait k t := by
    obtain ⟨hpc, hpoll, htest, htemps⟩ := hwaitA
    rw [← hhost] at hpc hpoll htest htemps
    exact ⟨hpc, hpoll, htest, htemps⟩
  obtain ⟨c, hlast, -⟩ := performedRecords_poll (m := 0) (rest := []) 0 hwaitB (.inl hidle)
  rw [hpolls, performedRecords_core 2 (Option.ne_none_iff_exists'.2 ⟨w, hwa⟩) hcore hstep, hlast, List.replicate_succ']
  rfl

/-- `run OP` from an idle block: the write to CMD, then the reads of STATUS, when the core moves after `n` rounds of the
`wait` (R119, R120). -/
theorem performedRecords_run {s : State} {k t : Nat} {w : Word} {rest : List Agent} (n : Nat)
    (hidle : s.pending = none) (hissue : s.host.prog[s.host.pc]? = some (.wr 0x08 4 w))
    (hwait : ((s.nextTurn.accept w).hostNext).AtWait k t)
    (hturns : s.turns = List.replicate (2 * n + 1) .host ++ .core :: rest) :
    performedRecords (2 * n + 4) s = .w 0x08 w :: List.replicate (n + 1) (.r 0x0C) := by
  have hlater : (s.nextTurn.accept w).hostNext.turns = List.replicate (2 * n) .host ++ .core :: rest := by
    rw [(turn_listed hturns).2]
    rfl
  rw [performedRecords_host (2 * n + 3) (hostMove_of_prog hissue (by simp)) (.inl hidle)
    (execHost_issue (s := s.nextTurn) hidle w), performedRecords_wait n hwait rfl hlater]
  rfl

/-! ## The statements -/

/-- Settles O9: the word does not decode, and `step_illegal` is its completion. -/
theorem illegalWordsComplete : Obligations.IllegalWordsComplete := by
  intro s w hw hturn
  exact ⟨fun hreserved => step_illegal hw hturn (decode_reservedBits hreserved),
    fun hclear hno => step_illegal hw hturn (decode_badOpcode hclear hno)⟩

/-- Settles O59: the branches by `execHost_beq` and `execHost_bne`, the forms and the encoding by their definitions, and
R120's example by `performedRecords_run`. -/
theorem hostProgramForms : Obligations.HostProgramForms := by
  refine ⟨fun s t target m v => ⟨execHost_beq s t m v target, execHost_bne s t m v target⟩, fun _ => rfl,
    fun _ _ => rfl, fun _ _ _ => rfl, rfl, fun _ _ _ => rfl, encodeProgram_append, ?_, rfl, ?_⟩
  · intro off width t target m v bytes x y
    exact ⟨rfl, rfl, rfl, rfl, rfl, rfl, rfl, rfl, rfl, rfl⟩
  · intro n input output x y
    exact performedRecords_run (k := 1) (t := 0) (rest := []) n rfl rfl ⟨rfl, rfl, rfl, rfl⟩ rfl

end Sys2Proof.Machine
end

section
/-! SUPPORT. The histogram and header commands: the statements on HIST_CLEAR, HIST_ACCUM, HDR_EMIT and HDR_LOAD
(spec/40_histogram.md R133 to R137). -/

namespace Sys2Proof.Machine

/-! ## A command's outcome from its body's -/

/-- A command whose body succeeds completes with OK in the state the body ends in (R266). -/
theorem exec_of_bodyOf_ok {i : Instr} {s t : State} (h : bodyOf i s = .ok t) : exec i s = .next t.completedOk := by
  rw [exec_eq, h, finishBody_ok]

/-- A command whose body raises a cause of INVALID_ARGUMENTS completes with it in the state the body ends in (R266). -/
theorem exec_of_bodyOf_invalid {i : Instr} {s t : State} {c : Cause} (hc : c.code = .invalidArguments)
    (h : bodyOf i s = .error (c, t)) : exec i s = .next (t.completedInvalid c) := by
  rw [exec_eq, h, finishBody_invalid t hc]

/-! ## HIST_ACCUM -/

/-- The counting loop adds the occurrences of each byte modulo 2^64 (R135). -/
theorem toNat_freqAt_foldl_countByte (xs : List Byte) (f : FreqTable) (b : Byte) :
    (freqAt (xs.foldl countByte f) b).toNat = ((freqAt f b).toNat + xs.count b) % 2 ^ 64 := by
  rw [freqAt_foldl_countByte, BitVec.toNat_add, BitVec.toNat_ofNat, Nat.add_mod_mod]

theorem bodyOf_histAccum {s : State} (hin : s.inUsable = true) (hptr : s.inPtr.toNat ≤ s.input.length) :
    bodyOf .histAccum s = .ok { s with
      freq := s.remaining.foldl countByte s.freq, inPtr := BitVec.ofNat 64 s.input.length
      treeValid := false, codeValid := false } := by
  rw [bodyOf, if_pos hin, accumHistogram_eq, State.advance, s.advance_remaining hptr]

/-! ## HDR_EMIT -/

theorem exec_hdrEmit {s : State} (hout : s.outUsable = true) :
    exec .hdrEmit s = .next ({ s with
      output := s.output ++ headerOf s.lHdrBe s.freq, outCnt := s.outCnt + 2048#64 } : State).completedOk := by
  apply exec_of_bodyOf_ok
  rw [bodyOf, if_pos hout, emitHeader, State.outWriteAll, length_headerOf]

/-! ## HDR_LOAD -/

/-- A remainder shorter than a header is consumed and reported (R137). -/
theorem loadHeader_short {s : State} (h : s.input.length - s.inPtr.toNat < 2048) :
    loadHeader s = .error (.hdrShort, { s with inPtr := BitVec.ofNat 64 s.input.length }) :=
  if_pos h

/-- A remainder of at least a header gives the table (R137). -/
theorem loadHeader_full {s : State} (h : 2048 ≤ s.input.length - s.inPtr.toNat) :
    loadHeader s = .ok { s with freq := freqOfHeader s.lHdrBe s.remaining, inPtr := s.inPtr + 2048#64
                                treeValid := false, codeValid := false } :=
  if_neg (Nat.not_lt.2 h)

theorem exec_hdrLoad_full {s : State} (hin : s.inUsable = true) (h : 2048 ≤ s.input.length - s.inPtr.toNat) :
    exec .hdrLoad s = .next ({ s with
      freq := freqOfHeader s.lHdrBe s.remaining, inPtr := s.inPtr + 2048#64
      treeValid := false, codeValid := false } : State).completedOk := by
  apply exec_of_bodyOf_ok
  rw [bodyOf, if_pos hin, loadHeader_full h]

/-- Byte k of count b of a remainder that holds a header is at its place in the input (R85, R133). -/
theorem freqOfHeader_remaining_byte {s : State} (be : Bool) (h : 2048 ≤ s.input.length - s.inPtr.toNat) (b : Byte)
    {k : Nat} (hk : k < 8) : s.input[s.inPtr.toNat + 8 * b.toNat + k]? =
      some ((freqAt (freqOfHeader be s.remaining) b).extractLsb' (headerBytePos be k) 8) := by
  rw [← freqOfHeader_byte be s.remaining b hk (by rwa [State.remaining_length]), State.remaining, List.getElem?_drop,
    Nat.add_assoc]

/-! ## The statements -/

/-- Settles O20: HIST_CLEAR's body is `clearHistogram`, whose table is `freqZero`. -/
theorem histClearCompletes : Obligations.HistClearCompletes := fun _ =>
  ⟨freqZero, freqAt_freqZero, exec_of_bodyOf_ok rfl⟩

/-- Settles O21: the table is the old one after counting each remaining byte. -/
theorem histAccumCounts : Obligations.HistAccumCounts := by
  intro s
  constructor
  · intro hin
    apply exec_of_bodyOf_invalid rfl
    simp [bodyOf, hin]
  · intro hin hptr _
    exact ⟨s.remaining.foldl countByte s.freq, toNat_freqAt_foldl_countByte s.remaining s.freq,
      exec_of_bodyOf_ok (bodyOf_histAccum hin hptr)⟩

/-- Settles O23: the bytes appended are `headerOf` of the table, and `headerOf_getElem?` gives each by its place. -/
theorem hdrEmitWritesHeader : Obligations.HdrEmitWritesHeader := by
  intro s
  constructor
  · intro hout
    apply exec_of_bodyOf_invalid rfl
    simp [bodyOf, hout]
  · intro hout
    exact ⟨headerOf s.lHdrBe s.freq, length_headerOf _ _, fun b _ hk => headerOf_getElem? s.lHdrBe s.freq b hk,
      exec_hdrEmit hout⟩

/-- Settles O24: the handle check, then the two outcomes of `loadHeader`. -/
theorem hdrLoadReadsHeader : Obligations.HdrLoadReadsHeader := by
  intro s
  refine ⟨?_, ?_, ?_⟩
  · intro hin
    apply exec_of_bodyOf_invalid rfl
    simp [bodyOf, hin]
  · intro hin hshort
    apply exec_of_bodyOf_invalid rfl
    rw [bodyOf, if_pos hin, loadHeader_short hshort]
  · intro hin hfull
    exact ⟨freqOfHeader s.lHdrBe s.remaining, fun b _ hk => freqOfHeader_remaining_byte s.lHdrBe hfull b hk,
      exec_hdrLoad_full hin hfull⟩

/-- Settles O25: the emitted bytes are `headerOf` of the table, which `freqOfHeader` inverts. -/
theorem headerLoadsBack : Obligations.HeaderLoadsBack := by
  intro s u t rest hout hempty hemit hin hbe hdrop
  have htout : t.output = headerOf s.lHdrBe u.freq := by
    cases hemit.symm.trans (exec_hdrEmit hout)
    show u.output ++ headerOf u.lHdrBe u.freq = headerOf s.lHdrBe u.freq
    rw [hempty, List.nil_append, hbe]
  have hrem : s.remaining = headerOf s.lHdrBe u.freq ++ rest := by rw [State.remaining, hdrop, htout]
  have hfull : 2048 ≤ s.input.length - s.inPtr.toNat := by
    rw [← State.remaining_length, hrem, List.length_append, length_headerOf]
    exact Nat.le_add_right 2048 rest.length
  rw [exec_hdrLoad_full hin hfull, hrem, freqOfHeader_headerOf]

end Sys2Proof.Machine
end

section
/-! SUPPORT. The tree builder: the statements on TREE_BUILD and its arena (spec/41_tree.md R151 to R156). -/

namespace Sys2Proof.Machine

/-! ## The outcomes of TREE_BUILD's body -/

/-- Counts that sum to 2^64 or more leave no arena (R153). -/
theorem buildTree_overflow {s : State} (h : 2 ^ 64 ≤ totalCount s.freq) :
    buildTree s = .error (.weightOverflow, { s with arena := [], treeValid := false, codeValid := false }) :=
  if_pos (decide_eq_true h)

/-- Counts that sum to less than 2^64 give the arena of FREQ (R153). -/
theorem buildTree_fits {s : State} (h : totalCount s.freq < 2 ^ 64) :
    buildTree s = .ok { s with arena := buildArena s.freq, treeValid := true, codeValid := false } :=
  if_neg (by rw [totalOvf, decide_eq_true_iff]; exact Nat.not_le.2 h)

/-! ## The order of the symbols -/

theorem allBytes_sorted : allBytes.Pairwise (· < ·) := by
  rw [allBytes, List.pairwise_map]
  apply List.pairwise_lt_range.imp_of_mem
  intro x y hx hy hlt
  have hx' : x < 256 := List.mem_range.1 hx
  have hy' : y < 256 := List.mem_range.1 hy
  rw [BitVec.lt_def, BitVec.toNat_ofNat, BitVec.toNat_ofNat, Nat.mod_eq_of_lt hx', Nat.mod_eq_of_lt hy']
  exact hlt

/-- The symbols ascend (R151). -/
theorem symbolsOf_sorted (f : FreqTable) : (symbolsOf f).Pairwise (· < ·) := allBytes_sorted.filter _

theorem symbolsOf_lt {f : FreqTable} {i j : Nat} {a b : Byte} (hij : i < j) (ha : (symbolsOf f)[i]? = some a)
    (hb : (symbolsOf f)[j]? = some b) : a < b := by
  obtain ⟨hi, rfl⟩ := List.getElem?_eq_some_iff.1 ha
  obtain ⟨hj, rfl⟩ := List.getElem?_eq_some_iff.1 hb
  exact List.pairwise_iff_getElem.1 (symbolsOf_sorted f) i j hi hj hij

/-! ## The children of a joined node -/

theorem joinNode_left_toNat (arena : List Node) {a : Nat} (b : Nat) (ha : a < 512) :
    (joinNode arena a b).left.toNat = a := toNat_ofNat9 ha

theorem joinNode_right_toNat (arena : List Node) (a : Nat) {b : Nat} (hb : b < 512) :
    (joinNode arena a b).right.toNat = b := toNat_ofNat9 hb

/-! ## The statements -/

/-- Settles O26: the body's two outcomes, by whether the counts sum to 2^64. -/
theorem treeBuildCompletes : Obligations.TreeBuildCompletes := fun _ =>
  ⟨fun hovf => exec_of_bodyOf_invalid rfl (buildTree_overflow hovf),
    fun hfits => exec_of_bodyOf_ok (buildTree_fits hfits)⟩

/-- Settles O27: membership and order of the symbols, and the leaves that stay first in the arena. -/
theorem leavesInSymbolOrder : Obligations.LeavesInSymbolOrder := fun f =>
  ⟨mem_symbolsOf f, fun _ _ _ _ => symbolsOf_lt, fun _ _ => buildArena_leaf⟩

/-- Settles O28: the merge loop's count of nodes, and each node's sequence id and kind. -/
theorem arenaShape : Obligations.ArenaShape := fun _ =>
  ⟨buildArena_empty, length_buildArena, fun _ hi => ⟨buildArena_seq_toNat hi, buildArena_kind hi⟩⟩

/-- Settles O29: the merge at k names its two children, and its sum does not overflow. -/
theorem mergesTakeLeastKeys : Obligations.MergesTakeLeastKeys := by
  intro f ht k hn hk
  have hsum := (buildArena_sums ht hk).2 ((buildArena_kind hk).2 hn)
  obtain ⟨a, b, hjoin, hak, hbk, hab, hava, havb, hleast, hnext⟩ := buildArena_merge hn hk
  have hlen := length_buildArena_le f
  have hleft : (nodeAt (buildArena f) k).left.toNat = a := by
    rw [hjoin, joinNode_left_toNat _ _ (by omega)]
  have hright : (nodeAt (buildArena f) k).right.toNat = b := by
    rw [hjoin, joinNode_right_toNat _ _ (by omega)]
  rw [hleft, hright] at hsum
  exact ⟨a, b, hleft, hright, hab, hava, havb, hleast, hnext, hsum⟩

end Sys2Proof.Machine
end

section
/-! SUPPORT. The code table generator: the statements on CODE_GEN and the codes it makes (spec/42_codegen.md R171 to
R173). -/

namespace Sys2Proof.Machine

/-! ## The outcomes of CODE_GEN's body -/

/-- A command whose body raises a cause of SEQUENCE_ERROR completes with it, INFO being the command word (R265, R266).
-/
theorem exec_of_bodyOf_sequence {i : Instr} {s t : State} {c : Cause} {w : Word} (hc : c.code = .sequenceError)
    (hw : t.pending = some w) (h : bodyOf i s = .error (c, t)) :
    exec i s = .next (t.completed .sequenceError c (w.setWidth 64)) := by
  rw [exec_eq, h, finishBody_sequence hc hw]

/-- With a valid tree the code table is that of ARENA (R171). -/
theorem genCodes_validTree {s : State} (h : s.treeValid = true) :
    genCodes s = .ok { s with codes := codesOf s.arena, codeValid := true } := if_pos h

/-- Without a valid tree nothing changes (R171). -/
theorem genCodes_noTree {s : State} (h : s.treeValid = false) : genCodes s = .error (.noTree, s) :=
  if_neg (Bool.eq_false_iff.1 h)

/-! ## The degenerate alphabets -/

/-- The code table of the empty alphabet is empty (R173). -/
theorem codesOf_noSymbols {f : FreqTable} (h : (symbolsOf f).length = 0) :
    codesOf (buildArena f) = codesEmpty := by
  rw [buildArena_empty h, codesOf, List.length_nil, if_pos rfl]

/-- With a single symbol no other byte has a code (R173). -/
theorem codeAt_single_other {f : FreqTable} {b c : Byte} (h : symbolsOf f = [b]) (hcb : c ≠ b) :
    codeAt (codesOf (buildArena f)) c = [] := by
  have hnot : c ∉ symbolsOf f := by rwa [h, List.mem_singleton]
  rw [mem_symbolsOf, not_not] at hnot
  exact codeAt_no_symbol hnot

/-! ## The statements -/

/-- Settles O32: the path is the one to the symbol's leaf, which stands in ARENA at the symbol's place. -/
theorem codesArePaths : Obligations.CodesArePaths := by
  intro f b hn hb
  obtain ⟨j, hj⟩ := List.getElem?_of_mem ((mem_symbolsOf f b).2 hb)
  exact ⟨j, freqAt f b, BitVec.ofNat 9 j, codeAt_eq_path hn hj, buildArena_leaf hj⟩

/-- Settles O33: the table of no symbols, and of one symbol its own code and that of every other byte. -/
theorem degenerateCodes : Obligations.DegenerateCodes := by
  intro f
  constructor
  · intro hnone b
    rw [codesOf_noSymbols hnone, codeAt_codesEmpty]
  · intro b hone
    exact ⟨codeAt_single hone, fun _ => codeAt_single_other hone⟩

/-- Settles O31: the body's two outcomes, by TREE_VALID. -/
theorem codeGenCompletes : Obligations.CodeGenCompletes := fun _ =>
  ⟨fun hvalid => exec_of_bodyOf_ok (genCodes_validTree hvalid),
    fun _ hnone hpending => exec_of_bodyOf_sequence rfl hpending (genCodes_noTree hnone)⟩

end Sys2Proof.Machine
end

section
/-! SUPPORT. The packer: the statements on PACK (spec/43_bitpack.md R186 to R189), and the checks of PACK and UNPACK
(R187, R190). -/

namespace Sys2Proof.Machine

/-! ## Streams and payloads -/

/-- Reading all of the input and appending to the output: IN_PTR is IN_LEN (R90, R91). -/
theorem State.readAll_outWriteAll {s : State} (hptr : s.inPtr.toNat ≤ s.input.length) (bs : List Byte) :
    (s.advance s.remaining.length).outWriteAll bs = { s with
      inPtr := BitVec.ofNat 64 s.input.length, output := s.output ++ bs
      outCnt := s.outCnt + BitVec.ofNat 64 bs.length } := by
  rw [State.outWriteAll, State.advance, s.advance_remaining hptr]

/-- Reading `k` bytes and appending `n` times the same byte (R90, R91). -/
theorem State.advance_outWriteAll_replicate (s : State) (k n : Nat) (b : Byte) :
    (s.advance k).outWriteAll (List.replicate n b) = { s with
      inPtr := s.inPtr + BitVec.ofNat 64 k, output := s.output ++ List.replicate n b
      outCnt := s.outCnt + BitVec.ofNat 64 n } := by
  rw [State.outWriteAll, List.length_replicate, State.advance]

/-- A payload has as many bytes as its bits need (R189). -/
theorem PayloadOf.length_eq {p : List Byte} {bits : Bits} (h : PayloadOf p bits) :
    p.length = (bits.length + 7) / 8 := by
  obtain ⟨pad, hpad, hbits⟩ := h
  have hlen := congrArg List.length hbits
  rw [length_payloadBits, List.length_append] at hlen
  omega

theorem PayloadOf.eq_nil {p : List Byte} (h : PayloadOf p []) : p = [] :=
  List.length_eq_zero_iff.1 h.length_eq

/-! ## The checks -/

/-- PACK whose checks pass runs the encoding loop (R187). -/
theorem bodyOf_pack {s : State} (hin : s.inUsable = true) (hout : s.outUsable = true) (hcode : s.codeValid = true) :
    bodyOf .pack s = packRemaining s := by
  simp [bodyOf, hin, hout, hcode]

/-- UNPACK whose checks pass runs the decoder (R190). -/
theorem bodyOf_unpack {s : State} (hin : s.inUsable = true) (hout : s.outUsable = true) (htree : s.treeValid = true) :
    bodyOf .unpack s = unpackRemaining s := by
  simp [bodyOf, hin, hout, htree]

/-- The input handle is the first check of PACK and UNPACK (R187, R190, R267). -/
theorem bodyOf_packUnpack_inUnusable {i : Instr} {s : State} (hi : i = .pack ∨ i = .unpack)
    (hin : s.inUsable = false) : bodyOf i s = .error (.inUnusable, s) := by
  rcases hi with rfl | rfl <;> simp [bodyOf, hin]

/-- The output handle is the second check of PACK and UNPACK (R187, R190, R267). -/
theorem bodyOf_packUnpack_outUnusable {i : Instr} {s : State} (hi : i = .pack ∨ i = .unpack)
    (hin : s.inUsable = true) (hout : s.outUsable = false) : bodyOf i s = .error (.outUnusable, s) := by
  rcases hi with rfl | rfl <;> simp [bodyOf, hin, hout]

/-- With both handles usable, PACK needs a valid code table (R187, R267). -/
theorem bodyOf_pack_noCodeTable {s : State} (hin : s.inUsable = true) (hout : s.outUsable = true)
    (hcode : s.codeValid = false) : bodyOf .pack s = .error (.noCodeTable, s) := by
  simp [bodyOf, hin, hout, hcode]

/-- With both handles usable, UNPACK needs a valid tree (R190, R267). -/
theorem bodyOf_unpack_noTree {s : State} (hin : s.inUsable = true) (hout : s.outUsable = true)
    (htree : s.treeValid = false) : bodyOf .unpack s = .error (.noTree, s) := by
  simp [bodyOf, hin, hout, htree]

/-! ## The statements -/

/-- Settles O35: each check of the two bodies raises its cause in the state it started from. -/
theorem packAndUnpackChecksInOrder : Obligations.PackAndUnpackChecksInOrder := by
  intro s w hpending
  constructor
  · intro i hi
    exact ⟨fun hin => exec_of_bodyOf_invalid rfl (bodyOf_packUnpack_inUnusable hi hin),
      fun hin hout => exec_of_bodyOf_invalid rfl (bodyOf_packUnpack_outUnusable hi hin hout)⟩
  · intro hin hout
    exact ⟨fun hcode => exec_of_bodyOf_sequence rfl hpending (bodyOf_pack_noCodeTable hin hout hcode),
      fun htree => exec_of_bodyOf_sequence rfl hpending (bodyOf_unpack_noTree hin hout htree)⟩

/-- Settles O36: the encoding loop from the empty accumulator, over bytes that all have codes. -/
theorem packWritesPayload : Obligations.PackWritesPayload := by
  intro s hin hout hcode hptr _ hall
  obtain ⟨p, k, hrun, hk, hbits⟩ := packBytes_spec s.remaining [] s (by decide) hall
  rw [List.nil_append] at hbits
  have hpayload : PayloadOf p (codeBits s.codes s.remaining) :=
    ⟨List.replicate k false, by rwa [List.length_replicate], hbits⟩
  refine ⟨p, k, hk, hbits, hpayload.length_eq, exec_of_bodyOf_ok ?_⟩
  rw [bodyOf_pack hin hout hcode, packRemaining, ← Packer.holding_nil, hrun, State.readAll_outWriteAll hptr]

/-- Settles O37: the encoding loop keeps the whole bytes and drops the bits still held, fewer than 8. -/
theorem packStopsAtUncodedByte : Obligations.PackStopsAtUncodedByte := by
  intro s xs ys b hin hout hcode hdrop hxs hb
  obtain ⟨p, held, hrun, hheld, hbits⟩ := packBytes_noCode xs ys b [] s (by decide) hxs hb
  rw [List.nil_append] at hbits
  have hlen := congrArg List.length hbits
  rw [List.length_append, length_payloadBits] at hlen
  refine ⟨p, by omega, ⟨held, hbits⟩, exec_of_bodyOf_invalid rfl ?_⟩
  rw [bodyOf_pack hin hout hcode, packRemaining, State.remaining, hdrop, ← Packer.holding_nil, hrun]
  rfl

end Sys2Proof.Machine
end

section
/-! SUPPORT. The unpacker: the statements on UNPACK in its three modes (spec/43_bitpack.md R190 to R196). -/

namespace Sys2Proof.Machine

/-! ## The decoder that L.DEC_MODE selects -/

/-- The mode whose end condition is `tail` (R190, R192). -/
def Tail.mode : Tail → DecMode
  | .byte => .legacyByte
  | .bit => .legacyBit

@[simp] theorem Tail.accepts_byte (last lastBit : Bool) : Tail.byte.accepts last lastBit = last := rfl
@[simp] theorem Tail.accepts_bit (last lastBit : Bool) : Tail.bit.accepts last lastBit = (last && lastBit) := rfl

/-- Before the last payload byte neither end condition is met (R192). -/
@[simp] theorem Tail.accepts_not_last (tail : Tail) (lastBit : Bool) : tail.accepts false lastBit = false := by
  cases tail <;> rfl

theorem unpackRemaining_exact {s : State} (h : s.lDecMode = .exact) :
    unpackRemaining s = unpackExact (totalCount s.freq) (distinctCount s.freq) s := by
  rw [unpackRemaining, h]

theorem unpackRemaining_legacy {s : State} {tail : Tail} (h : s.lDecMode = tail.mode) :
    unpackRemaining s = unpackLegacy tail (totalCount s.freq) (distinctCount s.freq) s := by
  cases tail <;> rw [unpackRemaining, h] <;> rfl

theorem decMode_eq_exact_or_tail (m : DecMode) : m = .exact ∨ ∃ tail : Tail, m = tail.mode := by
  cases m with
  | exact => exact .inl rfl
  | legacyByte => exact .inr ⟨.byte, rfl⟩
  | legacyBit => exact .inr ⟨.bit, rfl⟩

/-! ## No symbol -/

section NoSymbol

variable {s : State} (hnone : symbolsOf s.freq = [])
include hnone

theorem distinctCount_noSymbol : distinctCount s.freq = 0 := by
  rw [distinctCount_eq, hnone, List.length_nil]

/-- With no symbol every mode accepts an empty payload (R191, R192). -/
theorem unpackRemaining_noSymbol_empty (hrem : s.remaining = []) : unpackRemaining s = .ok s := by
  obtain hm | ⟨tail, hm⟩ := decMode_eq_exact_or_tail s.lDecMode
  · rw [unpackRemaining_exact hm, unpackExact, if_pos (distinctCount_noSymbol hnone), hrem]
    rfl
  · rw [unpackRemaining_legacy hm, unpackLegacy_empty hrem]

/-- With no symbol every mode rejects a payload and reads nothing of it (R191, R192). -/
theorem unpackRemaining_noSymbol_trailing (hrem : s.remaining ≠ []) :
    unpackRemaining s = .error (.trailing, s) := by
  have hemp : s.remaining.isEmpty = false := List.isEmpty_eq_false_iff.2 hrem
  obtain hm | ⟨tail, hm⟩ := decMode_eq_exact_or_tail s.lDecMode
  · rw [unpackRemaining_exact hm, unpackExact, if_pos (distinctCount_noSymbol hnone), hemp]
    rfl
  · rw [unpackRemaining_legacy hm, unpackLegacy, hemp, if_pos (distinctCount_noSymbol hnone)]
    rfl

end NoSymbol

/-! ## One symbol -/

section OneSymbol

variable {s : State} {b : Byte} (ha : s.arena = buildArena s.freq) (hone : symbolsOf s.freq = [b])
include hone

theorem totalCount_pos_of_single : 0 < totalCount s.freq :=
  totalCount_pos_of_symbol s.freq ((mem_symbolsOf s.freq b).1 (hone ▸ List.mem_singleton.2 rfl))

theorem remaining_ne_nil_of_single (hle : totalCount s.freq ≤ 8 * s.remaining.length) : s.remaining ≠ [] := by
  have hpos := totalCount_pos_of_single hone
  rintro hnil
  rw [hnil, List.length_nil] at hle
  omega

include ha

/-- One symbol and fewer bits than `total`: TRUNCATED after one symbol a bit (R191, R192, R194). -/
theorem unpackRemaining_one_truncated (hlt : 8 * s.remaining.length < totalCount s.freq)
    (hne : s.lDecMode = .exact ∨ s.remaining ≠ []) :
    unpackRemaining s = .error (.truncated,
      (s.advance s.remaining.length).outWriteAll (List.replicate (8 * s.remaining.length) b)) := by
  obtain hm | ⟨tail, hm⟩ := decMode_eq_exact_or_tail s.lDecMode
  · rw [unpackRemaining_exact hm, unpackExact_one ha hone, if_pos hlt]
  · have hrem : s.remaining ≠ [] := hne.resolve_left (by rw [hm]; cases tail <;> decide)
    rw [unpackRemaining_legacy hm, unpackLegacy_one tail ha hone hrem, if_pos hlt]

/-- One symbol and whole bytes after the one in which `total` is reached: TRAILING (R191, R192, R194). -/
theorem unpackRemaining_one_trailing (hle : totalCount s.freq + 8 ≤ 8 * s.remaining.length) :
    unpackRemaining s = .error (.trailing,
      (s.advance ((totalCount s.freq + 7) / 8)).outWriteAll (List.replicate (totalCount s.freq) b)) := by
  have henough : ¬ 8 * s.remaining.length < totalCount s.freq := by omega
  have hmore : ¬ 8 * s.remaining.length < totalCount s.freq + 8 := by omega
  obtain hm | ⟨tail, hm⟩ := decMode_eq_exact_or_tail s.lDecMode
  · rw [unpackRemaining_exact hm, unpackExact_one ha hone, if_neg henough, if_neg hmore]
  · rw [unpackRemaining_legacy hm, unpackLegacy_one tail ha hone (remaining_ne_nil_of_single hone (by omega)),
      if_neg henough, decide_eq_false hmore, Tail.accepts_not_last, if_neg Bool.false_ne_true]

/-- One symbol under EXACT, with `total` reached in the last byte (R191, R194). -/
theorem unpackExact_one_lastByte (hlt : 8 * s.remaining.length < totalCount s.freq + 8)
    (hle : totalCount s.freq ≤ 8 * s.remaining.length) :
    unpackExact (totalCount s.freq) (distinctCount s.freq) s =
      .ok ((s.advance s.remaining.length).outWriteAll (List.replicate (totalCount s.freq) b)) := by
  rw [unpackExact_one ha hone, if_neg (Nat.not_lt.2 hle), if_pos hlt,
    show (totalCount s.freq + 7) / 8 = s.remaining.length by omega]

/-- One symbol under UnpackLegacy, with `total` reached in the last byte: the end condition decides (R192, R194). -/
theorem unpackLegacy_one_lastByte (tail : Tail) (hlt : 8 * s.remaining.length < totalCount s.freq + 8)
    (hle : totalCount s.freq ≤ 8 * s.remaining.length) :
    unpackLegacy tail (totalCount s.freq) (distinctCount s.freq) s =
      if tail.accepts true (totalCount s.freq % 8 == 0) then
        .ok ((s.advance s.remaining.length).outWriteAll (List.replicate (totalCount s.freq) b))
      else .error (.trailing,
        (s.advance s.remaining.length).outWriteAll (List.replicate (totalCount s.freq) b)) := by
  rw [unpackLegacy_one tail ha hone (remaining_ne_nil_of_single hone hle), if_neg (Nat.not_lt.2 hle),
    decide_eq_true hlt, show (totalCount s.freq + 7) / 8 = s.remaining.length by omega]

/-- One symbol and `total` reached in the last byte: accepted, in LEGACY_BIT at its last bit only (R191, R192). -/
theorem unpackRemaining_one_ok (hlt : 8 * s.remaining.length < totalCount s.freq + 8)
    (hle : totalCount s.freq ≤ 8 * s.remaining.length)
    (hmode : s.lDecMode ≠ .legacyBit ∨ totalCount s.freq = 8 * s.remaining.length) :
    unpackRemaining s =
      .ok ((s.advance s.remaining.length).outWriteAll (List.replicate (totalCount s.freq) b)) := by
  obtain hm | ⟨tail, hm⟩ := decMode_eq_exact_or_tail s.lDecMode
  · rw [unpackRemaining_exact hm, unpackExact_one_lastByte ha hone hlt hle]
  · rw [unpackRemaining_legacy hm, unpackLegacy_one_lastByte ha hone tail hlt hle, if_pos]
    cases tail with
    | byte => rfl
    | bit =>
      have hlast : totalCount s.freq % 8 = 0 := by
        have := hmode.resolve_left (not_not_intro hm)
        omega
      simp [hlast]

/-- One symbol and `total` reached in the last byte before its last bit: LEGACY_BIT rejects it (R192). -/
theorem unpackRemaining_one_bit_trailing (hlt : 8 * s.remaining.length < totalCount s.freq + 8)
    (hle : totalCount s.freq ≤ 8 * s.remaining.length) (hmode : s.lDecMode = .legacyBit)
    (hlast : totalCount s.freq ≠ 8 * s.remaining.length) :
    unpackRemaining s = .error (.trailing,
      (s.advance s.remaining.length).outWriteAll (List.replicate (totalCount s.freq) b)) := by
  have hmod : totalCount s.freq % 8 ≠ 0 := by omega
  rw [unpackRemaining_legacy (tail := .bit) hmode, unpackLegacy_one_lastByte ha hone .bit hlt hle, if_neg]
  simp [hmod]

end OneSymbol

/-! ## Payloads of all the counted symbols -/

section WholePayload

variable {s : State} {xs : List Byte} (hlen : xs.length = totalCount s.freq)

  (hx : ∀ x ∈ xs, freqAt s.freq x ≠ 0#64) (ha : s.arena = buildArena s.freq)
  (hp : PayloadOf s.remaining (codeBits (codesOf s.arena) xs))

include hx in
/-- With one symbol counted, the symbols are its occurrences (R173). -/
theorem eq_single_of_mem {b : Byte} (hone : symbolsOf s.freq = [b]) : ∀ x ∈ xs, x = b := by
  intro x hmem
  have hsym := (mem_symbolsOf s.freq x).2 (hx x hmem)
  rwa [hone, List.mem_singleton] at hsym

include hlen

theorem symbolsOf_eq_nil_of_nil (hxs : xs = []) : symbolsOf s.freq = [] := by
  rw [symbolsOf_eq_nil_iff, ← hlen, hxs, List.length_nil]

include hp

/-- No symbol is counted and the payload is empty: every mode accepts it (R191, R192). -/
theorem unpackRemaining_whole_nil (hxs : xs = []) :
    unpackRemaining s = .ok ((s.advance s.remaining.length).outWriteAll xs) := by
  rw [hxs, codeBits_nil] at hp
  rw [unpackRemaining_noSymbol_empty (symbolsOf_eq_nil_of_nil hlen hxs) hp.eq_nil, hp.eq_nil, hxs, List.length_nil,
    State.advance_zero, State.outWriteAll_nil]

include hx ha

/-- EXACT accepts every payload of all the symbols (R191, R196). -/
theorem unpackRemaining_exact_whole (hm : s.lDecMode = .exact) :
    unpackRemaining s = .ok ((s.advance s.remaining.length).outWriteAll xs) := by
  by_cases hxs : xs = []
  · exact unpackRemaining_whole_nil hlen hp hxs
  · rw [unpackRemaining_exact hm,
      unpackExact_finished (q := []) ha (List.append_nil _).symm hlen hx hxs hp, if_pos rfl]

/-- One symbol: a whole payload reaches `total` in its last byte, whose end condition decides (R192, R196). -/
theorem unpackLegacy_whole_one (tail : Tail) (hone : (symbolsOf s.freq).length = 1) :
    unpackLegacy tail (totalCount s.freq) (distinctCount s.freq) s =
      if tail.accepts true (xs.length % 8 == 0) then .ok ((s.advance s.remaining.length).outWriteAll xs)
      else .error (.trailing, (s.advance s.remaining.length).outWriteAll xs) := by
  obtain ⟨b, hb⟩ := List.length_eq_one_iff.1 hone
  have hsame := eq_single_of_mem hx hb
  have hxs : xs = List.replicate (totalCount s.freq) b := List.eq_replicate_iff.2 ⟨hlen, hsame⟩
  have hbytes := hp.length_eq
  rw [ha, length_codeBits_single hb hsame, hlen] at hbytes
  rw [unpackLegacy_one_lastByte ha hb tail (by omega) (by omega), hlen, ← hxs]

/-- Several symbols: a whole payload misses its last symbol when it has no pad bit, and else the end condition decides
(R192, R196). -/
theorem unpackLegacy_whole_several (tail : Tail) (hn : 2 ≤ (symbolsOf s.freq).length) :
    unpackLegacy tail (totalCount s.freq) (distinctCount s.freq) s =
      if (codeBits (codesOf s.arena) xs).length % 8 = 0 then
        .error (.truncated, (s.advance s.remaining.length).outWriteAll xs.dropLast)
      else if tail.accepts true ((codeBits (codesOf s.arena) xs).length % 8 == 7) then
        .ok ((s.advance s.remaining.length).outWriteAll xs)
      else .error (.trailing, (s.advance s.remaining.length).outWriteAll xs) := by
  rw [unpackLegacy_payload (q := []) tail ha hn (List.append_nil _).symm hlen hx hp, if_pos rfl]
  rfl

end WholePayload

/-! ## Whole bytes after a payload -/

section Followed

variable {s : State} {xs p q : List Byte} (tail : Tail) (ha : s.arena = buildArena s.freq)
  (hn : 2 ≤ (symbolsOf s.freq).length) (hrem : s.remaining = p ++ q) (hq : q ≠ [])
  (hlen : xs.length = totalCount s.freq) (hx : ∀ x ∈ xs, freqAt s.freq x ≠ 0#64)
  (hp : PayloadOf p (codeBits (codesOf s.arena) xs))
include ha hn hrem hq hlen hx hp

/-- A pad bit recognises the last symbol, before the bytes that follow (R192). -/
theorem unpackLegacy_followed_padded (hpad : (codeBits (codesOf s.arena) xs).length % 8 ≠ 0) :
    unpackLegacy tail (totalCount s.freq) (distinctCount s.freq) s =
      .error (.trailing, (s.advance p.length).outWriteAll xs) := by
  rw [unpackLegacy_payload tail ha hn hrem hlen hx hp, if_neg hpad, List.isEmpty_eq_false_iff.2 hq,
    Tail.accepts_not_last, if_neg Bool.false_ne_true]

/-- Without a pad bit the first bit of the bytes that follow recognises the last symbol (R192). -/
theorem unpackLegacy_followed_unpadded (hpad : (codeBits (codesOf s.arena) xs).length % 8 = 0) :
    unpackLegacy tail (totalCount s.freq) (distinctCount s.freq) s =
      if tail.accepts (q.length == 1) false then .ok ((s.advance (p.length + 1)).outWriteAll xs)
      else .error (.trailing, (s.advance (p.length + 1)).outWriteAll xs) := by
  rw [unpackLegacy_payload tail ha hn hrem hlen hx hp, if_pos hpad, if_neg hq]

end Followed

/-! ## Outcomes of UNPACK -/

/-- UNPACK in a legacy mode, its checks passed, runs UnpackLegacy (R190, R192). -/
theorem bodyOf_unpack_legacy {s : State} {tail : Tail} (hin : s.inUsable = true) (hout : s.outUsable = true)
    (htree : s.treeValid = true) (hm : s.lDecMode = tail.mode) :
    bodyOf .unpack s = unpackLegacy tail (totalCount s.freq) (distinctCount s.freq) s :=
  (bodyOf_unpack hin hout htree).trans (unpackRemaining_legacy hm)

/-- UNPACK whose decoder reads all of the input and succeeds (R266). -/
theorem exec_unpack_readAll_ok {s : State} {bs : List Byte} (hptr : s.inPtr.toNat ≤ s.input.length)
    (h : bodyOf .unpack s = .ok ((s.advance s.remaining.length).outWriteAll bs)) :
    exec .unpack s = .next ({ s with
      inPtr := BitVec.ofNat 64 s.input.length, output := s.output ++ bs
      outCnt := s.outCnt + BitVec.ofNat 64 bs.length } : State).completedOk := by
  rw [exec_of_bodyOf_ok h, State.readAll_outWriteAll hptr]

/-- UNPACK whose decoder reads all of the input and fails (R266). -/
theorem exec_unpack_readAll_invalid {s : State} {bs : List Byte} {c : Cause} (hc : c.code = .invalidArguments)
    (hptr : s.inPtr.toNat ≤ s.input.length)
    (h : bodyOf .unpack s = .error (c, (s.advance s.remaining.length).outWriteAll bs)) :
    exec .unpack s = .next (({ s with
      inPtr := BitVec.ofNat 64 s.input.length, output := s.output ++ bs
      outCnt := s.outCnt + BitVec.ofNat 64 bs.length } : State).completedInvalid c) := by
  rw [exec_of_bodyOf_invalid hc h, State.readAll_outWriteAll hptr]

/-! ## The statements -/

/-- Settles O38: all the code bits are read from the root, and the pad bits are left. -/
theorem exactDecodesPayload : Obligations.ExactDecodesPayload := by
  intro s xs hin hout htree hm ha hptr _ hlen hx hp
  exact exec_unpack_readAll_ok hptr
    ((bodyOf_unpack hin hout htree).trans (unpackRemaining_exact_whole hlen hx ha hp hm))

/-- Settles O39: the bits end with symbols still to decode. -/
theorem exactReportsTruncation : Obligations.ExactReportsTruncation := by
  intro s ys part rest b hin hout htree hm ha hptr _ hlt hy hb hc hrest hp
  apply exec_unpack_readAll_invalid rfl hptr
  rw [bodyOf_unpack hin hout htree, unpackRemaining_exact hm]
  exact unpackExact_truncated ha rfl hlt hy hb hc hrest hp

/-- Settles O40: the last symbol ends in the last byte of `p`, which is not the last of the input. -/
theorem exactReportsTrailing : Obligations.ExactReportsTrailing := by
  intro s xs p q hin hout htree hm ha hlen hx hxs hq hdrop hp
  apply exec_of_bodyOf_invalid rfl
  rw [bodyOf_unpack hin hout htree, unpackRemaining_exact hm, unpackExact_finished ha hdrop hlen hx hxs hp, if_neg hq]
  rfl

/-- Settles O41: the decoder's body in each case of the payload's length, the mode deciding where it can. -/
theorem degenerateDecoding : Obligations.DegenerateDecoding := by
  intro s hin hout htree ha
  have hbody := bodyOf_unpack hin hout htree
  refine ⟨?_, ?_, ?_, ?_, ?_⟩
  · intro hnone hrem
    exact exec_of_bodyOf_ok (hbody.trans (unpackRemaining_noSymbol_empty hnone hrem))
  · intro hnone hrem
    exact exec_of_bodyOf_invalid rfl (hbody.trans (unpackRemaining_noSymbol_trailing hnone hrem))
  · intro b hone hlt hne
    rw [exec_of_bodyOf_invalid rfl (hbody.trans (unpackRemaining_one_truncated ha hone hlt hne)),
      State.advance_outWriteAll_replicate, State.remaining]
  · intro b hone hle
    rw [exec_of_bodyOf_invalid rfl (hbody.trans (unpackRemaining_one_trailing ha hone hle)),
      State.advance_outWriteAll_replicate]
  · intro b hone hlt hle
    constructor
    · intro hmode
      rw [exec_of_bodyOf_ok (hbody.trans (unpackRemaining_one_ok ha hone hlt hle hmode)),
        State.advance_outWriteAll_replicate, State.remaining]
    · intro hmode hlast
      rw [exec_of_bodyOf_invalid rfl (hbody.trans (unpackRemaining_one_bit_trailing ha hone hlt hle hmode hlast)),
        State.advance_outWriteAll_replicate, State.remaining]

/-- Settles O42: the cases of UnpackLegacy with the end condition "within the last byte". -/
theorem legacyByteOutcomes : Obligations.LegacyByteOutcomes := by
  intro s hin hout htree hm ha hptr _
  have hbody := bodyOf_unpack_legacy (tail := .byte) hin hout htree hm
  refine ⟨?_, ?_, ?_, ?_⟩
  · intro hrem
    exact exec_of_bodyOf_ok (hbody.trans (unpackLegacy_empty hrem _ _ _))
  · intro xs hlen hx hp
    constructor
    · intro hok
      apply exec_unpack_readAll_ok hptr
      obtain hzero | hone | hn : (symbolsOf s.freq).length = 0 ∨ (symbolsOf s.freq).length = 1 ∨
          2 ≤ (symbolsOf s.freq).length := by omega
      · have htotal := (symbolsOf_eq_nil_iff s.freq).1 (List.length_eq_zero_iff.1 hzero)
        exact (bodyOf_unpack hin hout htree).trans
          (unpackRemaining_whole_nil hlen hp (List.length_eq_zero_iff.1 (hlen.trans htotal)))
      · rw [hbody, unpackLegacy_whole_one hlen hx ha hp .byte hone]
        rfl
      · rw [hbody, unpackLegacy_whole_several hlen hx ha hp .byte hn, if_neg (hok.resolve_left (by omega))]
        rfl
    · intro hn hmod
      apply exec_unpack_readAll_invalid rfl hptr
      rw [hbody, unpackLegacy_whole_several hlen hx ha hp .byte hn, if_pos hmod]
  · intro ys part rest b hn hrem hlt hy hb hc _ hp
    exact exec_unpack_readAll_invalid rfl hptr
      (hbody.trans (unpackLegacy_truncated .byte ha hn hrem hlt hy hb hc hp))
  · intro xs p q hn hlen hx hq hdrop hp
    have hunpadded := unpackLegacy_followed_unpadded .byte ha hn hdrop hq hlen hx hp
    refine ⟨?_, ?_, ?_⟩
    · intro hmod
      exact exec_of_bodyOf_invalid rfl
        (hbody.trans (unpackLegacy_followed_padded .byte ha hn hdrop hq hlen hx hp hmod))
    · intro hmod hq1
      have hall : s.remaining.length = p.length + 1 := by rw [State.remaining, hdrop, List.length_append, hq1]
      apply exec_unpack_readAll_ok hptr
      rw [hbody, hunpadded hmod, hq1, hall]
      rfl
    · intro hmod hq2
      apply exec_of_bodyOf_invalid rfl
      rw [hbody, hunpadded hmod, Tail.accepts_byte, if_neg (by simp; omega)]
      rfl

/-- Settles O43: the cases of UnpackLegacy with the end condition "at the very last bit". -/
theorem legacyBitOutcomes : Obligations.LegacyBitOutcomes := by
  intro s hin hout htree hm ha hptr _
  have hbody := bodyOf_unpack_legacy (tail := .bit) hin hout htree hm
  refine ⟨?_, ?_, ?_, ?_⟩
  · intro hrem
    exact exec_of_bodyOf_ok (hbody.trans (unpackLegacy_empty hrem _ _ _))
  · intro xs hlen hx hp
    have hone := unpackLegacy_whole_one hlen hx ha hp .bit
    have hseveral := unpackLegacy_whole_several hlen hx ha hp .bit
    refine ⟨?_, ?_, ?_⟩
    · rintro (hnil | ⟨hn, hmod⟩ | ⟨hn, hmod⟩)
      · exact exec_unpack_readAll_ok hptr
          ((bodyOf_unpack hin hout htree).trans (unpackRemaining_whole_nil hlen hp hnil))
      · apply exec_unpack_readAll_ok hptr
        rw [hbody, hone hn, hmod]
        rfl
      · apply exec_unpack_readAll_ok hptr
        rw [hbody, hseveral hn, hmod]
        rfl
    · intro hn hmod
      apply exec_unpack_readAll_invalid rfl hptr
      rw [hbody, hseveral hn, if_pos hmod]
    · rintro (⟨hn, hmod⟩ | ⟨hn, hmod0, hmod7⟩)
      · apply exec_unpack_readAll_invalid rfl hptr
        rw [hbody, hone hn, beq_eq_false_iff_ne.2 hmod]
        rfl
      · apply exec_unpack_readAll_invalid rfl hptr
        rw [hbody, hseveral hn, if_neg hmod0, beq_eq_false_iff_ne.2 hmod7]
        rfl
  · intro ys part rest b hn hrem hlt hy hb hc _ hp
    exact exec_unpack_readAll_invalid rfl hptr
      (hbody.trans (unpackLegacy_truncated .bit ha hn hrem hlt hy hb hc hp))
  · intro xs p q hn hlen hx hq hdrop hp
    constructor
    · intro hmod
      exact exec_of_bodyOf_invalid rfl
        (hbody.trans (unpackLegacy_followed_padded .bit ha hn hdrop hq hlen hx hp hmod))
    · intro hmod
      apply exec_of_bodyOf_invalid rfl
      rw [hbody, unpackLegacy_followed_unpadded .bit ha hn hdrop hq hlen hx hp hmod, Tail.accepts_bit, Bool.and_false]
      rfl

end Sys2Proof.Machine
end

section
/-! SUPPORT. The composite commands: the statements on COMPRESS and DECOMPRESS (spec/44_codec.md R216 to R218). -/

namespace Sys2Proof.Machine

/-! ## The checks -/

/-- The input handle is the first check of COMPRESS and DECOMPRESS (R216, R218, R267). -/
theorem bodyOf_codec_inUnusable {i : Instr} {s : State} (hi : i = .compress ∨ i = .decompress)
    (hin : s.inUsable = false) : bodyOf i s = .error (.inUnusable, s) := by
  rcases hi with rfl | rfl <;> simp [bodyOf, hin]

/-- The output handle is the second check of COMPRESS and DECOMPRESS (R216, R218, R267). -/
theorem bodyOf_codec_outUnusable {i : Instr} {s : State} (hi : i = .compress ∨ i = .decompress)
    (hin : s.inUsable = true) (hout : s.outUsable = false) : bodyOf i s = .error (.outUnusable, s) := by
  rcases hi with rfl | rfl <;> simp [bodyOf, hin, hout]

/-- COMPRESS whose checks pass runs its body (R216). -/
theorem bodyOf_compress {s : State} (hin : s.inUsable = true) (hout : s.outUsable = true) :
    bodyOf .compress s = compressBody s := by
  simp [bodyOf, hin, hout]

/-- DECOMPRESS whose checks pass runs its body (R218). -/
theorem bodyOf_decompress {s : State} (hin : s.inUsable = true) (hout : s.outUsable = true) :
    bodyOf .decompress s = decompressBody s := by
  simp [bodyOf, hin, hout]

/-! ## COMPRESS -/

/-- Reading `n` bytes from the start of the input and appending to the output (R90, R91, R238). -/
theorem State.rewind_advance_outWriteAll (s : State) (n : Nat) (bs : List Byte) :
    (s.rewind.advance n).outWriteAll bs = { s with
      inPtr := BitVec.ofNat 64 n, output := s.output ++ bs
      outCnt := s.outCnt + BitVec.ofNat 64 bs.length } := by
  rw [State.outWriteAll, State.advance, State.rewind_inPtr, BitVec.zero_add]
  rfl

/-! ## DECOMPRESS before the decoder -/

/-- An input shorter than a header is consumed and reported (R137, R218). -/
theorem decompressBody_short {s : State} (h : s.input.length < 2048) :
    decompressBody s = .error (.hdrShort, { s with inPtr := BitVec.ofNat 64 s.input.length }) := by
  rw [decompressBody, loadHeader_short (s := s.rewind) h]
  rfl

/-- A header whose counts sum to 2^64 or more leaves no arena, and IN_PTR after the header (R153, R218). -/
theorem decompressBody_overflow {s : State} {f : FreqTable} {p : List Byte}
    (hinput : s.input = headerOf s.lHdrBe f ++ p) (hovf : 2 ^ 64 ≤ totalCount f) :
    decompressBody s = .error (.weightOverflow, { s with
      freq := f, arena := [], treeValid := false, codeValid := false, inPtr := 2048#64 }) := by
  have htotal : totalOvf f = true := decide_eq_true hovf
  rw [decompressBody, decompress_tables hinput, if_pos htotal]
  rfl

/-! ## DECOMPRESS of a header that loads -/

/-- The state from which DECOMPRESS decodes, once it has loaded the counts `f` and built their tree (R218). -/
def State.headerLoaded (s : State) (f : FreqTable) : State :=
  { s with freq := f, arena := buildArena f, treeValid := true, codeValid := false, inPtr := 2048#64 }

section Loaded

variable {s : State} {f : FreqTable} {p : List Byte} (hinput : s.input = headerOf s.lHdrBe f ++ p)
include hinput

/-- What DECOMPRESS decodes is what follows the header (R218). -/
theorem remaining_headerLoaded : (s.headerLoaded f).remaining = p := by
  show s.input.drop 2048 = p
  rw [hinput, List.drop_left' (length_headerOf _ _)]

theorem headerLoaded_ptr_le : (s.headerLoaded f).inPtr.toNat ≤ (s.headerLoaded f).input.length := by
  show 2048 ≤ s.input.length
  rw [hinput, List.length_append, length_headerOf]
  exact Nat.le_add_right 2048 p.length

/-- DECOMPRESS whose checks pass and whose header loads is UNPACK of what follows it (R218). -/
theorem exec_decompress_loaded (hin : s.inUsable = true) (hout : s.outUsable = true) (hfits : totalCount f < 2 ^ 64) :
    exec .decompress s = exec .unpack (s.headerLoaded f) := by
  have hunpack : bodyOf .unpack (s.headerLoaded f) = unpackRemaining (s.headerLoaded f) := bodyOf_unpack hin hout rfl
  rw [exec_eq, exec_eq, bodyOf_decompress hin hout, decompressBody_loaded hinput hfits, hunpack]
  rfl

end Loaded

/-- A decoder's body completes with its cause, INFO being IN_PTR unless it succeeds (R265, R266). -/
theorem finishBody_decoder {b : Body} (hc : b.cause ∈ [Cause.noCause, .truncated, .trailing]) :
    finishBody b = b.state.completed b.cause.code b.cause (if b.cause = .noCause then 0#64 else b.state.inPtr) := by
  rw [finishBody_eq, State.finish]
  simp only [List.mem_cons, List.not_mem_nil, or_false] at hc
  rcases hc with h | h | h <;> rw [h] <;> rfl

/-- Reading `k` bytes after the header and appending to the output (R90, R91). -/
theorem State.headerLoaded_advance_outWriteAll (s : State) (f : FreqTable) (k : Nat) (ys : List Byte) :
    ((s.headerLoaded f).advance k).outWriteAll ys = { s with
      freq := f, arena := buildArena f, treeValid := true, codeValid := false
      inPtr := BitVec.ofNat 64 (2048 + k), output := s.output ++ ys
      outCnt := s.outCnt + BitVec.ofNat 64 ys.length } := by
  rw [BitVec.ofNat_add]
  rfl

/-- The legacy decoders accept an empty payload, whatever the header counts (R192). -/
theorem unpackRemaining_legacy_empty {s : State} (hm : s.lDecMode ≠ .exact) (hrem : s.remaining = []) :
    unpackRemaining s = .ok s := by
  obtain ⟨tail, htail⟩ := (decMode_eq_exact_or_tail s.lDecMode).resolve_left hm
  rw [unpackRemaining_legacy htail, unpackLegacy_empty hrem]

/-! ## The statements -/

/-- Settles O44: the two handle checks, then `compressBody_ok`, whose payload has the length its bits need. -/
theorem compressCompletes : Obligations.CompressCompletes := by
  intro s
  refine ⟨?_, ?_, ?_⟩
  · exact fun hin => exec_of_bodyOf_invalid rfl (bodyOf_codec_inUnusable (.inl rfl) hin)
  · exact fun hin hout => exec_of_bodyOf_invalid rfl (bodyOf_codec_outUnusable (.inl rfl) hin hout)
  · intro hin hout hlen
    obtain ⟨p, k, hbody, hk, hbits⟩ := compressBody_ok hlen
    have hpayload : PayloadOf p (codeBits (codesOf (buildArena (inputCounts s))) s.input) :=
      ⟨List.replicate k false, by rwa [List.length_replicate], hbits⟩
    refine ⟨inputCounts s, p, k, inputCounts_spec hlen, hk, hbits, hpayload.length_eq, exec_of_bodyOf_ok ?_⟩
    rw [bodyOf_compress hin hout, hbody, State.rewind_advance_outWriteAll, List.length_append, length_headerOf,
      ← List.append_assoc]

/-- Settles O46: the two handle checks, then the two failures of loading the header and building its tree. -/
theorem decompressFailures : Obligations.DecompressFailures := by
  intro s
  refine ⟨?_, ?_, ?_, ?_⟩
  · exact fun hin => exec_of_bodyOf_invalid rfl (bodyOf_codec_inUnusable (.inr rfl) hin)
  · exact fun hin hout => exec_of_bodyOf_invalid rfl (bodyOf_codec_outUnusable (.inr rfl) hin hout)
  · exact fun hin hout hshort =>
      exec_of_bodyOf_invalid rfl ((bodyOf_decompress hin hout).trans (decompressBody_short hshort))
  · exact fun f rest hin hout hinput hovf =>
      exec_of_bodyOf_invalid rfl ((bodyOf_decompress hin hout).trans (decompressBody_overflow hinput hovf))

/-- Settles O47: DECOMPRESS is UNPACK from the state after the header, whose decoder's outcomes are known. -/
theorem decompressDecodes : Obligations.DecompressDecodes := by
  intro s f p hin hout hinput hfits
  have hexec := exec_decompress_loaded hinput hin hout hfits
  have hbody : bodyOf .unpack (s.headerLoaded f) = unpackRemaining (s.headerLoaded f) := bodyOf_unpack hin hout rfl
  have hrem := remaining_headerLoaded hinput
  refine ⟨hexec, ?_, ?_, ?_⟩
  · obtain ⟨k, ys, hk, hys, hread, hstate⟩ := unpackRemaining_decoded (s.headerLoaded f)
    have hcause := (unpackRemaining_ends (s.headerLoaded f)).2
    rw [hrem] at hk hread
    rw [State.headerLoaded_advance_outWriteAll] at hstate
    refine ⟨ys, k, _, hcause, hk, hread, hys, ?_⟩
    rw [hexec, exec_eq, hbody, finishBody_decoder hcause, hstate]
  · intro xs hm hlen hx hp
    have hdecoded := unpackRemaining_exact_whole (s := s.headerLoaded f) hlen hx rfl (hrem.symm ▸ hp) hm
    exact hexec.trans (exec_unpack_readAll_ok (headerLoaded_ptr_le hinput) (hbody.trans hdecoded))
  · intro hm hp
    have hdecoded := unpackRemaining_legacy_empty (s := s.headerLoaded f) hm (hrem.trans hp)
    exact hexec.trans (exec_of_bodyOf_ok (hbody.trans hdecoded))

end Sys2Proof.Machine
end

section
/-! SUPPORT. The control layer (spec/45_control.md): the form of the model's own data along every step, what each
command leaves alone, the control commands, and the host's register writes and stream actions (R236 to R249). -/

namespace Sys2Proof.Machine

/-! ## The form of the model's own data -/

/-- The form depends on the temporaries, PENDING and DONE alone. -/
theorem State.HostForm.congr {s t : State} (h : s.HostForm) (htemps : t.host.temps = s.host.temps)
    (hpending : t.pending = s.pending) (hdone : t.done = s.done) : t.HostForm where
  tempsCanonical := htemps ▸ h.tempsCanonical
  pendingNotDone := hpending ▸ hdone ▸ h.pendingNotDone

/-- The core step's body on any word leaves the control state and the host (R99, R114 to R116). -/
theorem bodyOfWord_keeps (w : Word) (s : State) : Keeps s (bodyOfWord w s).state := by
  rw [bodyOfWord]
  cases decode w with
  | ok i => exact (bodyOf_keeps i s).1
  | error e => exact Keeps.refl s

/-- A completion leaves no command pending, and no body touches the temporaries (R266). -/
theorem State.HostForm.finishBody {s : State} {b : Body} (h : s.HostForm) (hkeep : Keeps s b.state) :
    (finishBody b).HostForm := by
  rw [finishBody_eq]
  exact ⟨by rw [State.finish_host, hkeep.host]; exact h.tempsCanonical, fun hp => absurd rfl hp⟩

/-- A CSR write leaves DONE = 0 with a pending command (R239, R243). -/
theorem State.HostForm.writeOffset {s : State} (h : s.HostForm) (off : Nat) (v : Word) :
    (s.writeOffset off v).HostForm := by
  refine ⟨by rw [(writeOffset_keeps s off v).host]; exact h.tempsCanonical, ?_⟩
  rw [State.writeOffset]
  split
  · exact csrWrite_pending _ v h.pendingNotDone
  · exact h.pendingNotDone

/-- A CSR read puts its word in its place among the temporaries (R241). -/
theorem State.HostForm.readOffset {s : State} (h : s.HostForm) (off n : Nat) :
    ((s.readOffset off).2.setTemp n (s.readOffset off).1).HostForm := by
  have hread : (s.readOffset off).2.HostForm := by
    obtain hs | ⟨-, hs⟩ := readOffset_state s off <;> rw [hs]
    · exact h
    · exact h.congr rfl rfl rfl
  exact ⟨tempSet_wf n _ hread.tempsCanonical, hread.pendingNotDone⟩

/-- Every step of the host keeps the form. -/
theorem execHost_hostForm {h : HostStep} {s t : State} (hs : s.HostForm) (e : execHost h s = .next t) :
    t.HostForm := by
  obtain ⟨off, v, -, -, -, rfl⟩ | ⟨off, n, -, -, -, rfl⟩ | ⟨_, -, -, -, rfl⟩ | ⟨-, -, rfl⟩ | ⟨_, _, -, -, rfl⟩ |
    ⟨-, rfl⟩ | ⟨_, rfl⟩ | ⟨-, rfl⟩ := execHost_cases e
  · exact (hs.writeOffset off v).congr rfl rfl rfl
  · exact (hs.readOffset off n).congr rfl rfl rfl
  · exact hs.congr rfl rfl rfl
  · exact hs.congr rfl rfl rfl
  · exact hs.congr rfl rfl rfl
  · rw [State.readOutput]; split <;> exact hs.congr rfl rfl rfl
  · exact hs.congr rfl rfl rfl
  · exact ⟨hs.tempsCanonical, fun hp => absurd rfl hp⟩

/-! ## What each command leaves alone -/

/-- FREQ, ARENA, CODE, the stage-valid bits, IN_PTR, OUT and OUT_CNT differ between `s` and `t` only where the command
`i` is one that changes them (R195, R237). -/
structure ChangesAsListed (i : Instr) (s t : State) : Prop where
  freq : i ∉ [Instr.softReset, .histClear, .histAccum, .hdrLoad, .compress, .decompress] → t.freq = s.freq
  arena : i ∉ [Instr.softReset, .treeBuild, .compress, .decompress] → t.arena = s.arena
  codes : i ∉ [Instr.softReset, .codeGen, .compress] → t.codes = s.codes
  treeValid : i ∉ [Instr.softReset, .histClear, .histAccum, .hdrLoad, .treeBuild, .compress, .decompress] →
    t.treeValid = s.treeValid
  codeValid : i ∉ [Instr.softReset, .histClear, .histAccum, .hdrLoad, .treeBuild, .codeGen, .compress, .decompress] →
    t.codeValid = s.codeValid
  inPtr : i ∉ [Instr.softReset, .inRewind, .histAccum, .hdrLoad, .pack, .unpack, .compress, .decompress] →
    t.inPtr = s.inPtr
  output : i ∉ [Instr.hdrEmit, .pack, .unpack, .compress, .decompress] → t.output = s.output
  outCnt : i ∉ [Instr.softReset, .hdrEmit, .pack, .unpack, .compress, .decompress] → t.outCnt = s.outCnt

theorem ChangesAsListed.refl (i : Instr) (s : State) : ChangesAsListed i s s := by constructor <;> exact fun _ => rfl

/-- Reading and writing the streams is what PACK and UNPACK are listed for. -/
theorem Moves.changesAsListed {i : Instr} {n : Nat} {s t : State} (hi : i = .pack ∨ i = .unpack) (h : Moves n s t) :
    ChangesAsListed i s t := by
  obtain ⟨k, bs, -, rfl⟩ := h
  obtain rfl | rfl := hi <;> constructor <;> simp [State.advance]

/-- Two bodies in a row leave CODE if each does. -/
theorem bind_codes {s : State} {b : Body} {k : State → Body} (hb : b.state.codes = s.codes)
    (hk : ∀ t, (k t).state.codes = t.codes) : (Body.state (b.bind k)).codes = s.codes := by
  rcases b with ⟨c, t⟩ | t
  · exact hb
  · exact (hk t).trans hb

/-- DECOMPRESS's body, however it ends, leaves CODE: it loads a header, builds a tree and decodes (R195, R218). -/
theorem decompressBody_codes (s : State) : (decompressBody s).state.codes = s.codes := by
  have hload : (loadHeader s.rewind).state.codes = s.codes := by rw [loadHeader]; split <;> rfl
  have hbuild : ∀ t, (buildTree t).state.codes = t.codes := fun t => by rw [buildTree]; split <;> rfl
  have hunpack : ∀ t, (unpackRemaining t).state.codes = t.codes := fun t =>
    ((unpackRemaining_ends t).1.changesAsListed (.inr rfl)).codes (by simp)
  exact bind_codes (bind_codes hload hbuild) hunpack

/-- COMPRESS is in every list. -/
theorem changesAsListed_compress (s t : State) : ChangesAsListed .compress s t := by constructor <;> simp

/-- DECOMPRESS is in every list but CODE's. -/
theorem changesAsListed_decompress {s t : State} (h : t.codes = s.codes) : ChangesAsListed .decompress s t := by
  constructor <;> simp [h]

/-- Every command's body changes the tables, the valid bits and the streams as listed. -/
theorem bodyOf_changesAsListed (i : Instr) (s : State) : ChangesAsListed i s (bodyOf i s).state := by
  have same : ∀ c : Cause, ChangesAsListed i s (Body.state (.error (c, s))) := fun _ => .refl i s
  cases i with
  | nop => exact .refl _ s
  | softReset => constructor <;> simp [bodyOf, softResetBody]
  | inRewind =>
    rw [bodyOf]; split
    · constructor <;> simp
    · exact same _
  | histClear => constructor <;> simp [bodyOf, clearHistogram]
  | histAccum =>
    rw [bodyOf]; split
    · constructor <;> simp [accumHistogram_eq, State.advance]
    · exact same _
  | hdrEmit =>
    rw [bodyOf]; split
    · constructor <;> simp [emitHeader]
    · exact same _
  | hdrLoad =>
    rw [bodyOf]; split
    · rw [loadHeader]; split <;> constructor <;> simp
    · exact same _
  | treeBuild => rw [bodyOf, buildTree]; split <;> constructor <;> simp
  | codeGen => rw [bodyOf, genCodes]; split <;> constructor <;> simp
  | pack =>
    rw [bodyOf]; split; · exact same _
    split; · exact same _
    split; · exact same _
    exact (packRemaining_ends s).1.changesAsListed (.inl rfl)
  | unpack =>
    rw [bodyOf]; split; · exact same _
    split; · exact same _
    split; · exact same _
    exact (unpackRemaining_ends s).1.changesAsListed (.inr rfl)
  | compress => exact changesAsListed_compress s _
  | decompress =>
    rw [bodyOf]; split; · exact same _
    split; · exact same _
    exact changesAsListed_decompress (decompressBody_codes s)

/-! ## Register writes -/

/-- A write to a mapped offset is the register's write, idle or busy (R242). -/
theorem writesAs_register {s : State} {off : Nat} {r : Csr} (v : Word) (hr : csrAt off = some r) :
    WritesAs s off v (s.csrWrite r v) := by
  have hmapped := csrAt_mapped hr
  have hwrite : s.writeOffset off v = s.csrWrite r v := by rw [State.writeOffset, hr]
  exact hwrite ▸ writesAs (by omega) (by omega)

/-- A write to CMD while BUSY = 1 is dropped and sets OVERRUN (R240). -/
theorem csrWrite_cmd_busy {s : State} (h : s.pending ≠ none) (v : Word) :
    s.csrWrite .cmd v = { s with overrun := true } := if_pos (s.busy_iff.2 h)

/-- A write to STATUS clears DONE and OVERRUN where it writes a 1 (R243). -/
theorem csrWrite_status (s : State) (v : Word) : s.csrWrite .status v = { s with
    done := (if v.getLsbD 1 then false else s.done), overrun := (if v.getLsbD 2 then false else s.overrun) } := by
  rw [State.csrWrite]
  cases v.getLsbD 1 <;> cases v.getLsbD 2 <;> simp

/-- The registers that a write can change (R242). -/
def writableCsrs : List Csr := [.ctrl, .cmd, .status, .freqIdx, .nodeIdx, .codeIdx, .codeWsel]

/-- A write to any other register is ignored (R242). -/
theorem csrWrite_ignored (s : State) {r : Csr} (v : Word) (hr : r ∉ writableCsrs) : s.csrWrite r v = s := by
  cases r with
  | ctrl | cmd | status | freqIdx | nodeIdx | codeIdx | codeWsel => exact absurd (by decide) hr
  | id | infoLo | infoHi | inPtrLo | inPtrHi | inLenLo | inLenHi | outCntLo | outCntHi | totalLo | totalHi
  | histInfo | treeInfo | freqLo | freqHi | nodeKind | nodeSeq | nodeLeft | nodeRight | nodeWLo | nodeWHi
  | codeLen | codeBits => rfl

/-- The registers that a write can change stand at these offsets (R32). -/
theorem csrAt_writable {off : Nat} {r : Csr} (h : csrAt off = some r) :
    r ∈ writableCsrs → off ∈ [0x04, 0x08, 0x0C, 0x40, 0x50, 0x70, 0x78] := by
  unfold csrAt at h
  split at h <;> cases h <;> decide

/-- A write at any other offset of the window, mapped or not, is ignored (R57, R242). -/
theorem writeOffset_ignored (s : State) {off : Nat} (v : Word)
    (h : off ∉ [0x04, 0x08, 0x0C, 0x40, 0x50, 0x70, 0x78]) : s.writeOffset off v = s := by
  rw [State.writeOffset]
  split
  · next r hr => exact csrWrite_ignored s v fun hw => h (csrAt_writable hr hw)
  · rfl

/-! ## Stream actions -/

theorem not_busy_of_idle {s : State} (h : s.pending = none) : ¬ s.busy = true := fun hb => s.busy_iff.1 hb h

/-- `bind_in` while BUSY = 0, with a buffer that fits (R246). -/
theorem execHost_bindIn {s : State} {bytes : List Byte} (h : s.pending = none) (hfits : bytes.length ≤ 2 ^ 64 - 1) :
    execHost (.bindIn bytes) s = .next (s.bindInput bytes).hostNext := by
  rw [execHost, hostBindIn, if_neg (not_busy_of_idle h), if_pos (show inputFits bytes = true from decide_eq_true hfits)]

/-- Binds and usable-signal changes are no host moves while BUSY = 1 (R246, R247, R297). -/
theorem execHost_streamMove_busy {s : State} (h : s.pending ≠ none) (bytes : List Byte) (x y : Bool) :
    execHost (.bindIn bytes) s = .refused .streamMoveWhileBusy ∧ execHost .bindOut s = .refused .streamMoveWhileBusy ∧
    execHost (.usable x y) s = .refused .streamMoveWhileBusy :=
  have hbusy := s.busy_iff.2 h
  ⟨if_pos hbusy, if_pos hbusy, if_pos hbusy⟩

/-! ## The statements -/

/-- Settles O7: the core step completes the command and leaves the host; a host step keeps the form. -/
theorem stepKeepsHostForm : Obligations.StepKeepsHostForm := by
  intro s t hs e
  have hturn : s.nextTurn.HostForm := hs.congr rfl rfl rfl
  obtain ⟨-, -, hstop⟩ | ⟨w, -, -, hcore⟩ | ⟨h, -, -, hhost⟩ := step_cases e
  · cases hstop
  · cases hcore
    exact hturn.finishBody (bodyOfWord_keeps w s.nextTurn)
  · exact execHost_hostForm hturn hhost.symm

/-- Settles O15: `bodyOf_keeps` for what no command changes, `bodyOf_changesAsListed` for the rest; the completion
writes the status alone. -/
theorem commandFrame : Obligations.CommandFrame := by
  intro i s t e
  rw [exec_eq, finishBody_eq] at e
  cases e
  obtain ⟨hkeep, hoverrun⟩ := bodyOf_keeps i s
  have hlisted := bodyOf_changesAsListed i s
  exact ⟨hkeep.irqEn, hkeep.decMode, hkeep.hdrBe, hkeep.lDecMode, hkeep.lHdrBe, hkeep.freqIdx, hkeep.nodeIdx,
    hkeep.codeIdx, hkeep.codeWsel, hkeep.input, hkeep.inUsable, hkeep.outUsable, hkeep.host, hkeep.turns,
    hkeep.rounds, hkeep.draws, hoverrun, hkeep.output, hlisted.freq, hlisted.arena, hlisted.codes, hlisted.treeValid,
    hlisted.codeValid, hlisted.inPtr, hlisted.output, hlisted.outCnt⟩

/-- Settles O8: the core's step is the completion of the body of the command that the word decodes to. -/
theorem stepRunsPendingCommand : Obligations.StepRunsPendingCommand := by
  intro s w i hw hdecode _ hturn
  rw [step_core hw hturn, bodyOfWord, hdecode, exec_eq]

/-- Settles O19: the bodies of the three commands, by whether the input handle is usable. -/
theorem controlCommandsComplete : Obligations.ControlCommandsComplete := fun _ =>
  ⟨exec_of_bodyOf_ok rfl,
    ⟨freqZero, codesEmpty, freqAt_freqZero, codeAt_codesEmpty, exec_of_bodyOf_ok rfl⟩,
    fun hin => exec_of_bodyOf_ok (if_pos hin),
    fun hin => exec_of_bodyOf_invalid rfl (if_neg (Bool.eq_false_iff.1 hin))⟩

/-- Settles O56: the write to CMD is `accept` while BUSY = 0, and sets OVERRUN alone while BUSY = 1. -/
theorem issueAndOverrun : Obligations.IssueAndOverrun := fun _ v =>
  ⟨fun h => execHost_issue h v, fun h => csrWrite_cmd_busy h v ▸ writesAs_register (r := .cmd) v rfl⟩

/-- Settles O57: each register's write by `csrWrite`, and every other offset by `writeOffset_ignored`. -/
theorem registerWrites : Obligations.RegisterWrites := by
  intro s v
  refine ⟨writesAs_register (r := .ctrl) v rfl, ?_, writesAs_register (r := .freqIdx) v rfl,
    writesAs_register (r := .nodeIdx) v rfl, writesAs_register (r := .codeIdx) v rfl,
    writesAs_register (r := .codeWsel) v rfl, fun off haligned hwindow hother => ?_⟩
  · exact csrWrite_status s v ▸ writesAs_register (r := .status) v rfl
  · have hwrites : WritesAs s off v (s.writeOffset off v) := writesAs haligned hwindow
    rwa [writeOffset_ignored s v hother] at hwrites

/-- Settles O58: each stream action by whether a command is pending. -/
theorem streamActions : Obligations.StreamActions := by
  intro s bytes x y
  refine ⟨execHost_bindIn, fun h => ?_, fun h => ?_, fun h => ?_, fun h => ?_⟩
  · exact if_neg (not_busy_of_idle h)
  · exact if_neg (not_busy_of_idle h)
  · rw [execHost, State.readOutput, if_neg (not_busy_of_idle h)]
    rfl
  · obtain ⟨hin, hout, husable⟩ := execHost_streamMove_busy h bytes x y
    refine ⟨hin, hout, husable, ?_⟩
    rw [execHost, State.readOutput, if_pos (s.busy_iff.2 h)]
    rfl

end Sys2Proof.Machine
end

section
/-! SUPPORT. Completion (spec/60_exceptions.md): the causes a command's body ends with, the completed state, and the
interrupt output (R262 to R268). -/

namespace Sys2Proof.Machine

/-! ## Causes -/

theorem genCodes_cause (s : State) : (genCodes s).cause ∈ [Cause.noCause, .noTree] := by
  rw [genCodes]; split <;> simp

theorem packFromStart_cause (s : State) : (packFromStart s).cause ∈ [Cause.noCause, .noCode] := by
  rw [packFromStart]; split
  · exact List.mem_cons_self
  · exact (packRemaining_ends s.rewind).2

/-- The causes of COMPRESS's parts (R216), on an input of any length. -/
theorem compressBody_cause (s : State) :
    (compressBody s).cause ∈ [Cause.noCause, .weightOverflow, .noTree, .noCode] :=
  bind_cause
    (bind_cause ((show [Cause.noCause, .weightOverflow] ⊆ _ by decide) (buildTree_cause _))
      fun t => (show [Cause.noCause, .noTree] ⊆ _ by decide) (genCodes_cause t))
    fun t => (show [Cause.noCause, .noCode] ⊆ _ by decide) (packFromStart_cause t)

/-- A body ends with a cause that R264 lists for its command; COMPRESS's row needs an input that can be bound. -/
theorem bodyOf_cause {i : Instr} (hi : i ≠ .compress) (s : State) : (bodyOf i s).cause ∈ causesOf i := by
  cases i with
  | nop | softReset | histClear => exact List.mem_cons_self
  | inRewind | histAccum | hdrEmit => rw [bodyOf]; split <;> simp [causesOf]
  | hdrLoad =>
    rw [bodyOf]; split
    · exact (show [Cause.noCause, .hdrShort] ⊆ _ by decide) (loadHeader_cause s)
    · simp [causesOf]
  | treeBuild => exact buildTree_cause s
  | codeGen => exact genCodes_cause s
  | pack =>
    rw [bodyOf]; split; · simp [causesOf]
    split; · simp [causesOf]
    split; · simp [causesOf]
    exact (show [Cause.noCause, .noCode] ⊆ _ by decide) (packRemaining_ends s).2
  | unpack =>
    rw [bodyOf]; split; · simp [causesOf]
    split; · simp [causesOf]
    split; · simp [causesOf]
    exact (show [Cause.noCause, .truncated, .trailing] ⊆ _ by decide) (unpackRemaining_ends s).2
  | compress => exact absurd rfl hi
  | decompress =>
    rw [bodyOf]; split; · simp [causesOf]
    split; · simp [causesOf]
    exact (show [Cause.noCause, .hdrShort, .weightOverflow, .truncated, .trailing] ⊆ _ by decide)
      (decompressBody_cause s)

/-- COMPRESS on an input of any length ends with a cause of its handle checks or of its parts (R216, R267). -/
theorem bodyOf_compress_cause (s : State) : (bodyOf .compress s).cause ∈
    [Cause.noCause, .inUnusable, .outUnusable, .weightOverflow, .noTree, .noCode] := by
  rw [bodyOf]; split; · simp
  split; · simp
  exact (show [Cause.noCause, .weightOverflow, .noTree, .noCode] ⊆ _ by decide) (compressBody_cause s)

/-- The causes of ILLEGAL_COMMAND stand in no command's row of R264. -/
theorem causesOf_legal (i : Instr) : ∀ c ∈ causesOf i, c.code ≠ .illegalCommand := by
  cases i <;> decide

/-- No command's body raises ILLEGAL_COMMAND, whatever the state (R263, R264). -/
theorem bodyOf_legal (i : Instr) (s : State) : (bodyOf i s).cause.code ≠ .illegalCommand := by
  by_cases hi : i = .compress
  · subst hi
    have hparts : ∀ c ∈ [Cause.noCause, .inUnusable, .outUnusable, .weightOverflow, .noTree, .noCode],
        c.code ≠ .illegalCommand := by decide
    exact hparts _ (bodyOf_compress_cause s)
  · exact causesOf_legal i _ (bodyOf_cause hi s)

/-! ## Completion -/

/-- No body touches PENDING, so the command word is still the one issued (R265). -/
theorem bodyOf_commandWord (i : Instr) {s : State} {w : Word} (hw : s.pending = some w) :
    (bodyOf i s).state.commandWord = w := by
  rw [State.commandWord, (bodyOf_keeps i s).1.pending, hw, Option.getD_some]

/-- A completion sets DONE and no body touches IRQ_EN, so the interrupt output is IRQ_EN (R266, R268). -/
theorem finishBody_bodyOf_irq (i : Instr) (s : State) : (finishBody (bodyOf i s)).irq = s.irqEn := by
  rw [State.irq, finishBody_eq, State.finish_done, State.finish_irqEn, (bodyOf_keeps i s).1.irqEn, Bool.true_and]

/-! ## The interrupt output -/

/-- A register write leaves the interrupt output as the register's own effect does: the host's move is no part of it. -/
theorem irq_of_write {s t : State} {off : Nat} {r : Csr} {v : Word} (hr : csrAt off = some r)
    (e : execHost (.wr off 4 v) s = .next t) : t.irq = (s.csrWrite r v).irq := by
  have hwrites := writesAs_register (s := s) v hr
  rw [WritesAs, e] at hwrites
  cases hwrites
  rfl

theorem irq_of_not_done {s : State} (h : s.done = false) : s.irq = false := by rw [State.irq, h, Bool.false_and]

theorem irq_of_not_enabled {s : State} (h : s.irqEn = false) : s.irq = false := by rw [State.irq, h, Bool.and_false]

/-! ## The statements -/

/-- Settles O13: the command is the completion of its body, whose cause is not one of ILLEGAL_COMMAND and whose state
still holds the pending word. -/
theorem everyCommandCompletes : Obligations.EveryCommandCompletes := by
  intro i s w hw
  refine ⟨_, exec_eq i s, ?_⟩
  rw [finishBody_eq]
  refine ⟨rfl, rfl, rfl, fun (hok : (bodyOf i s).cause.code = .ok) => ⟨Cause.code_eq_ok.1 hok, ?_⟩,
    fun (hinvalid : (bodyOf i s).cause.code = .invalidArguments) => ?_, bodyOf_legal i s,
    fun (hsequence : (bodyOf i s).cause.code = .sequenceError) => ?_⟩
  · rw [State.finish_info, hok, State.infoFor]
  · rw [State.finish_info, hinvalid, State.infoFor, State.finish_inPtr]
  · rw [State.finish_info, hsequence, State.infoFor, bodyOf_commandWord i hw]

/-- Settles O60: a completion sets DONE; the write to STATUS and the accepted issue clear it, and CTRL's bit 0 is
IRQ_EN. -/
theorem interruptOutput : Obligations.InterruptOutput := by
  refine ⟨fun s => Bool.and_eq_true_iff, fun i s t e => ?_, fun s t v e hv => ?_, fun s t v hidle e => ?_,
    fun s t v e hv => ?_⟩
  · rw [exec_eq] at e
    cases e
    exact finishBody_bodyOf_irq i s
  · rw [irq_of_write (r := .status) rfl e, csrWrite_status]
    exact irq_of_not_done (if_pos hv)
  · rw [irq_of_write (r := .cmd) rfl e, State.csrWrite, State.issue, if_neg (not_busy_of_idle hidle)]
    exact irq_of_not_done rfl
  · rw [irq_of_write (r := .ctrl) rfl e]
    exact irq_of_not_enabled hv

end Sys2Proof.Machine
end

section
/-! SUPPORT. Hardware reset as a step of the host (spec/10_state.md R291), and the end of a run (R249, R304): no agent
has a step. -/

namespace Sys2Proof.Machine

/-! ## The host's next step -/

/-- The host has no step exactly at `halt` and past its program (R304). -/
theorem State.hostMove_eq_none_iff (s : State) :
    s.hostMove = none ↔ s.host.prog[s.host.pc]? = none ∨ s.host.prog[s.host.pc]? = some .halt := by
  cases hprog : s.host.prog[s.host.pc]? with
  | none => exact iff_of_true (by rw [State.hostMove, hprog]) (.inl rfl)
  | some h =>
    by_cases hhalt : h = .halt
    · subst hhalt
      exact iff_of_true (by rw [State.hostMove, hprog]) (.inr rfl)
    · rw [hostMove_of_prog hprog hhalt]
      simp [hhalt]

/-- A host step other than `halt` never stops the machine: it is refused or goes on. -/
theorem execHost_ne_fault {h : HostStep} (s : State) (hhalt : h ≠ .halt) (r : Fault) : execHost h s ≠ .fault r := by
  obtain ⟨-, _, hrefused⟩ | ⟨-, _, hnext⟩ := execHost_answers s hhalt
  · exact fun e => nomatch hrefused.symm.trans e
  · exact fun e => nomatch hnext.symm.trans e

/-! ## The end of a run -/

/-- With no pending command and no step of the host, the run has ended (R304). -/
theorem step_idle {s : State} (hidle : s.pending = none) (hmove : s.hostMove = none) : step s = .fault .runEnded := by
  obtain ⟨-, -, e⟩ | ⟨_, hw, -⟩ | ⟨_, hhost, -⟩ := step_cases (s := s) rfl
  · exact e
  · exact nomatch hidle.symm.trans hw
  · exact nomatch hmove.symm.trans hhost

/-- Only the end of the run stops the machine: the core's step completes its command, and no host step faults. -/
theorem idle_of_step_fault {s : State} {r : Fault} (e : step s = .fault r) : s.pending = none ∧ s.hostMove = none := by
  obtain ⟨hidle, hmove, -⟩ | ⟨_, -, -, hcore⟩ | ⟨_, hmove, -, hhost⟩ := step_cases e
  · exact ⟨hidle, hmove⟩
  · exact nomatch hcore
  · exact absurd hhost.symm (execHost_ne_fault s.nextTurn (hostMove_ne_halt hmove) r)

/-! ## The statements -/

/-- Settles O4: the arm of hardware reset is `State.hardReset`, then the host goes on; the two together are the state
that the statement writes out, for every state. -/
theorem hardResetFromAnyState : Obligations.HardResetFromAnyState := fun s =>
  show execHost .hardReset s = .next s.hardReset.hostNext from rfl

/-- Settles O11: the machine stops exactly when neither agent has a step, and the host has none exactly at `halt` and
past its program. -/
theorem runEndsWhenIdle : Obligations.RunEndsWhenIdle := fun s => by
  rw [← s.hostMove_eq_none_iff]
  exact ⟨fun ⟨_, e⟩ => idle_of_step_fault e, fun ⟨hidle, hmove⟩ => ⟨.runEnded, step_idle hidle hmove⟩⟩

end Sys2Proof.Machine
end

section
/-! SUPPORT. The command words (spec/30_encoding.md R111 to R116): decoding and encoding agree, and every word that is
no command's is rejected. -/

namespace Sys2Proof

/-- A widened opcode has no reserved bit set (R111). -/
theorem reservedClear_encode (i : Instr) : reservedClear (encode i) = true := by
  rw [reservedClear_iff]
  apply BitVec.eq_of_toNat_eq
  have hopc : i.opcode.toNat < 256 := i.opcode.isLt
  simp only [encode, BitVec.extractLsb'_toNat, BitVec.toNat_setWidth, BitVec.toNat_ofNat, Nat.shiftRight_eq_div_pow]
  omega

/-- A command's word decodes to the command (R113, R116). -/
theorem decode_encode (i : Instr) : decode (encode i) = .ok i := by
  rw [decode, if_pos (reservedClear_encode i), opcodeField_encode, commandOf_opcode]

/-- Settles O1: each word is its command's encoding. -/
theorem opcodeMapDecodes : Obligations.OpcodeMapDecodes :=
  ⟨decode_encode .nop, decode_encode .softReset, decode_encode .inRewind, decode_encode .histClear,
    decode_encode .histAccum, decode_encode .hdrEmit, decode_encode .hdrLoad, decode_encode .treeBuild,
    decode_encode .codeGen, decode_encode .pack, decode_encode .unpack, decode_encode .compress,
    decode_encode .decompress⟩

/-- Settles O2: `decode_encode` for the words of commands; any other word fails the reserved-bits check, and after it
the opcode check. -/
theorem decodingIsTotal : Obligations.DecodingIsTotal := by
  refine ⟨decode_encode, fun w => ⟨decode_reservedBits, fun hclear => ?_⟩⟩
  by_cases hcommand : ∃ i, encode i = w
  · obtain ⟨i, rfl⟩ := hcommand
    exact .inl ⟨i, decode_encode i, rfl⟩
  · have hno := not_exists.1 hcommand
    exact .inr ⟨decode_badOpcode hclear hno, hno⟩

end Sys2Proof
end

section
/-! SUPPORT. The invariants of R67 (spec/10_state.md section 8): they hold at launch, and every step keeps them. -/

namespace Sys2Proof.Machine

/-! ## The core's step -/

/-- COMPRESS's parts keep the invariants one after the other (R216). -/
theorem State.Inv.compressBody {s : State} (h : s.Inv) : (compressBody s).state.Inv :=
  .bind (.bind h.rewind.clearHistogram.accumHistogram.emitHeader.buildTree fun _ => .genCodes) fun _ => .packFromStart

/-- DECOMPRESS's parts keep the invariants one after the other (R218). -/
theorem State.Inv.decompressBody {s : State} (h : s.Inv) : (decompressBody s).state.Inv :=
  .bind (.bind h.rewind.loadHeader fun _ => .buildTree) fun _ => .unpackRemaining

/-- Every command's body keeps the invariants, also when it fails. -/
theorem State.Inv.bodyOf {s : State} (h : s.Inv) (i : Instr) : (bodyOf i s).state.Inv := by
  cases i with
  | nop => exact h
  | softReset => exact h.softResetBody
  | inRewind =>
    rw [Machine.bodyOf]; split
    · exact h.rewind
    · exact h
  | histClear => exact h.clearHistogram
  | histAccum =>
    rw [Machine.bodyOf]; split
    · exact h.accumHistogram
    · exact h
  | hdrEmit =>
    rw [Machine.bodyOf]; split
    · exact h.emitHeader
    · exact h
  | hdrLoad =>
    rw [Machine.bodyOf]; split
    · exact h.loadHeader
    · exact h
  | treeBuild => exact h.buildTree
  | codeGen => exact h.genCodes
  | pack =>
    rw [Machine.bodyOf]; split; · exact h
    split; · exact h
    split; · exact h
    exact (packRemaining_ends s).1.inv h le_rfl
  | unpack =>
    rw [Machine.bodyOf]; split; · exact h
    split; · exact h
    split; · exact h
    exact h.unpackRemaining
  | compress =>
    rw [Machine.bodyOf]; split; · exact h
    split; · exact h
    exact h.compressBody
  | decompress =>
    rw [Machine.bodyOf]; split; · exact h
    split; · exact h
    exact h.decompressBody

/-- The core step's body on any word keeps the invariants: an illegal word changes nothing (R114, R115). -/
theorem State.Inv.bodyOfWord {s : State} (h : s.Inv) (w : Word) : (bodyOfWord w s).state.Inv := by
  rw [Machine.bodyOfWord]
  cases decode w with
  | ok i => exact h.bodyOf i
  | error e => exact h

/-! ## The host's step -/

/-- Every step of the host keeps the invariants: only a bind and hardware reset touch what they speak of. -/
theorem execHost_inv {h : HostStep} {s t : State} (hs : s.Inv) (e : execHost h s = .next t) : t.Inv := by
  obtain ⟨off, v, -, -, -, rfl⟩ | ⟨off, n, -, -, -, rfl⟩ | ⟨_, -, -, hfits, rfl⟩ | ⟨-, -, rfl⟩ | ⟨_, _, -, -, rfl⟩ |
    ⟨-, rfl⟩ | ⟨_, rfl⟩ | ⟨-, rfl⟩ := execHost_cases e
  · exact ((writeOffset_keeps s off v).inv hs).congr rfl rfl rfl rfl rfl rfl rfl
  · obtain hread | ⟨-, hread⟩ := readOffset_state s off <;> rw [hread] <;> exact hs.congr rfl rfl rfl rfl rfl rfl rfl
  · exact (hs.bindInput hfits).congr rfl rfl rfl rfl rfl rfl rfl
  · exact hs.congr rfl rfl rfl rfl rfl rfl rfl
  · exact hs.congr rfl rfl rfl rfl rfl rfl rfl
  · rw [State.readOutput]; split <;> exact hs.congr rfl rfl rfl rfl rfl rfl rfl
  · exact hs.congr rfl rfl rfl rfl rfl rfl rfl
  · exact (State.Inv.hardReset hs.inputFits).congr rfl rfl rfl rfl rfl rfl rfl

/-! ## Runs -/

theorem step_inv {s t : State} (hs : s.Inv) (e : step s = .next t) : t.Inv := by
  have hturn : s.nextTurn.Inv := hs.congr rfl rfl rfl rfl rfl rfl rfl
  obtain ⟨-, -, hstop⟩ | ⟨w, -, -, hcore⟩ | ⟨h, -, -, hhost⟩ := step_cases e
  · cases hstop
  · cases hcore
    exact (hturn.bodyOfWord w).finishBody
  · exact execHost_inv hturn hhost.symm

theorem Reaches.inv {s t : State} (h : Reaches s t) (hs : s.Inv) : t.Inv := by
  induction h with
  | here => exact hs
  | next _ e ih => exact step_inv ih e

/-- The invariants hold at launch: both tables are invalid and IN_PTR is 0 (R66). -/
theorem launch_inv {input : List Byte} (output : List Byte) (x y : Bool) (prog : List HostStep)
    (h : input.length ≤ 2 ^ 64 - 1) : (State.launch input output x y prog).Inv :=
  .of arenaOk_nil (Nat.zero_le _) h (fun hvalid => nomatch hvalid) (fun hvalid => nomatch hvalid)

/-! ## The statements -/

/-- Settles O5: no tree or code table is valid, no temporary is listed and no command is pending. -/
theorem launchMeetsInvariants : Obligations.LaunchMeetsInvariants := fun _ output x y prog hlen =>
  ⟨launch_inv output x y prog hlen, rfl, fun hpending => absurd rfl hpending⟩

/-- Settles O6: `step_inv` for one step, `Reaches.inv` for the steps of a run; the turns are in no invariant. -/
theorem stepKeepsInvariants : Obligations.StepKeepsInvariants := by
  refine ⟨fun _ _ => step_inv, fun input output x y prog turns t hlen hreach => hreach.inv ?_⟩
  exact (launch_inv output x y prog hlen).congr rfl rfl rfl rfl rfl rfl rfl

end Sys2Proof.Machine
end

section
/-! SUPPORT. The causes of each command (spec/60_exceptions.md R264) and the histogram of an input (spec/40_histogram.md
R131). -/

namespace Sys2Proof.Machine

/-- COMPRESS on an input that can be bound fails only on an unusable handle (R216, R217). -/
theorem bodyOf_compress_cause_of_fits {s : State} (h : s.input.length ≤ 2 ^ 64 - 1) :
    (bodyOf .compress s).cause ∈ causesOf .compress := by
  rw [bodyOf]; split; · simp [causesOf]
  split; · simp [causesOf]
  obtain ⟨p, k, hok, -, -⟩ := compressBody_ok h
  rw [hok]
  exact List.mem_cons_self

/-- Settles O14: a command's cause is its body's, and only COMPRESS's row needs the bound on the input. -/
theorem causesOfEachCommand : Obligations.CausesOfEachCommand := by
  intro i s t hlen e
  obtain ⟨-, hcause, -, -⟩ := exec_next e
  rw [hcause]
  by_cases hi : i = .compress
  · subst hi
    exact bodyOf_compress_cause_of_fits hlen
  · exact bodyOf_cause hi s

/-- Settles O22: the table is cleared and the whole input remains, so the loop counts the input into `freqZero`. -/
theorem histogramOfAnInput : Obligations.HistogramOfAnInput := by
  intro s hin hptr hlen hzero
  have hcleared : s.freq = freqZero := freq_ext fun b => (hzero b).trans (freqAt_freqZero b).symm
  have hrem : s.remaining = s.input := by rw [State.remaining, hptr]; rfl
  have hcounts : CountsOf (s.remaining.foldl countByte s.freq) s.input := by
    rw [hrem, hcleared]
    exact countsOf_foldl_countByte s.input hlen
  have hbody := bodyOf_histAccum hin (by rw [hptr]; exact Nat.zero_le _)
  exact ⟨_, exec_of_bodyOf_ok hbody, hcounts.total, hcounts⟩

end Sys2Proof.Machine
end

section
/-! SUPPORT. The properties of the tree (spec/41_tree.md R157) and of the code table (spec/42_codegen.md R174). -/

namespace Sys2Proof.Machine

section Built

variable {f : FreqTable}

/-! ## The tree -/

/-- The left child of an internal node comes before its right child in the arbiter's order (R152, R153). -/
theorem buildArena_children_keyBelow {k : Nat} (hi : (nodeAt (buildArena f) k).isInternal = true) :
    KeyBelow (buildArena f) (nodeAt (buildArena f) k).left.toNat (nodeAt (buildArena f) k).right.toNat := by
  have hk := internal_lt hi
  obtain ⟨a, b, hjoin, ha, hb, hab, -, havb, hleast, -⟩ := buildArena_merge ((buildArena_kind hk).1 hi) hk
  have hlen := length_buildArena_le f
  rw [hjoin, joinNode_left_toNat _ _ (by omega), joinNode_right_toNat _ _ (by omega)]
  exact hleast b havb hab.symm

/-- On equal weights the node of smaller index comes first, its sequence id being its index (R152, R156). -/
theorem keyBelow_of_weight_eq {i j : Nat} (hij : i < j) (hj : j < (buildArena f).length)
    (hw : (nodeAt (buildArena f) i).weight = (nodeAt (buildArena f) j).weight) : KeyBelow (buildArena f) i j := by
  refine .inr ⟨congrArg BitVec.toNat hw, ?_⟩
  rwa [buildArena_seq_toNat (hij.trans hj), buildArena_seq_toNat hj]

theorem buildArena_seq_lt {i j : Nat} (hij : i < j) (hj : j < (buildArena f).length) :
    (nodeAt (buildArena f) i).seq < (nodeAt (buildArena f) j).seq := by
  rwa [BitVec.lt_def, buildArena_seq_toNat (hij.trans hj), buildArena_seq_toNat hj]

/-- The node in a symbol's place holds the symbol (R151). -/
theorem nodeAt_symbol_sym {j : Nat} {b : Byte} (h : (symbolsOf f)[j]? = some b) :
    (nodeAt (buildArena f) j).sym = b := by
  rw [(symbol_leaf h).2]
  rfl

/-- A smaller leaf index is a smaller symbol (R151). -/
theorem buildArena_sym_lt {i j : Nat} (hij : i < j) (hj : j < (symbolsOf f).length) :
    (nodeAt (buildArena f) i).sym < (nodeAt (buildArena f) j).sym := by
  have hsymI : (symbolsOf f)[i]? = some (symbolsOf f)[i] := List.getElem?_eq_getElem (hij.trans hj)
  have hsymJ : (symbolsOf f)[j]? = some (symbolsOf f)[j] := List.getElem?_eq_getElem hj
  rw [nodeAt_symbol_sym hsymI, nodeAt_symbol_sym hsymJ]
  exact symbolsOf_lt hij hsymI hsymJ

/-! ## The codes -/

/-- With two symbols or more, no symbol's code is a prefix of another's: the path of a leaf does not go on (R174). -/
theorem codeAt_prefix_free (hn : 2 ≤ (symbolsOf f).length) {a b : Byte} (ha : a ∈ symbolsOf f) (hb : b ∈ symbolsOf f)
    (h : codeAt (codesOf (buildArena f)) a <+: codeAt (codesOf (buildArena f)) b) : a = b := by
  obtain ⟨i, hi⟩ := List.getElem?_of_mem ha
  obtain ⟨j, hj⟩ := List.getElem?_of_mem hb
  obtain ⟨rest, hrest⟩ := h
  have hpathA := codeAt_eq_path hn hi
  have hpathB := codeAt_eq_path hn hj
  rw [← hrest] at hpathB
  have hleaf : (nodeAt (buildArena f) i).isInternal = false := by rw [(symbol_leaf hi).2]; rfl
  obtain rfl := hpathA.leaf_append hleaf hpathB
  rw [List.append_nil] at hpathB
  obtain rfl := hpathA.functional hpathB
  exact Option.some.inj (hi.symm.trans hj)

/-- A symbol's code is at most as long as the tree is deep (R157, R174). -/
theorem length_codeAt_le (hn : 2 ≤ (symbolsOf f).length) {b : Byte} (hb : b ∈ symbolsOf f) :
    (codeAt (codesOf (buildArena f)) b).length ≤ 255 := by
  obtain ⟨j, hj⟩ := List.getElem?_of_mem hb
  have hdepth := root_path_length_le (by omega) (codeAt_eq_path hn hj)
  have hsymbols := length_symbolsOf_le f
  omega

/-- The leaves of the tree, each with the path from the root to it. -/
def rootLeafPaths (f : FreqTable) : List (Nat × Bits) :=
  leafPaths (buildArena f) (buildArena f).length (rootIdx (buildArena f))

theorem rootIdx_lt (hn : 2 ≤ (symbolsOf f).length) : rootIdx (buildArena f) < (buildArena f).length := by
  have hlen := length_buildArena (f := f) (by omega)
  rw [rootIdx]
  omega

/-- The leaves are the symbols' leaves, and the paths to them the symbols' codes (R172). -/
theorem mem_rootLeafPaths (hn : 2 ≤ (symbolsOf f).length) (x : Nat × Bits) :
    x ∈ rootLeafPaths f ↔ ∃ b, (symbolsOf f)[x.1]? = some b ∧ x.2 = codeAt (codesOf (buildArena f)) b := by
  have hroot := rootIdx_lt hn
  rw [rootLeafPaths, mem_leafPaths hroot]
  constructor
  · rintro ⟨hpath, hleaf⟩
    have hsym := leaf_symbol (path_lt hroot hpath) hleaf
    exact ⟨_, hsym, path_unique hpath (codeAt_eq_path hn hsym)⟩
  · rintro ⟨b, hsym, hcode⟩
    rw [hcode, (symbol_leaf hsym).2]
    exact ⟨codeAt_eq_path hn hsym, rfl⟩

/-- Each symbol's leaf is found once: the leaves, read as symbols, are the symbols in some order (R157). -/
theorem symbols_of_rootLeafPaths (hn : 2 ≤ (symbolsOf f).length) :
    ((rootLeafPaths f).map fun x => (nodeAt (buildArena f) x.1).sym).Perm (symbolsOf f) := by
  refine (List.perm_ext_iff_of_nodup (List.Nodup.map_on ?_ (leafPaths_nodup _ _ _)) (symbolsOf_nodup f)).2 fun b => ?_
  · rintro ⟨i, p⟩ hx ⟨j, q⟩ hy hsame
    obtain ⟨a, ha, rfl⟩ := (mem_rootLeafPaths hn _).1 hx
    obtain ⟨b, hb, rfl⟩ := (mem_rootLeafPaths hn _).1 hy
    obtain rfl : a = b := (nodeAt_symbol_sym ha).symm.trans (hsame.trans (nodeAt_symbol_sym hb))
    exact Prod.ext (symbol_index_unique ha hb) rfl
  · rw [List.mem_map]
    constructor
    · rintro ⟨x, hx, rfl⟩
      obtain ⟨b, hb, -⟩ := (mem_rootLeafPaths hn x).1 hx
      rw [nodeAt_symbol_sym hb]
      exact List.mem_of_getElem? hb
    · intro hb
      obtain ⟨j, hj⟩ := List.getElem?_of_mem hb
      exact ⟨(j, codeAt (codesOf (buildArena f)) b), (mem_rootLeafPaths hn _).2 ⟨b, hj, rfl⟩, nodeAt_symbol_sym hj⟩

/-- The Kraft equality, scaled by 2^255: the sum over the symbols is the sum over the leaves (R174). -/
theorem kraft_symbols (hn : 2 ≤ (symbolsOf f).length) :
    ((symbolsOf f).map fun b => 2 ^ (255 - (codeAt (codesOf (buildArena f)) b).length)).sum = 2 ^ 255 := by
  have hcode : ∀ x ∈ rootLeafPaths f,
      x.2 = codeAt (codesOf (buildArena f)) (nodeAt (buildArena f) x.1).sym ∧ x.2.length ≤ 255 := by
    intro x hx
    obtain ⟨b, hb, hpath⟩ := (mem_rootLeafPaths hn x).1 hx
    rw [nodeAt_symbol_sym hb, hpath]
    exact ⟨rfl, length_codeAt_le hn (List.mem_of_getElem? hb)⟩
  calc ((symbolsOf f).map fun b => 2 ^ (255 - (codeAt (codesOf (buildArena f)) b).length)).sum
      = ((rootLeafPaths f).map fun x =>
          2 ^ (255 - (codeAt (codesOf (buildArena f)) (nodeAt (buildArena f) x.1).sym).length)).sum := by
        rw [← ((symbols_of_rootLeafPaths hn).map _).sum_eq, List.map_map]
        rfl
    _ = ((rootLeafPaths f).map fun x => 2 ^ (255 - x.2.length)).sum := by
        rw [List.map_congr_left fun x hx => by rw [← (hcode x hx).1]]
    _ = 2 ^ 255 := kraft_leafPaths (rootIdx_lt hn) fun x hx => (hcode x hx).2

end Built

/-! ## The statements -/

/-- Settles O30: the merge loop's invariant gives the slots and the weights; the order is that of the merges and of the
sequence ids, which are the indices. -/
theorem treeProperties : Obligations.TreeProperties := by
  intro f hfits hn
  have hpos : 1 ≤ (symbolsOf f).length := by omega
  have hlen := length_buildArena hpos
  have hsymbols := length_symbolsOf_le f
  refine ⟨childSlots_buildArena hpos, fun i hi hint => ?_, root_weight hpos hfits,
    fun i hi => (buildArena_sums hfits hi).1, fun p j => root_path_length_le hpos, by omega,
    fun i k hi hk hklen => ?_, fun i j hij hj => ?_⟩
  · obtain ⟨-, -, hne⟩ := buildArena_children hi hint
    exact ⟨fun heq => hne (congrArg BitVec.toNat heq), (buildArena_sums hfits hi).2 hint,
      buildArena_children_keyBelow hint⟩
  · have hik : i < k := by omega
    exact ⟨buildArena_seq_lt hik hklen, keyBelow_of_weight_eq hik hklen⟩
  · exact ⟨buildArena_sym_lt hij hj, keyBelow_of_weight_eq hij (by omega)⟩

/-- Settles O34: a byte has a code exactly when it is a symbol; with two symbols or more the codes are the paths to the
leaves. -/
theorem codeTableProperties : Obligations.CodeTableProperties := by
  intro f
  refine ⟨fun b => ⟨fun hcode hzero => hcode (codeAt_no_symbol hzero), codeAt_ne_nil⟩, fun hone b hb => ?_,
    fun hn => ?_⟩
  · obtain ⟨c, hc⟩ := List.length_eq_one_iff.1 hone
    rw [hc, List.mem_singleton] at hb
    rw [hb, codeAt_single hc]
  · refine ⟨fun a ha b hb hab hprefix => hab (codeAt_prefix_free hn ha hb hprefix),
      fun b hb => ⟨?_, length_codeAt_le hn hb⟩, kraft_symbols hn⟩
    exact List.length_pos_iff.2 (codeAt_ne_nil ((mem_symbolsOf f b).1 hb))

end Sys2Proof.Machine
end

section
/-! SUPPORT. COMPRESS and DECOMPRESS one after the other (spec/44_codec.md R219, R220): the compressed file, the file
given back, and the files that are damaged. -/

namespace Sys2Proof.Machine

/-! ## The compressed file -/

/-- COMPRESS appends the header of the input's counts and its payload, zero-padded (R216). -/
theorem compress_file {s : State} (hin : s.inUsable = true) (hout : s.outUsable = true)
    (hlen : s.input.length ≤ 2 ^ 64 - 1) :
    ∃ f p k t, CountsOf f s.input ∧ k < 8 ∧
      payloadBits p = codeBits (codesOf (buildArena f)) s.input ++ List.replicate k false ∧
      exec .compress s = .next t ∧ t.statusCode = .ok ∧ t.arena = buildArena f ∧
      t.output = s.output ++ headerOf s.lHdrBe f ++ p := by
  obtain ⟨-, -, hcompletes⟩ := compressCompletes s
  obtain ⟨f, p, k, hcounts, hk, hbits, -, hexec⟩ := hcompletes hin hout hlen
  exact ⟨f, p, k, _, hcounts, hk, hbits, hexec, rfl, rfl, rfl⟩

/-- Zero padding is padding (R188). -/
theorem payloadOf_zeroPadded {p : List Byte} {bits : Bits} {k : Nat} (hk : k < 8)
    (h : payloadBits p = bits ++ List.replicate k false) : PayloadOf p bits :=
  ⟨List.replicate k false, by rwa [List.length_replicate], h⟩

/-! ## Degenerate inputs -/

/-- Every byte of the header of a cleared table is 0 (R133). -/
theorem headerOf_freqZero (be : Bool) : headerOf be freqZero = List.replicate 2048 0#8 := by
  rw [List.eq_replicate_iff]
  refine ⟨length_headerOf be freqZero, fun x hx => ?_⟩
  obtain ⟨c, hc, hx⟩ := List.mem_flatMap.1 hx
  obtain ⟨k, -, rfl⟩ := List.mem_map.1 hx
  rw [freqZero, Vector.toList_replicate] at hc
  rw [List.eq_of_mem_replicate hc]
  exact BitVec.extractLsb'_zero ..

theorem CountsOf.eq_freqZero {f : FreqTable} (h : CountsOf f []) : f = freqZero :=
  freq_ext fun b => (BitVec.eq_of_toNat_eq (h b)).trans (freqAt_freqZero b).symm

/-- With one repeated byte counted, that byte is the only symbol (R131, R151). -/
theorem CountsOf.symbolsOf_replicate {f : FreqTable} {N : Nat} {b : Byte} (h : CountsOf f (List.replicate N b))
    (hN : 1 ≤ N) : symbolsOf f = [b] := by
  refine List.perm_singleton.1 ((List.perm_ext_iff_of_nodup (symbolsOf_nodup f) (List.nodup_singleton b)).2 fun c => ?_)
  rw [mem_symbolsOf, h.mem, List.mem_replicate, List.mem_singleton]
  exact and_iff_right (by omega)

/-- A byte whose bits are all 0 is 0 (R86). -/
theorem eq_zero_of_bitsOfByte {x : Byte} (h : ∀ c ∈ bitsOfByte x, c = false) : x = 0#8 := by
  simp only [bitsOfByte, List.forall_mem_cons] at h
  obtain ⟨h7, h6, h5, h4, h3, h2, h1, h0, -⟩ := h
  apply BitVec.eq_of_getLsbD_eq
  intro i hi
  interval_cases i <;> simpa

/-- A payload of 0 bits has 0 bytes only (R86). -/
theorem eq_replicate_of_payloadBits {p : List Byte} {n : Nat} (h : payloadBits p = List.replicate n false) :
    p = List.replicate p.length 0#8 := by
  rw [List.eq_replicate_iff]
  refine ⟨rfl, fun x hx => eq_zero_of_bitsOfByte fun c hc => ?_⟩
  have hmem : c ∈ payloadBits p := List.mem_flatMap.2 ⟨x, hx, hc⟩
  rw [h] at hmem
  exact List.eq_of_mem_replicate hmem

/-- With a single symbol the code bits of its occurrences are as many 0 bits (R173). -/
theorem codeBits_single {f : FreqTable} {b : Byte} (h : symbolsOf f = [b]) (N : Nat) :
    codeBits (codesOf (buildArena f)) (List.replicate N b) = List.replicate N false := by
  induction N with
  | zero => rfl
  | succ N ih => rw [List.replicate_succ, codeBits_cons, codeAt_single h, ih]; rfl

/-- The payload of one repeated byte is zero bytes, one bit an occurrence (R220). -/
theorem payload_replicate {f : FreqTable} {p : List Byte} {N k : Nat} {b : Byte} (hone : symbolsOf f = [b]) (hk : k < 8)
    (h : payloadBits p = codeBits (codesOf (buildArena f)) (List.replicate N b) ++ List.replicate k false) :
    p = List.replicate ((N + 7) / 8) 0#8 := by
  rw [codeBits_single hone] at h
  have hbytes := (payloadOf_zeroPadded hk h).length_eq
  rw [List.length_replicate] at hbytes
  rw [List.replicate_append_replicate] at h
  rw [← hbytes]
  exact eq_replicate_of_payloadBits h

/-! ## Damaged payloads -/

/-- Code bits cut before their end: whole codes, then a part of the next one (R191). -/
theorem codeBits_cut {codes : CodeTable} {xs : List Byte} {bits tail : Bits} (h : codeBits codes xs = bits ++ tail)
    (htail : tail ≠ []) :
    ∃ ys b zs part rest, xs = ys ++ b :: zs ∧ codeAt codes b = part ++ rest ∧ rest ≠ [] ∧
      bits = codeBits codes ys ++ part := by
  induction xs generalizing bits with
  | nil => exact absurd (List.append_eq_nil_iff.1 h.symm).2 htail
  | cons x xs ih =>
    rw [codeBits_cons] at h
    obtain ⟨more, hbits, hcut⟩ | ⟨rest, hcode, hrest⟩ := List.append_eq_append_iff.1 h
    · obtain ⟨ys, b, zs, part, rest, hsplit, hb, hne, hpart⟩ := ih hcut
      exact ⟨x :: ys, b, zs, part, rest, by rw [hsplit]; rfl, hb, hne,
        by rw [hbits, hpart, codeBits_cons, List.append_assoc]⟩
    · by_cases hne : rest = []
      · rw [hne, List.append_nil] at hcode
        rw [hne, List.nil_append] at hrest
        obtain ⟨ys, b, zs, part, rest, hsplit, hb, hne, hpart⟩ := ih (bits := []) hrest.symm
        exact ⟨x :: ys, b, zs, part, rest, by rw [hsplit]; rfl, hb, hne,
          by rw [codeBits_cons, List.append_assoc, ← hpart, List.append_nil, hcode]⟩
      · exact ⟨[], x, xs, bits, rest, rfl, hcode, hne, rfl⟩

/-- A payload without its last byte has lost code bits: the pad bits are fewer than a byte (R188). -/
theorem PayloadOf.dropLast_cut {p : List Byte} {bits : Bits} (h : PayloadOf p bits) (hp : p ≠ []) :
    ∃ tail, tail ≠ [] ∧ bits = payloadBits p.dropLast ++ tail := by
  obtain ⟨pad, hpad, hbits⟩ := h
  have hlast : payloadBits p = payloadBits p.dropLast ++ bitsOfByte (p.getLast hp) := by
    conv_lhs => rw [← List.dropLast_append_getLast hp, payloadBits_append, payloadBits_cons, payloadBits_nil,
      List.append_nil]
  have hlen := congrArg List.length hbits
  rw [hlast, List.length_append, List.length_append, length_bitsOfByte] at hlen
  obtain ⟨tail, htail⟩ : payloadBits p.dropLast <+: bits :=
    List.prefix_of_prefix_length_le (l₃ := payloadBits p) ⟨_, hlast.symm⟩ ⟨_, hbits.symm⟩ (by omega)
  refine ⟨tail, ?_, htail.symm⟩
  rintro rfl
  rw [← htail, List.append_nil] at hlen
  omega

/-! ## DECOMPRESS of a compressed file, whole and damaged -/

section File

variable {u : State} {f : FreqTable} {xs p : List Byte} (hin : u.inUsable = true) (hout : u.outUsable = true)
  (hm : u.lDecMode = .exact) (hcounts : CountsOf f xs) (hlen : xs.length ≤ 2 ^ 64 - 1)
  (hp : PayloadOf p (codeBits (codesOf (buildArena f)) xs))

include hin hout hm in
/-- When EXACT fails on what follows a header, DECOMPRESS of the file does (R218). -/
theorem decompress_rejects {c : Cause} {t : State} {rest : List Byte} (hc : c.code = .invalidArguments)
    (hinput : u.input = headerOf u.lHdrBe f ++ rest) (hfits : totalCount f < 2 ^ 64)
    (h : unpackExact (totalCount f) (distinctCount f) (u.headerLoaded f) = .error (c, t)) :
    ∃ v, exec .decompress u = .next v ∧ v.statusCode = .invalidArguments ∧ v.statusCause = c := by
  have hbody : bodyOf .unpack (u.headerLoaded f) = unpackRemaining (u.headerLoaded f) := bodyOf_unpack hin hout rfl
  have hexact := unpackRemaining_exact (s := u.headerLoaded f) hm
  rw [exec_decompress_loaded hinput hin hout hfits]
  exact ⟨_, exec_of_bodyOf_invalid hc (hbody.trans (hexact.trans h)), rfl, rfl⟩

include hcounts in
/-- The counted symbols are those of the input (R131). -/
theorem CountsOf.ne_zero : ∀ x ∈ xs, freqAt f x ≠ 0#64 := fun x => (hcounts.mem x).2

include hcounts hp in
/-- An input with a byte in it has a payload (R189). -/
theorem payload_ne_nil (hxs : xs ≠ []) : p ≠ [] := by
  obtain ⟨x, ys, rfl⟩ := List.exists_cons_of_ne_nil hxs
  obtain ⟨pad, -, hbits⟩ := hp
  rintro rfl
  rw [codeBits_cons] at hbits
  have hcode := (List.append_eq_nil_iff.1 (List.append_eq_nil_iff.1 hbits.symm).1).1
  exact codeAt_ne_nil (hcounts.ne_zero x List.mem_cons_self) hcode

include hin hout hm hcounts hlen hp

/-- The whole file gives the input back (R219). -/
theorem decompress_whole (hinput : u.input = headerOf u.lHdrBe f ++ p) :
    ∃ v, exec .decompress u = .next v ∧ v.statusCode = .ok ∧ v.output = u.output ++ xs := by
  have htotal := hcounts.total
  obtain ⟨-, -, hdecodes, -⟩ := decompressDecodes u f p hin hout hinput (by omega)
  exact ⟨_, hdecodes xs hm htotal.symm hcounts.ne_zero hp, rfl, rfl⟩

/-- The file without its last byte is TRUNCATED (R220). -/
theorem decompress_cut (hxs : xs ≠ []) (hinput : u.input = headerOf u.lHdrBe f ++ p.dropLast) :
    ∃ v, exec .decompress u = .next v ∧ v.statusCode = .invalidArguments ∧ v.statusCause = .truncated := by
  obtain ⟨tail, htail, hbits⟩ := hp.dropLast_cut (payload_ne_nil hcounts hp hxs)
  obtain ⟨ys, b, zs, part, rest, rfl, hb, hrest, hcut⟩ := codeBits_cut hbits htail
  have htotal := hcounts.total
  have hsymbol := hcounts.ne_zero
  rw [List.length_append, List.length_cons] at htotal hlen
  have hfails := unpackExact_truncated (s := u.headerLoaded f) rfl (remaining_headerLoaded hinput)
    (show ys.length < totalCount f by omega) (fun y hy => hsymbol y (List.mem_append_left _ hy))
    (hsymbol b (List.mem_append_right _ List.mem_cons_self)) hb hrest hcut
  exact decompress_rejects hin hout hm rfl hinput (by omega) hfails

/-- The file with bytes appended is TRAILING (R220). -/
theorem decompress_extended {extra : List Byte} (hxs : xs ≠ []) (hextra : extra ≠ [])
    (hinput : u.input = headerOf u.lHdrBe f ++ (p ++ extra)) :
    ∃ v, exec .decompress u = .next v ∧ v.statusCode = .invalidArguments ∧ v.statusCause = .trailing := by
  have htotal := hcounts.total
  have hfails := unpackExact_finished (s := u.headerLoaded f) rfl (remaining_headerLoaded hinput) htotal.symm
    hcounts.ne_zero hxs hp
  rw [if_neg hextra] at hfails
  exact decompress_rejects hin hout hm rfl hinput (by omega) hfails

end File

/-! ## The statements -/

/-- Settles O45: an empty input leaves every count 0; one repeated byte is a single symbol, whose code is one 0 bit. -/
theorem degenerateCompression : Obligations.DegenerateCompression := by
  intro s hin hout
  constructor
  · intro hempty
    obtain ⟨f, p, k, t, hcounts, hk, hbits, hexec, hok, harena, houtput⟩ :=
      compress_file hin hout (by rw [hempty]; exact Nat.zero_le _)
    rw [hempty] at hcounts hbits
    obtain rfl := hcounts.eq_freqZero
    have hpayload : p = [] := (payloadOf_zeroPadded hk hbits).eq_nil
    refine ⟨t, hexec, hok, ?_, ?_⟩
    · rw [harena, buildArena_empty (by rw [freqZero_symbols, List.length_nil])]
    · rw [houtput, headerOf_freqZero, hpayload, List.append_nil]
  · intro N b hN hfits hinput
    obtain ⟨f, p, k, t, hcounts, hk, hbits, hexec, hok, -, houtput⟩ :=
      compress_file hin hout (by rwa [hinput, List.length_replicate])
    rw [hinput] at hcounts hbits
    have hcount : freqAt f b = BitVec.ofNat 64 N := by
      apply BitVec.eq_of_toNat_eq
      rw [hcounts b, List.count_replicate_self, BitVec.toNat_ofNat, Nat.mod_eq_of_lt (by omega)]
    refine ⟨t, headerOf s.lHdrBe f, hexec, hok, length_headerOf _ _, fun j hj => ?_, fun c j hc hj => ?_, ?_⟩
    · rw [← hcount]
      exact headerOf_getElem? s.lHdrBe f b hj
    · have hother : freqAt f c = 0#64 := by
        by_contra hne
        exact hc (List.eq_of_mem_replicate ((hcounts.mem c).1 hne))
      rw [headerOf_getElem? s.lHdrBe f c hj, hother, BitVec.extractLsb'_zero]
    · rw [houtput, payload_replicate (hcounts.symbolsOf_replicate hN) hk hbits]

/-- Settles O48: the file is a header that loads the counts back and a payload of the input's code bits. -/
theorem compressDecompressRoundTrip : Obligations.CompressDecompressRoundTrip := by
  intro s hin hout hlen hempty
  obtain ⟨f, p, k, t, hcounts, hk, hbits, hexec, hok, -, houtput⟩ := compress_file hin hout hlen
  refine ⟨t, hexec, hok, fun u huin huout hinput huempty hbe hm => ?_⟩
  rw [houtput, hempty, List.nil_append, ← hbe] at hinput
  have hwhole := decompress_whole huin huout hm hcounts hlen (payloadOf_zeroPadded hk hbits) hinput
  rwa [huempty, List.nil_append] at hwhole

/-- Settles O49: without its last byte the payload ends inside the code bits; bytes appended come after the last symbol.
-/
theorem damagedFilesAreRejected : Obligations.DamagedFilesAreRejected := by
  intro s t hin hout hlen hempty hne hcompress u huin huout hbe hm
  obtain ⟨f, p, k, t', hcounts, hk, hbits, hexec, -, -, houtput⟩ := compress_file hin hout hlen
  cases hcompress.symm.trans hexec
  have hpayload := payloadOf_zeroPadded hk hbits
  rw [hempty, List.nil_append, ← hbe] at houtput
  rw [houtput]
  constructor
  · intro hinput
    rw [List.dropLast_append_of_ne_nil (payload_ne_nil hcounts hpayload hne)] at hinput
    exact decompress_cut huin huout hm hcounts hlen hpayload hne hinput
  · intro extra hextra hinput
    rw [List.append_assoc] at hinput
    exact decompress_extended huin huout hm hcounts hlen hpayload hne hextra hinput

end Sys2Proof.Machine
end
